-- ==== Sys2Proof/Word.lean ====
section
/-! DEFINITION. The bit-vector types of the block (R7, R13). All values are unsigned. -/

namespace Sys2Proof

/-- One 8-bit byte of the wire or of a buffer (R60). -/
abbrev Byte := BitVec 8

/-- A 64-bit payload length, count or buffer address (R7). -/
abbrev Word64 := BitVec 64

/-- A 4-byte masking key; `k0` is the first key byte on the wire (R38, R44, R90). -/
structure Key where
  k0 : Byte
  k1 : Byte
  k2 : Byte
  k3 : Byte
deriving DecidableEq, Repr

end Sys2Proof
end

