-- ==== Sys2Proof/Syntax.lean ====
section
/-! DEFINITION. The instructions: one constructor per row of `spec/opcode_table.json` (R3, R83, R95).

Nine rows are host commands.  Twenty-one rows describe the 16-bit header notation `HDR = B0 << 8 | B1` (R83) in three
sub-tables that cover the same word: an opcode row fixes bits of byte 0, a length row and a mask row fix bits of byte 1.
A constructor carries the other fields of the byte its row fixes: `fin` and `rsv` of byte 0 for an opcode row, the MASK
bit (and `l`) of byte 1 for a length row; a mask row fixes the one bit it reads, so it carries none. -/

namespace Sys2Proof

/-- The instructions of the block. -/
inductive Instr where
  -- host commands (R95)
  /-- NOP (R97). -/
  | nop
  /-- READ (R120). -/
  | read
  /-- SEND_TEXT (R170). -/
  | sendText
  /-- SEND_BINARY (R171). -/
  | sendBinary
  /-- SEND_PING (R172). -/
  | sendPing
  /-- SEND_CLOSE (R174). -/
  | sendClose
  /-- CLOSE (R210). -/
  | close
  /-- SEND_FRAME (R175). -/
  | sendFrame
  /-- UNASSIGNED, pattern `1ccc` (R98). -/
  | unassigned (c : BitVec 3)
  -- opcode rows: byte 0 of a received frame, pattern `Frrroooo` (R81, R85, R86)
  | frameContinuation (fin : Bool) (rsv : BitVec 3)
  | frameText (fin : Bool) (rsv : BitVec 3)
  | frameBinary (fin : Bool) (rsv : BitVec 3)
  | frameClose (fin : Bool) (rsv : BitVec 3)
  | framePing (fin : Bool) (rsv : BitVec 3)
  | framePong (fin : Bool) (rsv : BitVec 3)
  | frameOpaque3 (fin : Bool) (rsv : BitVec 3)
  | frameOpaque4 (fin : Bool) (rsv : BitVec 3)
  | frameOpaque5 (fin : Bool) (rsv : BitVec 3)
  | frameOpaque6 (fin : Bool) (rsv : BitVec 3)
  | frameOpaque7 (fin : Bool) (rsv : BitVec 3)
  | frameOpaqueB (fin : Bool) (rsv : BitVec 3)
  | frameOpaqueC (fin : Bool) (rsv : BitVec 3)
  | frameOpaqueD (fin : Bool) (rsv : BitVec 3)
  | frameOpaqueE (fin : Bool) (rsv : BitVec 3)
  | frameOpaqueF (fin : Bool) (rsv : BitVec 3)
  -- length rows: byte 1, pattern `Mlllllll` (R82, R88)
  /-- LEN7: the inline length `l`, at most 125 (R125). -/
  | len7 (mask : Bool) (l : BitVec 7)
  /-- LEN16: `l` = 126 (R126). -/
  | len16 (mask : Bool)
  /-- LEN64: `l` = 127 (R126). -/
  | len64 (mask : Bool)
  -- mask rows: bit 7 of byte 1 (R90, R128, R130)
  /-- KEY_PRESENT: MASK = 1. -/
  | keyPresent
  /-- KEY_ABSENT: MASK = 0. -/
  | keyAbsent
deriving DecidableEq, Repr

end Sys2Proof
end

