-- ==== Sys2Proof/WellFormed.lean ====
section
/-! DEFINITION. Which instruction terms are instructions. -/

namespace Sys2Proof

/-- LEN7 carries an inline length of at most 125: 126 and 127 are LEN16 and LEN64 (R88; the table's constraint on LEN7).
Every other term is well formed: the widths of its fields are the widths of the encoding. -/
def Instr.wf : Instr → Bool
  | .len7 _ l => decide (l.toNat ≤ 125)
  | .nop | .read | .sendText | .sendBinary | .sendPing | .sendClose | .close | .sendFrame | .unassigned _ => true
  | .frameContinuation _ _ | .frameText _ _ | .frameBinary _ _ | .frameClose _ _ | .framePing _ _ | .framePong _ _ => true
  | .frameOpaque3 _ _ | .frameOpaque4 _ _ | .frameOpaque5 _ _ | .frameOpaque6 _ _ | .frameOpaque7 _ _ => true
  | .frameOpaqueB _ _ | .frameOpaqueC _ _ | .frameOpaqueD _ _ | .frameOpaqueE _ _ | .frameOpaqueF _ _ => true
  | .len16 _ | .len64 _ | .keyPresent | .keyAbsent => true

end Sys2Proof
end

