-- ==== Sys2Proof/Decode.lean ====
section
/-! DEFINITION. The decoder and encoder of instructions (R80 to R101), the byte-order helpers (R14, R44) and the
wire-format encoder with its masker (R160, R161). -/

namespace Sys2Proof

/-! ### Big-endian assembly and splitting (R14, R44) -/

/-- `BE16(b0, b1)` (R14). -/
def be16 (b0 b1 : Byte) : BitVec 16 := b0 ++ b1

/-- `BE16bytes(v) = [v[15:8], v[7:0]]` (R14). -/
def be16Bytes (v : BitVec 16) : List Byte := [v.extractLsb' 8 8, v.extractLsb' 0 8]

/-- `BE64bytes(v) = [v[63:56], ..., v[7:0]]` (R14). -/
def be64Bytes (v : Word64) : List Byte :=
  [v.extractLsb' 56 8, v.extractLsb' 48 8, v.extractLsb' 40 8, v.extractLsb' 32 8,
   v.extractLsb' 24 8, v.extractLsb' 16 8, v.extractLsb' 8 8, v.extractLsb' 0 8]

/-- `BE64(b0, ..., b7)` (R14). -/
def be64 (b0 b1 b2 b3 b4 b5 b6 b7 : Byte) : Word64 := b0 ++ b1 ++ b2 ++ b3 ++ b4 ++ b5 ++ b6 ++ b7

/-- One more wire byte of a big-endian number: `(n << 8) | zext_64(b)` (R126). -/
def pushByte (n : Word64) (b : Byte) : Word64 := (n <<< 8) ||| b.setWidth 64

/-- `BE32(k0, k1, k2, k3)`: what a host read of RXKEY or TXKEY returns (R44). -/
def Key.pack (k : Key) : BitVec 32 := k.k0 ++ k.k1 ++ k.k2 ++ k.k3

/-- The four bytes a host write of `v` to TXKEY stores (R44). -/
def Key.unpack (v : BitVec 32) : Key :=
  { k0 := v.extractLsb' 24 8, k1 := v.extractLsb' 16 8, k2 := v.extractLsb' 8 8, k3 := v.extractLsb' 0 8 }

/-- The key `[0, 0, 0, 0]` (R122, R170). -/
def Key.zero : Key := { k0 := 0, k1 := 0, k2 := 0, k3 := 0 }

/-- The key's bytes in wire order (R90). -/
def Key.bytes (k : Key) : List Byte := [k.k0, k.k1, k.k2, k.k3]

/-- `k[i mod 4]` (R140, R161). -/
def Key.at (k : Key) (i : Nat) : Byte :=
  match i % 4 with
  | 0 => k.k0
  | 1 => k.k1
  | 2 => k.k2
  | _ => k.k3

/-- `k[i] <- b` (R128). The phase KEY uses `i` = 0..3 only (R37); any other index writes nothing. -/
def Key.set (k : Key) (i : BitVec 4) (b : Byte) : Key :=
  match i.toNat with
  | 0 => { k with k0 := b }
  | 1 => { k with k1 := b }
  | 2 => { k with k2 := b }
  | 3 => { k with k3 := b }
  | _ => k

/-! ### Header bytes (R81, R82) -/

/-- Byte 0: FIN, RSV, OPCODE from bit 7 down (R81). -/
def byte0 (fin : Bool) (rsv : BitVec 3) (op : BitVec 4) : Byte := BitVec.ofBool fin ++ rsv ++ op

/-- Byte 1: MASK, L from bit 7 down (R82). -/
def byte1 (mask : Bool) (l : BitVec 7) : Byte := BitVec.ofBool mask ++ l

/-- FIN, bit 7 of byte 0 (R81). -/
def finOf (b : Byte) : Bool := b.getLsbD 7

/-- RSV, bits 6..4 of byte 0 (R81). -/
def rsvOf (b : Byte) : BitVec 3 := b.extractLsb' 4 3

/-- OPCODE, bits 3..0 of byte 0 (R81). -/
def opcodeOf (b : Byte) : BitVec 4 := b.extractLsb' 0 4

/-- MASK, bit 7 of byte 1 (R82). -/
def maskOf (b : Byte) : Bool := b.getLsbD 7

/-- `L`, bits 6..0 of byte 1 (R82). -/
def lenOf (b : Byte) : BitVec 7 := b.extractLsb' 0 7

/-! ### The instruction decoder -/

/-- The four places where the block decodes bits into an instruction: the code written to CMD (R95), byte 0 (R85),
byte 1's length field (R88) and byte 1's MASK bit (R90). -/
inductive Slot where
  | command
  | opcode
  | length
  | maskBit
deriving DecidableEq, Repr

/-- Why bits are no instruction. -/
inductive DecodeError where
  /-- CMD is 4 bits wide (R24): a byte with a bit above bit 3 set is no command code. -/
  | commandTooWide
deriving DecidableEq, Repr

/-- The command of a 4-bit code (R95); codes 0x8..0xF are UNASSIGNED (R98). -/
def decodeCommand (c : BitVec 4) : Instr :=
  match c.toNat with
  | 0x0 => .nop
  | 0x1 => .read
  | 0x2 => .sendText
  | 0x3 => .sendBinary
  | 0x4 => .sendPing
  | 0x5 => .sendClose
  | 0x6 => .close
  | 0x7 => .sendFrame
  | _ => .unassigned (c.extractLsb' 0 3)

/-- The opcode row of byte 0: none of the 16 values is rejected (R85, R86, R123). -/
def decodeOpcode (b : Byte) : Instr :=
  match (opcodeOf b).toNat with
  | 0x0 => .frameContinuation (finOf b) (rsvOf b)
  | 0x1 => .frameText (finOf b) (rsvOf b)
  | 0x2 => .frameBinary (finOf b) (rsvOf b)
  | 0x3 => .frameOpaque3 (finOf b) (rsvOf b)
  | 0x4 => .frameOpaque4 (finOf b) (rsvOf b)
  | 0x5 => .frameOpaque5 (finOf b) (rsvOf b)
  | 0x6 => .frameOpaque6 (finOf b) (rsvOf b)
  | 0x7 => .frameOpaque7 (finOf b) (rsvOf b)
  | 0x8 => .frameClose (finOf b) (rsvOf b)
  | 0x9 => .framePing (finOf b) (rsvOf b)
  | 0xA => .framePong (finOf b) (rsvOf b)
  | 0xB => .frameOpaqueB (finOf b) (rsvOf b)
  | 0xC => .frameOpaqueC (finOf b) (rsvOf b)
  | 0xD => .frameOpaqueD (finOf b) (rsvOf b)
  | 0xE => .frameOpaqueE (finOf b) (rsvOf b)
  | _ => .frameOpaqueF (finOf b) (rsvOf b)

/-- The length row of byte 1, selected by `L` (R88, R124). -/
def decodeLength (b : Byte) : Instr :=
  match (lenOf b).toNat with
  | 126 => .len16 (maskOf b)
  | 127 => .len64 (maskOf b)
  | _ => .len7 (maskOf b) (lenOf b)

/-- The mask row of byte 1 (R90, R130). -/
def decodeMaskBit (b : Byte) : Instr :=
  if maskOf b then .keyPresent else .keyAbsent

/-- The decoder: total on any byte at any of the four slots (R100). -/
def decode (slot : Slot) (b : Byte) : Except DecodeError Instr :=
  match slot with
  | .command => if b.toNat < 16 then .ok (decodeCommand (b.setWidth 4)) else .error .commandTooWide
  | .opcode => .ok (decodeOpcode b)
  | .length => .ok (decodeLength b)
  | .maskBit => .ok (decodeMaskBit b)

/-! ### The instruction encoder -/

/-- Where an instruction's bits stand and what they are (R81, R82, R95). A mask row fixes bit 7 only; its `L` bits are
the length row's and are written 0 here. -/
def encode : Instr → Slot × Byte
  | .nop => (.command, 0x0#8)
  | .read => (.command, 0x1#8)
  | .sendText => (.command, 0x2#8)
  | .sendBinary => (.command, 0x3#8)
  | .sendPing => (.command, 0x4#8)
  | .sendClose => (.command, 0x5#8)
  | .close => (.command, 0x6#8)
  | .sendFrame => (.command, 0x7#8)
  | .unassigned c => (.command, 0b00001#5 ++ c)
  | .frameContinuation fin rsv => (.opcode, byte0 fin rsv 0x0)
  | .frameText fin rsv => (.opcode, byte0 fin rsv 0x1)
  | .frameBinary fin rsv => (.opcode, byte0 fin rsv 0x2)
  | .frameClose fin rsv => (.opcode, byte0 fin rsv 0x8)
  | .framePing fin rsv => (.opcode, byte0 fin rsv 0x9)
  | .framePong fin rsv => (.opcode, byte0 fin rsv 0xA)
  | .frameOpaque3 fin rsv => (.opcode, byte0 fin rsv 0x3)
  | .frameOpaque4 fin rsv => (.opcode, byte0 fin rsv 0x4)
  | .frameOpaque5 fin rsv => (.opcode, byte0 fin rsv 0x5)
  | .frameOpaque6 fin rsv => (.opcode, byte0 fin rsv 0x6)
  | .frameOpaque7 fin rsv => (.opcode, byte0 fin rsv 0x7)
  | .frameOpaqueB fin rsv => (.opcode, byte0 fin rsv 0xB)
  | .frameOpaqueC fin rsv => (.opcode, byte0 fin rsv 0xC)
  | .frameOpaqueD fin rsv => (.opcode, byte0 fin rsv 0xD)
  | .frameOpaqueE fin rsv => (.opcode, byte0 fin rsv 0xE)
  | .frameOpaqueF fin rsv => (.opcode, byte0 fin rsv 0xF)
  | .len7 mask l => (.length, byte1 mask l)
  | .len16 mask => (.length, byte1 mask 126)
  | .len64 mask => (.length, byte1 mask 127)
  | .keyPresent => (.maskBit, byte1 true 0)
  | .keyAbsent => (.maskBit, byte1 false 0)

/-! ### The opcode table's words -/

/-- Byte 0 of a header word: bits 15..8 (R83). -/
def hdrByte0 (w : Nat) : Byte := BitVec.ofNat 8 (w / 256)

/-- Byte 1 of a header word: bits 7..0 (R83). -/
def hdrByte1 (w : Nat) : Byte := BitVec.ofNat 8 w

/-- Whether a header word stands for its byte-1 row in `decodeTableWord` (log 9): byte 0 is zero and byte 1 is not. -/
def isByte1Word (w : Nat) : Bool := hdrByte0 w == 0 && hdrByte1 w != 0

/-- The byte-1 row of a header word (log 9): KEY_PRESENT where the MASK bit is the only bit set, else the length row. -/
def decodeByte1Word (w : Nat) : Instr :=
  if hdrByte1 w = 0x80#8 then decodeMaskBit (hdrByte1 w) else decodeLength (hdrByte1 w)

/-- The instruction read from an opcode-table word (R83, R95). A command is 4 bits, one byte with its high bits 0. A
16-bit header word falls under three rows at once and this function can name one: the opcode row of byte 0, which the
block decodes first, except that a word whose byte 0 is zero and byte 1 is not stands for the byte-1 row (log 9). -/
def decodeTableWord (nbits w : Nat) : Option Instr :=
  if nbits ≤ 8 then
    if w < 16 then some (decodeCommand (BitVec.ofNat 4 w)) else none
  else if nbits = 16 then
    if w < 65536 then
      if isByte1Word w then some (decodeByte1Word w) else some (decodeOpcode (hdrByte0 w))
    else none
  else none

/-! ### The wire-format encoder (R160, R161) -/

/-- `X(p, k)` from payload position `i` on: byte `j` is XORed with `k[j mod 4]` (R141, R161). -/
def maskFrom (k : Key) : Nat → List Byte → List Byte
  | _, [] => []
  | i, b :: bs => (b ^^^ k.at i) :: maskFrom k (i + 1) bs

/-- The masker and unmasker `X(p, k)` (R141, R161). -/
def maskBytes (k : Key) (p : List Byte) : List Byte := maskFrom k 0 p

/-- Byte 1 and the extended-length field for `n` payload bytes: the shortest form that holds `n`, with the mask bit in
every form (R94, R160, C2). -/
def lengthField (mask : Bool) (n : Nat) : List Byte :=
  if n < 126 then [byte1 mask (BitVec.ofNat 7 n)]
  else if n < 65536 then byte1 mask 126 :: be16Bytes (BitVec.ofNat 16 n)
  else byte1 mask 127 :: be64Bytes (BitVec.ofNat 64 n)

/-- `Encode(fin, op, mask, k, p)` (R160): RSV is written 0 (R84). -/
def encodeFrame (fin : Bool) (op : BitVec 4) (mask : Bool) (k : Key) (p : List Byte) : List Byte :=
  byte0 fin 0 op :: (lengthField mask p.length ++ (if mask then k.bytes ++ maskBytes k p else p))

/-- `Encode(1, op, 0, [0,0,0,0], p)`: the unmasked, final frame of every command but SEND_FRAME (R177). -/
def serverFrame (op : BitVec 4) (p : List Byte) : List Byte := encodeFrame true op false Key.zero p

/-- A Close frame with status code `c` and no reason (R174, R200). -/
def closeFrame (c : BitVec 16) : List Byte := serverFrame 0x8 (be16Bytes c)

end Sys2Proof
end

