-- ==== Sys2Proof/Config.lean ====
section
/-! DEFINITION. What an implementation fixes (the parameters of R8) and the one free value. -/

namespace Sys2Proof

/-- The parameters of R8, which no step changes. `none` is `unbounded`. -/
structure Params where
  /-- RXBUF_BYTES, the capacity of RXRAW (R8, R66). -/
  rxbufBytes : Option Nat
  /-- TXBUF_BYTES, the capacity of TXBUF (R8, R66). -/
  txbufBytes : Option Nat
  /-- RXCLOSE_TEARDOWN_SENDS_CLOSE (R8, R215). -/
  rxcloseTeardownSendsClose : Bool
deriving DecidableEq, Repr

/-- The defaults of R8's table. -/
def Params.default : Params :=
  { rxbufBytes := none, txbufBytes := none, rxcloseTeardownSendsClose := true }

/-- The byte a host read of an unwritten buffer cell returns: a free value, the spec's `any value`
(R65, I11 of `spec/93_implementation_defined.md`; log 5). The argument is the running count of such reads. -/
opaque Config.unwrittenByte : Nat → Byte

end Sys2Proof
end

