-- ==== Sys2Proof/Machine/State.lean ====
section
/-! DEFINITION. The state of the machine: the block's registers (R23 to R43), its buffers (R60), its in-progress command
(R45), its parameters (R8), and the two other agents, host and transport (R11), as plain data. -/

namespace Sys2Proof.Machine

/-- CSTATE, 0..2 in this order; the value 3 is never held (R27). -/
inductive CState where
  | established
  | closing
  | closed
deriving DecidableEq, Repr

/-- STATUS, 0..4 in this order; 5..7 are never written (R25). -/
inductive Status where
  | ok
  | frameFormatError
  | transportError
  | protocolAnomaly
  | illegalCommand
deriving DecidableEq, Repr

/-- DPHASE, 0..5 in this order; 6 and 7 are never held (R36). -/
inductive DPhase where
  | idle
  | hdr0
  | hdr1
  | extlen
  | key
  | payload
deriving DecidableEq, Repr

/-- A receive symbol, the answer to `RxSym()` (R16). -/
inductive RxSym where
  | byte (b : Byte)
  | eos
  | fail
deriving DecidableEq, Repr

/-- The answer to `TxByte(b)` (R16). -/
inductive TxAnswer where
  | ok
  | fail
deriving DecidableEq, Repr

/-- The buffer spaces of R60. -/
inductive BufSpace where
  | rxraw
  | rxplain
  | txbuf
deriving DecidableEq, Repr

/-- The two agents that take steps (R11, R72). The transport acts only by answering the block. -/
inductive Agent where
  | host
  | block
deriving DecidableEq, Repr

/-- The transport environment (R11, R16). -/
structure Transport where
  /-- The symbols `RxSym()` has still to deliver, in stream order. -/
  rx : List RxSym
  /-- The answers to the next `TxByte` offers, in order. -/
  answers : List TxAnswer
  /-- The bytes the transport has taken, in order (R74). -/
  sent : List Byte
deriving DecidableEq, Repr

/-- A host bus action (R110, R112), and the reset event, which is the host's too (R270). -/
inductive BusAction where
  /-- `(W, n, v)`: write `v` to register `n`. -/
  | writeReg (n : BitVec 8) (v : Word64)
  /-- `(R, n)`: read register `n`. -/
  | readReg (n : BitVec 8)
  /-- `(WB, a, b)`: write byte `b` to TXBUF address `a`. -/
  | writeBuf (a : Word64) (b : Byte)
  /-- `(RB, space, a)`: read one byte of a buffer. -/
  | readBuf (space : BufSpace) (a : Word64)
  /-- `WAIT`: `(R, 0x02)`, repeated until it reads 0. -/
  | wait
  /-- Reset for a new connection, whose transport is `t` (R270, R276). -/
  | reset (t : Transport)
deriving DecidableEq, Repr

/-- What the last step of a command does. -/
inductive Ending where
  /-- `finish(st)` (R18). -/
  | finish (st : Status)
  /-- `CSTATE <- c`, with `Release()` where `c` is Closed, then `finish(OK)`, in one step (R200, R210; log 2). -/
  | moveTo (c : CState)
  /-- `Abort(st)` (R245). -/
  | abort (st : Status)
deriving DecidableEq, Repr

/-- The in-progress command state (R45). The code of the command is CMD. -/
inductive Progress where
  /-- No command: BUSY = 0. -/
  | idle
  /-- READ waits for a receive symbol; its position is DPHASE and DIDX. -/
  | decoding
  /-- `TxFrame(frame)` with `offered` of its bytes taken; the frames `later` follow, then `last`. -/
  | sending (frame : List Byte) (offered : Nat) (later : List (List Byte)) (last : Ending)
  /-- Every byte is taken; the next step completes the command. -/
  | ending (last : Ending)
deriving DecidableEq, Repr

/-- A buffer: its written cells, addresses strictly rising. An unlisted address is unwritten (R65). -/
abbrev Memory := List Host.Cell

/-- Stops that stand for states no run reaches; `State.Inv` excludes both (log 8). -/
inductive Fault where
  /-- Raised by the block's receive step: READ decodes while DPHASE is IDLE. Safe. -/
  | decoderNotStarted
  /-- Raised by the Pong reply and the Close echo: a payload cell below RXPLEN is unwritten. Safe. -/
  | rxPayloadUnwritten
deriving DecidableEq, Repr

/-- Situations the spec refuses (R18, R242), and the host's malformed write. -/
inductive Refusal where
  /-- Raised by exec for an instruction without a meaning. Safe. -/
  | notModelled (mnemonic : String)
  /-- Raised by the decoder for a payload byte beyond RXBUF_BYTES (R129, I8). Safe. -/
  | rxBufferOverflow
  /-- Raised by SEND_TEXT, SEND_BINARY, SEND_PING and SEND_FRAME for a payload beyond TXBUF_BYTES or with an unwritten
  cell (R167, I9). Safe. -/
  | txPayload
  /-- Raised by a Close with fewer than two payload bytes in Established (R214, I10). Safe. -/
  | shortCloseBody
  /-- Raised by a host access to a buffer address at or beyond the capacity (R66, I12). Safe. -/
  | noSuchBufferAddress
  /-- Raised by a host write to a register or to TXBUF while BUSY = 1 (R280, I13). Safe. -/
  | hostWriteWhileBusy
  /-- Raised by a host write of a value wider than the register, which is no bus action (R112; log 7). Safe. -/
  | valueTooWide
deriving DecidableEq, Repr

/-- The machine's state. -/
structure State where
  /-- CMD (R24). -/
  cmd : BitVec 4
  /-- STATUS (R25). -/
  status : Status
  /-- BUSY (R26). -/
  busy : Bool
  /-- CSTATE (R27). -/
  cstate : CState
  /-- TREL (R28). -/
  trel : Bool
  /-- ANOMALY (R29). -/
  anomaly : Bool
  /-- DPHASE (R36). -/
  dphase : DPhase
  /-- DIDX (R37). -/
  didx : BitVec 4
  /-- RXVALID (R30). -/
  rxvalid : Bool
  /-- RXFIN (R31). -/
  rxfin : Bool
  /-- RXOP (R32). -/
  rxop : BitVec 4
  /-- RXMASK (R33). -/
  rxmask : Bool
  /-- RXLEN7 (R34). -/
  rxlen7 : BitVec 7
  /-- RXPLEN (R35). -/
  rxplen : Word64
  /-- RXKEY[0..3] (R38). -/
  rxkey : Key
  /-- RXCNT (R39). -/
  rxcnt : Word64
  /-- TXFIN (R40). -/
  txfin : Bool
  /-- TXOP (R40). -/
  txop : BitVec 4
  /-- TXMASK (R40). -/
  txmask : Bool
  /-- TXKEY[0..3] (R40). -/
  txkey : Key
  /-- TXLEN (R41). -/
  txlen : Word64
  /-- TXCODE (R42). -/
  txcode : BitVec 16
  /-- TXCNT (R43), counted modulo 2^64 (log 12). -/
  txcnt : Word64
  /-- RXRAW (R61). -/
  rxraw : Memory
  /-- TXBUF (R63). -/
  txbuf : Memory
  /-- The in-progress command (R45). -/
  progress : Progress
  /-- The parameters (R8). -/
  params : Params
  /-- The transport environment (R11). -/
  transport : Transport
  /-- The host's bus actions still to come, first first (R110). -/
  hostQueue : List BusAction
  /-- The values the host's reads returned, oldest first (R112). -/
  hostReads : List Word64
  /-- Which agent moves next; where the list is empty, the block while BUSY = 1 and the host otherwise (R72; log 3). -/
  turns : List Agent
  /-- The model's own count of free values used (R65; log 5). -/
  freeCount : Nat
deriving DecidableEq, Repr

/-- What a step answers. -/
abbrev Result := Host.Outcome State Fault Refusal

/-- The state right after reset (R46, R270): every register 0, CSTATE Established, buffers unwritten, no command in
progress, default parameters. Host and transport hold nothing yet (log 4). -/
def State.reset : State where
  cmd := 0
  status := .ok
  busy := false
  cstate := .established
  trel := false
  anomaly := false
  dphase := .idle
  didx := 0
  rxvalid := false
  rxfin := false
  rxop := 0
  rxmask := false
  rxlen7 := 0
  rxplen := 0
  rxkey := { k0 := 0, k1 := 0, k2 := 0, k3 := 0 }
  rxcnt := 0
  txfin := false
  txop := 0
  txmask := false
  txkey := { k0 := 0, k1 := 0, k2 := 0, k3 := 0 }
  txlen := 0
  txcode := 0
  txcnt := 0
  rxraw := []
  txbuf := []
  progress := .idle
  params := Params.default
  transport := { rx := [], answers := [], sent := [] }
  hostQueue := []
  hostReads := []
  turns := []
  freeCount := 0

end Sys2Proof.Machine
end

