-- ==== Sys2Proof/Machine/Flags.lean ====
section
/-! DEFINITION. The status flags (R47) and their register codes: BUSY, STATUS, TREL, CSTATE. -/

namespace Sys2Proof.Machine

/-- STATUS as the host reads it (R25). -/
def Status.code : Status → BitVec 3
  | .ok => 0
  | .frameFormatError => 1
  | .transportError => 2
  | .protocolAnomaly => 3
  | .illegalCommand => 4

/-- CSTATE as the host reads it (R27). -/
def CState.code : CState → BitVec 2
  | .established => 0
  | .closing => 1
  | .closed => 2

/-- DPHASE as the host reads it (R36). -/
def DPhase.code : DPhase → BitVec 3
  | .idle => 0
  | .hdr0 => 1
  | .hdr1 => 2
  | .extlen => 3
  | .key => 4
  | .payload => 5

/-- `finish(st)`: STATUS <- st, BUSY <- 0; the in-progress command state is empty again (R18, R26, R45). -/
def finish (st : Status) (s : State) : State :=
  { s with status := st, busy := false, progress := .idle }

/-- `Release()`: TREL <- 1 (R16). -/
def release (s : State) : State := { s with trel := true }

/-- `CSTATE <- c`; a move to Closed releases the transport in the same step (R28, R200). -/
def moveTo (c : CState) (s : State) : State :=
  match c with
  | .closed => release { s with cstate := .closed }
  | c => { s with cstate := c }

/-- The anomaly cell (Closed, RXCLOSE) (R206): ANOMALY <- 1, the command ends with PROTOCOL_ANOMALY, nothing else. -/
def recordAnomaly (s : State) : State := finish .protocolAnomaly { s with anomaly := true }

end Sys2Proof.Machine
end

