-- ==== Sys2Proof/Machine/Ops.lean ====
section
/-! DEFINITION. The shared operations: buffer memory (R60 to R66), accepting a command (R96), the abort procedure
(R245), offering transmit bytes (R166), ending a command. -/

namespace Sys2Proof.Machine

/-! ### Buffer memory -/

/-- The byte at address `a`, or nothing where the cell is unwritten (R65). -/
def Memory.read : Memory → Nat → Option Byte
  | [], _ => none
  | (k, b) :: m, a => if k = a then some b else Memory.read m a

/-- Write byte `b` at address `a`; the cell is then written (R63). -/
def Memory.write : Memory → Nat → Byte → Memory
  | [], a, b => [(a, b)]
  | (k, c) :: m, a, b =>
    if a < k then (a, b) :: (k, c) :: m
    else if a = k then (a, b) :: m
    else (k, c) :: Memory.write m a b

/-- The canonical form: addresses strictly rising. (An unlisted address reads as nothing, so no entry can equal it.) -/
def Memory.wf : Memory → Bool
  | [] => true
  | [_] => true
  | (a, _) :: (b, y) :: m => decide (a < b) && Memory.wf ((b, y) :: m)

/-- `MemRead(space, a, n)`: the `n` bytes from `a` on, or nothing where a cell among them is unwritten (R17, R65). -/
def Memory.readRange (m : Memory) : Nat → Nat → Option (List Byte)
  | _, 0 => some []
  | a, n + 1 =>
    match m.read a with
    | none => none
    | some b =>
      match Memory.readRange m (a + 1) n with
      | none => none
      | some bs => some (b :: bs)

/-- Whether address `a` exists in a buffer of the given capacity (R66). -/
def inCapacity (capacity : Option Nat) (a : Nat) : Bool :=
  match capacity with
  | none => true
  | some c => decide (a < c)

/-! ### Command acceptance (R96) -/

/-- The step that accepts command `code`: CMD <- code, BUSY <- 1, TXCNT <- 0; `p` is the command's remaining pseudocode.
A write to CMD while BUSY = 1 is refused (R280). -/
def accept (code : BitVec 4) (p : Progress) (s : State) : Result :=
  if s.busy then .refused .hostWriteWhileBusy
  else .next { s with cmd := code, busy := true, txcnt := 0, progress := p }

/-! ### The abort procedure (R245) -/

/-- `Abort(st)`, the block's only form of taking an exception: CSTATE <- Closed, `Release()`, `finish(st)`. There is no
handler, no saved register and no return from it (R246, R247). -/
def abort (st : Status) (s : State) : State := finish st (moveTo .closed s)

/-! ### Ending a command -/

/-- The step that completes the command in progress (R10). What stands between the last byte and `finish` in the command's
pseudocode is done in this step too: `CSTATE <- 1` of R202 and R205, `CSTATE <- 2` and `Release()` of R203 and R204. The spec
does not say which of R10's steps carries them; DESIGN CHOICE, log 2. -/
def complete (e : Ending) (s : State) : State :=
  match e with
  | .finish st => finish st s
  | .moveTo c => finish .ok (moveTo c s)
  | .abort st => abort st s

/-! ### Transmission (R166, R176) -/

/-- Where `TxFrame` stands once `k` bytes of `frame` are taken: the next byte, the next frame, or the command's end. -/
def advance (frame : List Byte) (k : Nat) (later : List (List Byte)) (last : Ending) : Progress :=
  if k < frame.length then .sending frame k later last
  else
    match later with
    | [] => .ending last
    | f :: fs => .sending f 0 fs last

/-- The step that offers byte `k` of `frame`. OK: the byte is taken and TXCNT counts it (R166). FAIL: it is not taken and
the command aborts with TransportError (R176). No answer yet: the block waits (R285). TXCNT has 64 bits and the spec does not
say what it holds past 2^64 - 1; here it wraps to 0, DESIGN CHOICE, log 12. -/
def offerByte (frame : List Byte) (k : Nat) (later : List (List Byte)) (last : Ending) (s : State) : State :=
  match frame[k]? with
  | none => { s with progress := advance frame k later last }
  | some b =>
    match s.transport.answers with
    | [] => s
    | .ok :: rest =>
      { s with
        transport := { s.transport with answers := rest, sent := s.transport.sent ++ [b] }
        txcnt := s.txcnt + 1
        progress := advance frame (k + 1) later last }
    | .fail :: rest =>
      abort .transportError { s with transport := { s.transport with answers := rest } }

end Sys2Proof.Machine
end

