-- ==== Sys2Proof/Machine/Operands.lean ====
section
/-! DEFINITION. The operand forms: the transmit payload (R167), the unmask view (R140), the received close code (R213), and
the register interface of the host (R22, R23, R44). -/

namespace Sys2Proof.Machine

/-- `P = MemRead(TXBUF, 0, TXLEN)` (R167): nothing where TXLEN exceeds TXBUF_BYTES or a cell is unwritten. -/
def txPayload (s : State) : Option (List Byte) :=
  match s.params.txbufBytes with
  | none => s.txbuf.readRange 0 s.txlen.toNat
  | some c => if s.txlen.toNat ≤ c then s.txbuf.readRange 0 s.txlen.toNat else none

/-- The key byte that masks received payload byte `a`: `RXKEY[a mod 4]` if RXMASK = 1, else 0 (R140). -/
def rxKeyByte (s : State) (a : Nat) : Byte := if s.rxmask then s.rxkey.at a else 0

/-- RXPLAIN[a] (R62, R140), or nothing where RXRAW[a] is unwritten. -/
def plainByte (s : State) (a : Nat) : Option Byte :=
  match s.rxraw.read a with
  | none => none
  | some b => some (b ^^^ rxKeyByte s a)

/-- `MemRead(RXPLAIN, a, n)` (R17, R220). -/
def plainRange (s : State) : Nat → Nat → Option (List Byte)
  | _, 0 => some []
  | a, n + 1 =>
    match plainByte s a with
    | none => none
    | some b =>
      match plainRange s (a + 1) n with
      | none => none
      | some bs => some (b :: bs)

/-- The status code of a received Close frame: `BE16(RXPLAIN[0], RXPLAIN[1])` (R213). -/
def rxCloseCode (s : State) : Option (BitVec 16) :=
  match plainByte s 0, plainByte s 1 with
  | some b0, some b1 => some (be16 b0 b1)
  | _, _ => none

/-- One bit as a register value. -/
def bitReg (b : Bool) : Word64 := if b then 1 else 0

/-- What a host read of register `n` returns (R22, R23), zero-extended; a reserved number reads 0. -/
def readRegister (s : State) (n : BitVec 8) : Word64 :=
  match n.toNat with
  | 0x00 => s.cmd.setWidth 64
  | 0x01 => s.status.code.setWidth 64
  | 0x02 => bitReg s.busy
  | 0x03 => s.cstate.code.setWidth 64
  | 0x04 => bitReg s.trel
  | 0x05 => bitReg s.anomaly
  | 0x06 => s.dphase.code.setWidth 64
  | 0x07 => s.didx.setWidth 64
  | 0x08 => bitReg s.rxvalid
  | 0x09 => bitReg s.rxfin
  | 0x0A => s.rxop.setWidth 64
  | 0x0B => bitReg s.rxmask
  | 0x0C => s.rxlen7.setWidth 64
  | 0x0D => s.rxplen
  | 0x0E => s.rxkey.pack.setWidth 64
  | 0x0F => s.rxcnt
  | 0x10 => bitReg s.txfin
  | 0x11 => s.txop.setWidth 64
  | 0x12 => bitReg s.txmask
  | 0x13 => s.txkey.pack.setWidth 64
  | 0x14 => s.txlen
  | 0x15 => s.txcode.setWidth 64
  | 0x16 => s.txcnt
  | _ => 0

/-- The width of a register the host may write (R23); nothing for RO and reserved numbers. -/
def writableWidth (n : BitVec 8) : Option Nat :=
  match n.toNat with
  | 0x00 => some 4
  | 0x10 => some 1
  | 0x11 => some 4
  | 0x12 => some 1
  | 0x13 => some 32
  | 0x14 => some 64
  | 0x15 => some 16
  | _ => none

/-- Numbers 0x17 to 0xFF name no register (R23). -/
def isReserved (n : BitVec 8) : Bool := decide (0x17 ≤ n.toNat)

/-- A host write of `v` to an operand register (R40 to R42, R44); every other number keeps the state. -/
def writeOperand (s : State) (n : BitVec 8) (v : Word64) : State :=
  match n.toNat with
  | 0x10 => { s with txfin := v.getLsbD 0 }
  | 0x11 => { s with txop := v.setWidth 4 }
  | 0x12 => { s with txmask := v.getLsbD 0 }
  | 0x13 => { s with txkey := Key.unpack (v.setWidth 32) }
  | 0x14 => { s with txlen := v }
  | 0x15 => { s with txcode := v.setWidth 16 }
  | _ => s

end Sys2Proof.Machine
end

