-- ==== Sys2Proof/Machine/Command.lean ====
section
/-! DEFINITION. The meanings of NOP, the unassigned codes, the send commands and CLOSE. Each is the step that accepts the
command; its remaining pseudocode is left in `progress` and run by the block's later steps (R10, R45, R96; log 2). -/

namespace Sys2Proof.Machine

/-- NOP (R97): the next step is `finish(OK)`. -/
def execNop (s : State) : Result := accept 0x0 (.ending (.finish .ok)) s

/-- UNASSIGNED, codes 0x8..0xF (R98): the next step is `finish(ILLEGAL_COMMAND)`. -/
def execUnassigned (c : BitVec 3) (s : State) : Result :=
  accept (0b1#1 ++ c) (.ending (.finish .illegalCommand)) s

/-! ### Send commands (R166 to R177) -/

/-- What a send command has still to do once accepted: `SendCheck()` (R168) raises TransportError in Closed, and otherwise
the frame is transmitted and `finish(OK)` ends the command. -/
def sendProgress (frame : List Byte) (s : State) : Progress :=
  match s.cstate with
  | .closed => .ending (.abort .transportError)
  | _ => .sending frame 0 [] (.finish .ok)

/-- A send command that transmits TXBUF (R166 to R168). The state check comes before the payload (R244): in Closed the
payload is not read. -/
def sendPayload (code : BitVec 4) (frameOf : List Byte → List Byte) (s : State) : Result :=
  match s.cstate, txPayload s with
  | .closed, _ => accept code (sendProgress [] s) s
  | _, some p => accept code (sendProgress (frameOf p) s) s
  | _, none => if s.busy then .refused .hostWriteWhileBusy else .refused .txPayload

/-- SEND_TEXT (R170): fin = 1, Text, unmasked. -/
def execSendText (s : State) : Result := sendPayload 0x2 (serverFrame 0x1) s

/-- SEND_BINARY (R171): fin = 1, Binary, unmasked. -/
def execSendBinary (s : State) : Result := sendPayload 0x3 (serverFrame 0x2) s

/-- SEND_PING (R172): fin = 1, Ping, unmasked. -/
def execSendPing (s : State) : Result := sendPayload 0x4 (serverFrame 0x9) s

/-- SEND_CLOSE (R174): a Close frame with `BE16bytes(TXCODE)`; TXLEN and TXBUF are not read. -/
def execSendClose (s : State) : Result := accept 0x5 (sendProgress (closeFrame s.txcode) s) s

/-- SEND_FRAME (R175): the frame the operand registers give. -/
def execSendFrame (s : State) : Result :=
  sendPayload 0x7 (encodeFrame s.txfin s.txop s.txmask s.txkey) s

/-! ### CLOSE (R200 to R204, R210) -/

/-- The status code of a normal closure (R202). -/
def normalClosure : BitVec 16 := 1000

/-- The cells of event CLOSE_CALL (R200): Close(1000) then Closing; Closed; Closed. CSTATE changes in the command's
completing step (log 2). -/
def closeCall (c : CState) : Progress :=
  match c with
  | .established => .sending (closeFrame normalClosure) 0 [] (.moveTo .closing)
  | .closing => .ending (.moveTo .closed)
  | .closed => .ending (.moveTo .closed)

/-- CLOSE (R210). -/
def execClose (s : State) : Result := accept 0x6 (closeCall s.cstate) s

end Sys2Proof.Machine
end

