-- ==== Sys2Proof/Machine/Receive.lean ====
section
/-! DEFINITION. READ and the decode path (R120 to R142), the reactions to received frames (R211 to R223), and the meanings
of the header rows. -/

namespace Sys2Proof.Machine

/-! ### READ (R120 to R122) -/

/-- `ReadStart()` (R122): the RX registers are cleared, every RXRAW cell is unwritten, the decoder waits for byte 0. -/
def readStart (s : State) : State :=
  { s with
    rxvalid := false, rxfin := false, rxop := 0, rxmask := false, rxlen7 := 0, rxplen := 0
    rxkey := Key.zero, rxcnt := 0, didx := 0, rxraw := [], dphase := .hdr0 }

/-- READ (R120): in Closed it takes no symbol and ends with TransportError (R121); otherwise decoding starts in the step
that accepts it (R122). -/
def execRead (s : State) : Result :=
  match s.cstate with
  | .closed => accept 0x1 (.ending (.abort .transportError)) s
  | _ =>
    match accept 0x1 .decoding s with
    | .next t => .next (readStart t)
    | r => r

/-! ### Reactions to a decoded frame (R211 to R223) -/

/-- No reaction (R221, R222): READ ends with `finish(OK)`. -/
def noReaction (s : State) : Result := .next (finish .ok s)

/-- `PongReply()` (R220): the unmasked payload goes back in an unmasked Pong frame; then `finish(OK)`. -/
def pongReply (s : State) : Result :=
  match plainRange s 0 s.rxplen.toNat with
  | none => .fault .rxPayloadUnwritten
  | some p => .next { s with progress := .sending (serverFrame 0xA p) 0 [] (.finish .ok) }

/-- The frames after the echo of a Close received in Established (R205, R215). -/
def teardownFrames (s : State) : List (List Byte) :=
  if s.params.rxcloseTeardownSendsClose then [closeFrame normalClosure] else []

/-- `RxClose()` (R212), the cells of event RXCLOSE (R205 to R207, R214). After the reply of R205, CSTATE changes in READ's
completing step (log 2). -/
def rxClose (s : State) : Result :=
  match s.cstate with
  | .established =>
    if s.rxplen.toNat < 2 then .refused .shortCloseBody
    else
      match rxCloseCode s with
      | none => .fault .rxPayloadUnwritten
      | some c => .next { s with progress := .sending (closeFrame c) 0 (teardownFrames s) (.moveTo .closing) }
  | .closing => .next (finish .ok (moveTo .closed s))
  | .closed => .next (recordAnomaly s)

/-! ### The opcode rows -/

/-- `Hdr0(b)` (R123), with `b` split into its fields; RSV is discarded (R84). -/
def hdr0 (fin : Bool) (op : BitVec 4) (s : State) : State :=
  { s with rxfin := fin, rxop := op, dphase := .hdr1 }

/-- An opcode row acts twice in a READ: `Hdr0` in the step that takes byte 0 (R123), and its reaction in the step that
takes the frame's last byte, when `Complete()` has set DPHASE to IDLE (R138, R211). -/
def frameRow (fin : Bool) (op : BitVec 4) (reaction : State → Result) (s : State) : Result :=
  match s.dphase with
  | .idle => reaction s
  | _ => .next (hdr0 fin op s)

/-- FRAME_CONTINUATION (R222). -/
def execFrameContinuation (fin : Bool) (_rsv : BitVec 3) (s : State) : Result := frameRow fin 0x0 noReaction s

/-- FRAME_TEXT (R222). -/
def execFrameText (fin : Bool) (_rsv : BitVec 3) (s : State) : Result := frameRow fin 0x1 noReaction s

/-- FRAME_BINARY (R222). -/
def execFrameBinary (fin : Bool) (_rsv : BitVec 3) (s : State) : Result := frameRow fin 0x2 noReaction s

/-- FRAME_CLOSE (R212). -/
def execFrameClose (fin : Bool) (_rsv : BitVec 3) (s : State) : Result := frameRow fin 0x8 rxClose s

/-- FRAME_PING (R220). -/
def execFramePing (fin : Bool) (_rsv : BitVec 3) (s : State) : Result := frameRow fin 0x9 pongReply s

/-- FRAME_PONG (R221). -/
def execFramePong (fin : Bool) (_rsv : BitVec 3) (s : State) : Result := frameRow fin 0xA noReaction s

/-- FRAME_OPAQUE_3 (R86, R222). -/
def execFrameOpaque3 (fin : Bool) (_rsv : BitVec 3) (s : State) : Result := frameRow fin 0x3 noReaction s

/-- FRAME_OPAQUE_4 (R86, R222). -/
def execFrameOpaque4 (fin : Bool) (_rsv : BitVec 3) (s : State) : Result := frameRow fin 0x4 noReaction s

/-- FRAME_OPAQUE_5 (R86, R222). -/
def execFrameOpaque5 (fin : Bool) (_rsv : BitVec 3) (s : State) : Result := frameRow fin 0x5 noReaction s

/-- FRAME_OPAQUE_6 (R86, R222). -/
def execFrameOpaque6 (fin : Bool) (_rsv : BitVec 3) (s : State) : Result := frameRow fin 0x6 noReaction s

/-- FRAME_OPAQUE_7 (R86, R222). -/
def execFrameOpaque7 (fin : Bool) (_rsv : BitVec 3) (s : State) : Result := frameRow fin 0x7 noReaction s

/-- FRAME_OPAQUE_B (R86, R222). -/
def execFrameOpaqueB (fin : Bool) (_rsv : BitVec 3) (s : State) : Result := frameRow fin 0xB noReaction s

/-- FRAME_OPAQUE_C (R86, R222). -/
def execFrameOpaqueC (fin : Bool) (_rsv : BitVec 3) (s : State) : Result := frameRow fin 0xC noReaction s

/-- FRAME_OPAQUE_D (R86, R222). -/
def execFrameOpaqueD (fin : Bool) (_rsv : BitVec 3) (s : State) : Result := frameRow fin 0xD noReaction s

/-- FRAME_OPAQUE_E (R86, R222). -/
def execFrameOpaqueE (fin : Bool) (_rsv : BitVec 3) (s : State) : Result := frameRow fin 0xE noReaction s

/-- FRAME_OPAQUE_F (R86, R222). -/
def execFrameOpaqueF (fin : Bool) (_rsv : BitVec 3) (s : State) : Result := frameRow fin 0xF noReaction s

/-- `React()` (R211): the reaction of the opcode row that RXOP names. -/
def react (s : State) : Result :=
  match s.rxop.toNat with
  | 0x0 => execFrameContinuation s.rxfin 0 s
  | 0x1 => execFrameText s.rxfin 0 s
  | 0x2 => execFrameBinary s.rxfin 0 s
  | 0x3 => execFrameOpaque3 s.rxfin 0 s
  | 0x4 => execFrameOpaque4 s.rxfin 0 s
  | 0x5 => execFrameOpaque5 s.rxfin 0 s
  | 0x6 => execFrameOpaque6 s.rxfin 0 s
  | 0x7 => execFrameOpaque7 s.rxfin 0 s
  | 0x8 => execFrameClose s.rxfin 0 s
  | 0x9 => execFramePing s.rxfin 0 s
  | 0xA => execFramePong s.rxfin 0 s
  | 0xB => execFrameOpaqueB s.rxfin 0 s
  | 0xC => execFrameOpaqueC s.rxfin 0 s
  | 0xD => execFrameOpaqueD s.rxfin 0 s
  | 0xE => execFrameOpaqueE s.rxfin 0 s
  | _ => execFrameOpaqueF s.rxfin 0 s

/-- `Complete()` (R138): DPHASE <- IDLE, RXVALID <- 1, then the reaction, which ends READ or leaves its reply to send. -/
def completeFrame (s : State) : Result := react { s with dphase := .idle, rxvalid := true }

/-! ### The mask rows (R128, R130) -/

/-- `StartPayload()` (R130): an empty payload completes the frame in the same step. -/
def startPayload (s : State) : Result :=
  if s.rxplen = 0 then completeFrame s else .next { s with dphase := .payload }

/-- KEY_PRESENT (R128, R130): the decoder waits for the first key byte. -/
def execKeyPresent (s : State) : Result := .next { s with dphase := .key, didx := 0 }

/-- KEY_ABSENT (R130): no key byte is taken. -/
def execKeyAbsent (s : State) : Result := startPayload s

/-- `AfterLength()` (R130): the mask row that RXMASK names. -/
def afterLength (s : State) : Result := if s.rxmask then execKeyPresent s else execKeyAbsent s

/-! ### The length rows (R124 to R127) -/

/-- The part of `Hdr1(b)` common to the three forms (R124). -/
def hdr1 (mask : Bool) (l : BitVec 7) (s : State) : State := { s with rxmask := mask, rxlen7 := l }

/-- LEN7 (R124, R125): RXPLEN <- zext_64(L), then `AfterLength()` in the same step. -/
def execLen7 (mask : Bool) (l : BitVec 7) (s : State) : Result :=
  afterLength { hdr1 mask l s with rxplen := l.setWidth 64 }

/-- The extended forms' part of `Hdr1(b)` (R124): DPHASE <- EXTLEN, DIDX <- 0. -/
def startExtLen (mask : Bool) (l : BitVec 7) (s : State) : State :=
  { hdr1 mask l s with dphase := .extlen, didx := 0 }

/-- LEN16 (R124, R126). -/
def execLen16 (mask : Bool) (s : State) : Result := .next (startExtLen mask 126 s)

/-- LEN64 (R124, R126). -/
def execLen64 (mask : Bool) (s : State) : Result := .next (startExtLen mask 127 s)

/-! ### The data bytes of a frame -/

/-- `XLEN(L)` (R126). -/
def xlen (l : BitVec 7) : BitVec 4 := if l = 126 then 2 else 8

/-- `ExtLen(b)` (R126, R127). -/
def takeExtLen (b : Byte) (s : State) : Result :=
  let t := { s with rxplen := pushByte s.rxplen b, didx := s.didx + 1 }
  if t.didx = xlen t.rxlen7 then afterLength t else .next t

/-- `Key(b)` (R128). -/
def takeKey (b : Byte) (s : State) : Result :=
  let t := { s with rxkey := s.rxkey.set s.didx b, didx := s.didx + 1 }
  if t.didx = 4 then startPayload t else .next t

/-- `Payload(b)` (R129): the byte is stored as received; a byte beyond RXBUF_BYTES is refused. -/
def takePayload (b : Byte) (s : State) : Result :=
  if inCapacity s.params.rxbufBytes s.rxcnt.toNat then
    let t := { s with rxraw := s.rxraw.write s.rxcnt.toNat b, rxcnt := s.rxcnt + 1 }
    if t.rxcnt = t.rxplen then completeFrame t else .next t
  else .refused .rxBufferOverflow

/-- End of stream (R131): TransportError before byte 0, FrameFormatError inside a frame. -/
def takeEos (s : State) : State :=
  match s.dphase with
  | .hdr0 => abort .transportError s
  | _ => abort .frameFormatError s

end Sys2Proof.Machine
end

