-- ==== Sys2Proof/Machine/Dispatch.lean ====
section
/-! DEFINITION. One arm per instruction: the meaning of each row of the opcode table. -/

namespace Sys2Proof.Machine

def exec (i : Instr) (s : State) : Host.Outcome State Fault Refusal :=
  match i with
  -- host commands (R95)
  | .nop => Sys2Proof.Machine.execNop s
  | .read => Sys2Proof.Machine.execRead s
  | .sendText => Sys2Proof.Machine.execSendText s
  | .sendBinary => Sys2Proof.Machine.execSendBinary s
  | .sendPing => Sys2Proof.Machine.execSendPing s
  | .sendClose => Sys2Proof.Machine.execSendClose s
  | .close => Sys2Proof.Machine.execClose s
  | .sendFrame => Sys2Proof.Machine.execSendFrame s
  | .unassigned c => Sys2Proof.Machine.execUnassigned c s
  -- opcode rows (R85, R86)
  | .frameContinuation fin rsv => Sys2Proof.Machine.execFrameContinuation fin rsv s
  | .frameText fin rsv => Sys2Proof.Machine.execFrameText fin rsv s
  | .frameBinary fin rsv => Sys2Proof.Machine.execFrameBinary fin rsv s
  | .frameClose fin rsv => Sys2Proof.Machine.execFrameClose fin rsv s
  | .framePing fin rsv => Sys2Proof.Machine.execFramePing fin rsv s
  | .framePong fin rsv => Sys2Proof.Machine.execFramePong fin rsv s
  | .frameOpaque3 fin rsv => Sys2Proof.Machine.execFrameOpaque3 fin rsv s
  | .frameOpaque4 fin rsv => Sys2Proof.Machine.execFrameOpaque4 fin rsv s
  | .frameOpaque5 fin rsv => Sys2Proof.Machine.execFrameOpaque5 fin rsv s
  | .frameOpaque6 fin rsv => Sys2Proof.Machine.execFrameOpaque6 fin rsv s
  | .frameOpaque7 fin rsv => Sys2Proof.Machine.execFrameOpaque7 fin rsv s
  | .frameOpaqueB fin rsv => Sys2Proof.Machine.execFrameOpaqueB fin rsv s
  | .frameOpaqueC fin rsv => Sys2Proof.Machine.execFrameOpaqueC fin rsv s
  | .frameOpaqueD fin rsv => Sys2Proof.Machine.execFrameOpaqueD fin rsv s
  | .frameOpaqueE fin rsv => Sys2Proof.Machine.execFrameOpaqueE fin rsv s
  | .frameOpaqueF fin rsv => Sys2Proof.Machine.execFrameOpaqueF fin rsv s
  -- length rows (R88)
  | .len7 mask l => Sys2Proof.Machine.execLen7 mask l s
  | .len16 mask => Sys2Proof.Machine.execLen16 mask s
  | .len64 mask => Sys2Proof.Machine.execLen64 mask s
  -- mask rows (R90)
  | .keyPresent => Sys2Proof.Machine.execKeyPresent s
  | .keyAbsent => Sys2Proof.Machine.execKeyAbsent s

end Sys2Proof.Machine
end

