-- ==== Sys2Proof/Machine/Agents.lean ====
section
/-! DEFINITION. One step of the block and one bus action of the host (R10, R112). -/

namespace Sys2Proof.Machine

/-! ### The block -/

/-- One byte of the stream: bytes 0 and 1 are decoded into instructions, the later bytes are data (R120, R123 to R129). -/
def takeByte (b : Byte) (s : State) : Result :=
  match s.dphase with
  | .idle => .fault .decoderNotStarted
  | .hdr0 => exec (decodeOpcode b) s
  | .hdr1 => exec (decodeLength b) s
  | .extlen => takeExtLen b s
  | .key => takeKey b s
  | .payload => takePayload b s

/-- One iteration of READ's loop (R120, R131, R132). -/
def takeSymbol (sym : RxSym) (s : State) : Result :=
  match sym with
  | .fail => .next (abort .transportError s)
  | .eos => .next (takeEos s)
  | .byte b => takeByte b s

/-- One step of the block (R10). Where it waits for the host, a symbol or an answer, it leaves the state as it is (R285). -/
def blockStep (s : State) : Result :=
  match s.progress with
  | .idle => .next s
  | .decoding =>
    match s.transport.rx with
    | [] => .next s
    | sym :: rest => takeSymbol sym { s with transport := { s.transport with rx := rest } }
  | .sending frame k later last => .next (offerByte frame k later last s)
  | .ending last => .next (complete last s)

/-! ### The host -/

/-- A host read returns `v` (R22, R112). -/
def hostReturn (v : Word64) (s : State) : State := { s with hostReads := s.hostReads ++ [v] }

/-- A host register write (R22, R24, R96, R280). A write to a reserved number has no effect, whatever BUSY is (R23; log 6);
while BUSY = 1 a write to any register is refused (R280); a write to a RO register has no effect (R22). -/
def hostWriteReg (n : BitVec 8) (v : Word64) (s : State) : Result :=
  if isReserved n then .next s
  else if s.busy then .refused .hostWriteWhileBusy
  else
    match writableWidth n with
    | none => .next s
    | some w =>
      if v.toNat < 2 ^ w then
        if n = 0x00 then exec (decodeCommand (v.setWidth 4)) s else .next (writeOperand s n v)
      else .refused .valueTooWide

/-- A host write of one TXBUF byte (R63, R66, R280). -/
def hostWriteBuf (a : Word64) (b : Byte) (s : State) : Result :=
  if s.busy then .refused .hostWriteWhileBusy
  else if inCapacity s.params.txbufBytes a.toNat then .next { s with txbuf := s.txbuf.write a.toNat b }
  else .refused .noSuchBufferAddress

/-- The capacity of a buffer space (R60). -/
def capacityOf (space : BufSpace) (s : State) : Option Nat :=
  match space with
  | .rxraw => s.params.rxbufBytes
  | .rxplain => s.params.rxbufBytes
  | .txbuf => s.params.txbufBytes

/-- The byte a buffer read finds, or nothing where the cell is unwritten (R61, R62, R65). -/
def bufferByte (space : BufSpace) (a : Nat) (s : State) : Option Byte :=
  match space with
  | .rxraw => s.rxraw.read a
  | .rxplain => plainByte s a
  | .txbuf => s.txbuf.read a

/-- A host read of one buffer byte (R61 to R66). An unwritten cell returns a free value (R65, I11; log 5). -/
def hostReadBuf (space : BufSpace) (a : Word64) (s : State) : Result :=
  if inCapacity (capacityOf space s) a.toNat then
    match bufferByte space a.toNat s with
    | some b => .next (hostReturn (b.setWidth 64) s)
    | none =>
      .next (hostReturn ((Config.unwrittenByte s.freeCount).setWidth 64) { s with freeCount := s.freeCount + 1 })
  else .refused .noSuchBufferAddress

/-- The reset event (R270, R271): every register, buffer and the in-progress command as after reset; the block is attached
to the new connection's transport (R276). The parameters and the host stay. -/
def hostReset (t : Transport) (s : State) : State :=
  { State.reset with
    params := s.params, transport := t, hostQueue := s.hostQueue, hostReads := s.hostReads
    turns := s.turns, freeCount := s.freeCount }

/-- One poll of WAIT (R110): the bus action `(R, 0x02)`, a host read of BUSY. Where it reads 1, WAIT stays first in the
queue, so the host polls again in its next step; where it reads 0, WAIT has ended. -/
def hostPoll (s : State) : State :=
  let t := hostReturn (readRegister s 0x02) s
  if s.busy then { t with hostQueue := .wait :: t.hostQueue } else t

/-- One bus action (R112). -/
def busAction (a : BusAction) (s : State) : Result :=
  match a with
  | .writeReg n v => hostWriteReg n v s
  | .readReg n => .next (hostReturn (readRegister s n) s)
  | .writeBuf a b => hostWriteBuf a b s
  | .readBuf space a => hostReadBuf space a s
  | .wait => .next (hostPoll s)
  | .reset t => .next (hostReset t s)

/-- One step of the host: its next bus action, if it has one (R112). -/
def hostStep (s : State) : Result :=
  match s.hostQueue with
  | [] => .next s
  | a :: rest => busAction a { s with hostQueue := rest }

/-- Which agent moves (R72; log 3). -/
def nextAgent (s : State) : Agent :=
  match s.turns with
  | a :: _ => a
  | [] => if s.busy then .block else .host

/-- The state with this turn used. -/
def takeTurn (s : State) : State := { s with turns := s.turns.tail }

/-- One step of the machine: the agent whose turn it is moves (R72). -/
def machineStep (s : State) : Result :=
  match nextAgent s with
  | .host => hostStep (takeTurn s)
  | .block => blockStep (takeTurn s)

/-! ### Host programs (R110, R111) -/

/-- `WB a, b0, ..., bn-1`, one bus action a byte (R110). Buffer addresses have 64 bits (R60, R112). -/
def writeBytes : Nat → List Byte → List BusAction
  | _, [] => []
  | a, b :: bs => .writeBuf (BitVec.ofNat 64 a) b :: writeBytes (a + 1) bs

/-- `<MNEMONIC>`: write the code to CMD, then WAIT (R110). -/
def commandLine (code : BitVec 4) : List BusAction := [.writeReg 0x00 (code.setWidth 64), .wait]

/-- The operands of a send: the payload bytes in TXBUF and their count in TXLEN. -/
def payloadLines (p : List Byte) : List BusAction :=
  writeBytes 0 p ++ [.writeReg 0x14 (BitVec.ofNat 64 p.length)]

/-- `SENDTEXT` (R111). -/
def sendTextLines (p : List Byte) : List BusAction := payloadLines p ++ commandLine 0x2

/-- `SENDBIN` (R111). -/
def sendBinLines (p : List Byte) : List BusAction := payloadLines p ++ commandLine 0x3

/-- `SENDPING` (R111). -/
def sendPingLines (p : List Byte) : List BusAction := payloadLines p ++ commandLine 0x4

/-- `SENDCLOSE` (R111). -/
def sendCloseLines (c : BitVec 16) : List BusAction :=
  .writeReg 0x15 (c.setWidth 64) :: commandLine 0x5

/-- `FRAME` (R111). -/
def frameLines (fin : Bool) (op : BitVec 4) (mask : Bool) (k : BitVec 32) (p : List Byte) : List BusAction :=
  writeBytes 0 p ++
    [.writeReg 0x10 (bitReg fin), .writeReg 0x11 (op.setWidth 64), .writeReg 0x12 (bitReg mask),
     .writeReg 0x13 (k.setWidth 64), .writeReg 0x14 (BitVec.ofNat 64 p.length)] ++ commandLine 0x7

/-! ### Placing an opcode-table word (log 9, log 10) -/

/-- The state in which the host's next action writes `w` to CMD. -/
def withCommandWord (s : State) (w : Nat) : State :=
  { s with
    busy := false, progress := .idle, turns := .host :: s.turns
    hostQueue := .writeReg 0x00 (BitVec.ofNat 64 w) :: s.hostQueue }

/-- The state in which READ is in progress and the stream goes on with the bytes of header word `w`. A word that stands for
its byte-1 row finds byte 0 already taken. -/
def withHeaderWord (s : State) (w : Nat) : State :=
  let r := readStart { s with cmd := 0x1, busy := true, txcnt := 0, progress := .decoding, turns := .block :: s.turns }
  if isByte1Word w then
    { hdr0 (finOf (hdrByte0 w)) (opcodeOf (hdrByte0 w)) r with
      transport := { s.transport with rx := .byte (hdrByte1 w) :: s.transport.rx } }
  else
    { r with transport := { s.transport with rx := .byte (hdrByte0 w) :: .byte (hdrByte1 w) :: s.transport.rx } }

/-- The state whose next step runs the instruction of table word `w`. -/
def withTableWord (s : State) (nbits w : Nat) : State :=
  if nbits ≤ 8 then withCommandWord s w else withHeaderWord s w

end Sys2Proof.Machine
end

