-- ==== Sys2Proof/Machine/Step.lean ====
section
/-! DEFINITION. The step of the machine, and the placing of a table word for the host's probe. -/

namespace Sys2Proof.Machine

/-- One step (R10, R72): `machineStep`. -/
def step (s : State) : Host.Outcome State Fault Refusal := machineStep s

/-- The state whose very next step runs the instruction of an opcode-table word: `withTableWord` (log 10). -/
def State.withFetchWord (s : State) (nbits w : Nat) : State := withTableWord s nbits w

end Sys2Proof.Machine
end

