-- ==== Sys2Proof/Machine/Frame.lean ====
section
/-! DEFINITION. The decoder as a function of the receive symbols: `decodeFrame` (R142), written from the wire format (R80 to
R92) and the receive errors (R131, R132), apart from READ's byte-serial steps. -/

namespace Sys2Proof.Machine

/-- A received frame as the wire carries it (R80, R139); `raw` is the payload as received. -/
structure WireFrame where
  fin : Bool
  op : BitVec 4
  mask : Bool
  len7 : BitVec 7
  plen : Word64
  key : Key
  raw : List Byte
deriving DecidableEq, Repr

/-- What `decodeFrame` yields (R142). -/
inductive Decoded where
  /-- A complete frame and the symbols after it. -/
  | frame (f : WireFrame) (rest : List RxSym)
  /-- The error of R131 or R132. -/
  | error (st : Status)
  /-- The symbols end inside a frame and the stream is still open: READ waits (R285). -/
  | waiting
deriving DecidableEq, Repr

/-- What taking `n` bytes from the stream finds. -/
inductive Taken where
  | bytes (bs : List Byte) (rest : List RxSym)
  | eos
  | fail
  | short
deriving DecidableEq, Repr

/-- The next `n` bytes of the stream, or what stands before they are complete. -/
def takeBytes : List RxSym → Nat → Taken
  | syms, 0 => .bytes [] syms
  | [], _ + 1 => .short
  | .eos :: _, _ + 1 => .eos
  | .fail :: _, _ + 1 => .fail
  | .byte b :: syms, n + 1 =>
    match takeBytes syms n with
    | .bytes bs rest => .bytes (b :: bs) rest
    | t => t

/-- Go on with the bytes taken inside a frame; an end of stream there is a FrameFormatError (R131). -/
def Taken.andThen (t : Taken) (f : List Byte → List RxSym → Decoded) : Decoded :=
  match t with
  | .bytes bs rest => f bs rest
  | .eos => .error .frameFormatError
  | .fail => .error .transportError
  | .short => .waiting

/-- How many extended-length bytes follow byte 1 (R88). -/
def extCount (l : BitVec 7) : Nat := if l = 126 then 2 else if l = 127 then 8 else 0

/-- `payloadLength` (R88). -/
def payloadLength (l : BitVec 7) (ext : List Byte) : Word64 :=
  match ext with
  | [e0, e1] => (be16 e0 e1).setWidth 64
  | [e0, e1, e2, e3, e4, e5, e6, e7] => be64 e0 e1 e2 e3 e4 e5 e6 e7
  | _ => l.setWidth 64

/-- `maskingKey` (R90), all zero where no key is present (R38). -/
def keyOf (ks : List Byte) : Key :=
  match ks with
  | [k0, k1, k2, k3] => { k0 := k0, k1 := k1, k2 := k2, k3 := k3 }
  | _ => Key.zero

/-- The part of a frame after bytes 0 and 1 (R88, R90, R91). -/
def decodeRest (b0 b1 : Byte) (syms : List RxSym) : Decoded :=
  (takeBytes syms (extCount (lenOf b1))).andThen fun ext r =>
    (takeBytes r (if maskOf b1 then 4 else 0)).andThen fun ks r =>
      (takeBytes r (payloadLength (lenOf b1) ext).toNat).andThen fun raw rest =>
        .frame
          { fin := finOf b0, op := opcodeOf b0, mask := maskOf b1, len7 := lenOf b1
            plen := payloadLength (lenOf b1) ext, key := keyOf ks, raw := raw } rest

/-- `decodeFrame` (R142): the frame that the shortest sufficient prefix of the symbols spells (R80 to R92), or the error of
the first EOS or FAIL in it (R131, R132). -/
def decodeFrame (syms : List RxSym) : Decoded :=
  match syms with
  | [] => .waiting
  | .eos :: _ => .error .transportError
  | .fail :: _ => .error .transportError
  | .byte b0 :: syms =>
    (takeBytes syms 1).andThen fun bs r =>
      match bs with
      | [b1] => decodeRest b0 b1 r
      | _ => .waiting

/-- The cells of a payload that starts at address `a`. -/
def cellsFrom : Nat → List Byte → Memory
  | _, [] => []
  | a, b :: bs => (a, b) :: cellsFrom (a + 1) bs

/-- What DIDX holds after a frame: the value its last extended-length or key byte wrote, 0 where it has neither (R37). -/
def didxAfter (mask : Bool) (l : BitVec 7) : BitVec 4 :=
  if mask then 4 else if l = 126 then 2 else if l = 127 then 8 else 0

/-- `s` with frame `f` in the RX registers and RXRAW, `rest` still to be received, and `Complete()` about to react (R138,
R139). -/
def withFrame (s : State) (f : WireFrame) (rest : List RxSym) : State :=
  { s with
    rxfin := f.fin, rxop := f.op, rxmask := f.mask, rxlen7 := f.len7, rxplen := f.plen, rxkey := f.key
    rxcnt := f.plen, rxraw := cellsFrom 0 f.raw, didx := didxAfter f.mask f.len7
    dphase := .idle, rxvalid := true, transport := { s.transport with rx := rest } }

end Sys2Proof.Machine
end

