-- ==== Sys2Proof/Safety.lean ====
section
/-! DEFINITION. What counts as a safe state: the invariant that reset has and every step keeps, put together from the
spec's own statements about the registers. -/

namespace Sys2Proof.Machine

/-- The RX registers in each decoder phase (R36, R37, R122 to R130). -/
def decoderInv (s : State) : Prop :=
  match s.dphase with
  | .idle => s.rxcnt = s.rxplen
  | .hdr0 => s.rxmask = false ∧ s.rxplen = 0 ∧ s.rxcnt = 0
  | .hdr1 => s.rxmask = false ∧ s.rxplen = 0 ∧ s.rxcnt = 0
  | .extlen =>
    (s.rxlen7 = 126 ∨ s.rxlen7 = 127) ∧ s.rxcnt = 0 ∧ s.rxkey = Key.zero ∧
      s.didx.toNat < (xlen s.rxlen7).toNat ∧ s.rxplen.toNat < 2 ^ (8 * s.didx.toNat)
  | .key => s.rxmask = true ∧ s.rxcnt = 0 ∧ s.didx.toNat < 4
  | .payload => s.rxcnt.toNat < s.rxplen.toNat

/-- What a pending ending may be: it never leaves Closed, never re-enters Established, and aborts only what is already
Closed (R208, R121, R168, R210). -/
def endingInv (e : Ending) (s : State) : Prop :=
  match e with
  | .finish st => st = .ok ∨ st = .illegalCommand
  | .moveTo .established => False
  | .moveTo .closing => s.cstate = .established
  | .moveTo .closed => s.cstate ≠ .established
  | .abort st => st = .transportError ∧ s.cstate = .closed

/-- The in-progress command state against BUSY, CSTATE and the decoder (R26, R45, R121, R168). -/
def progressInv (s : State) : Prop :=
  match s.progress with
  | .idle => s.busy = false
  | .decoding => s.busy = true ∧ s.cstate ≠ .closed ∧ s.dphase ≠ .idle
  | .sending frame k later last =>
    s.busy = true ∧ s.cstate ≠ .closed ∧ k < frame.length ∧ (∀ f ∈ later, f ≠ []) ∧ endingInv last s
  | .ending last => s.busy = true ∧ endingInv last s

/-- The invariant of the machine. -/
structure State.Inv (s : State) : Prop where
  /-- TREL = 1 exactly when CSTATE = Closed (R28). -/
  released : s.trel = true ↔ s.cstate = .closed
  /-- The in-progress command (R45). -/
  progress : progressInv s
  /-- The decoder (R36, R37). -/
  decoder : decoderInv s
  /-- RXVALID = 1 only while the decoder is IDLE (R30, R138). -/
  valid : s.rxvalid = true → s.dphase = .idle
  /-- The decoder is left in a phase other than IDLE only by a READ in progress or an error (R36, R241). -/
  cut : s.dphase ≠ .idle → s.progress = .decoding ∨ s.cstate = .closed
  /-- RXKEY is 0 where MASK = 0 (R38). -/
  noKey : s.rxmask = false → s.rxkey = Key.zero
  /-- No anomaly is ever recorded: its cell is unreachable (R206). -/
  noAnomaly : s.anomaly = false ∧ s.status ≠ .protocolAnomaly
  /-- Exactly the cells 0 .. RXCNT-1 of RXRAW are written (R65). -/
  rxCells : ∀ a, (s.rxraw.read a).isSome = true ↔ a < s.rxcnt.toNat
  /-- No more bytes are stored than RXRAW has room for (R66, R129). -/
  rxRoom : ∀ c, s.params.rxbufBytes = some c → s.rxcnt.toNat ≤ c
  /-- Every written cell of TXBUF exists (R66). -/
  txRoom : ∀ a, (s.txbuf.read a).isSome = true → inCapacity s.params.txbufBytes a = true
  /-- The canonical form of both buffers. -/
  rxForm : s.rxraw.wf = true
  /-- The canonical form of both buffers. -/
  txForm : s.txbuf.wf = true

/-! ### Words the statements use -/

/-- `n` steps of the machine, ended by the first stop. -/
def run : Nat → State → Result
  | 0, s => .next s
  | n + 1, s =>
    match step s with
    | .next t => run n t
    | .fault r => .fault r
    | .refused r => .refused r

/-- A safe run of `n` steps ends in no fault. -/
def safeFor (n : Nat) (s : State) : Prop := ∀ r, run n s ≠ .fault r

/-- The transport answers OK to the next `n` offers, then goes on with `rest`. -/
def okThen (n : Nat) (rest : List TxAnswer) : List TxAnswer := List.replicate n .ok ++ rest

/-- The opcode rows with the opcode each fixes (R85, R86). -/
def opcodeRows : List ((Bool → BitVec 3 → Instr) × BitVec 4) :=
  [(.frameContinuation, 0x0), (.frameText, 0x1), (.frameBinary, 0x2), (.frameOpaque3, 0x3), (.frameOpaque4, 0x4),
   (.frameOpaque5, 0x5), (.frameOpaque6, 0x6), (.frameOpaque7, 0x7), (.frameClose, 0x8), (.framePing, 0x9),
   (.framePong, 0xA), (.frameOpaqueB, 0xB), (.frameOpaqueC, 0xC), (.frameOpaqueD, 0xD), (.frameOpaqueE, 0xE),
   (.frameOpaqueF, 0xF)]

/-- The opcode rows that take no reaction: all but Close and Ping (R221, R222). -/
def quietRows : List (Bool → BitVec 3 → Instr) :=
  [.frameContinuation, .frameText, .frameBinary, .frameOpaque3, .frameOpaque4, .frameOpaque5, .frameOpaque6,
   .frameOpaque7, .framePong, .frameOpaqueB, .frameOpaqueC, .frameOpaqueD, .frameOpaqueE, .frameOpaqueF]

/-- The send commands that transmit TXBUF: instruction, code, and the frame made of the payload (R170, R171, R172, R175). -/
def payloadSends : List (Instr × BitVec 4 × (State → List Byte → List Byte)) :=
  [(.sendText, 0x2, fun _ p => encodeFrame true 0x1 false Key.zero p),
   (.sendBinary, 0x3, fun _ p => encodeFrame true 0x2 false Key.zero p),
   (.sendPing, 0x4, fun _ p => encodeFrame true 0x9 false Key.zero p),
   (.sendFrame, 0x7, fun s p => encodeFrame s.txfin s.txop s.txmask s.txkey p)]

/-- Every send command and READ, with its code: the commands that need the transport (R240). -/
def transportCommands : List (Instr × BitVec 4) :=
  [(.read, 0x1), (.sendText, 0x2), (.sendBinary, 0x3), (.sendPing, 0x4), (.sendClose, 0x5), (.sendFrame, 0x7)]

/-- The mask row a READ runs once the length is known (R130). -/
def maskRow (mask : Bool) : Instr := if mask then .keyPresent else .keyAbsent

/-- The opcode row of the frame in the RX registers, RSV being discarded (R84, R211). -/
def rxRow (s : State) : Instr := decodeOpcode (byte0 s.rxfin 0 s.rxop)

/-- `s` when `Complete()` has set DPHASE and RXVALID, before the reaction (R138). -/
def frameDone (s : State) : State := { s with dphase := .idle, rxvalid := true }

/-- `s` when the command in progress has ended with STATUS `st` (R18). -/
def ended (st : Status) (s : State) : State := { s with status := st, busy := false, progress := .idle }

/-- `s` after an abort with STATUS `st` (R245). -/
def aborted (st : Status) (s : State) : State :=
  { s with cstate := .closed, trel := true, status := st, busy := false, progress := .idle }

/-- `s` with `rest` still to be received. -/
def withRx (s : State) (rest : List RxSym) : State := { s with transport := { s.transport with rx := rest } }

/-- `s` after the bytes `bs` were taken by the transport, which goes on with the answers `rest`. TXCNT is counted modulo
2^64 (log 12). -/
def afterSend (s : State) (bs : List Byte) (rest : List TxAnswer) : State :=
  { s with
    txcnt := s.txcnt + BitVec.ofNat 64 bs.length
    transport := { s.transport with answers := rest, sent := s.transport.sent ++ bs } }

/-- `s` with command `code` accepted (R96). -/
def accepted (code : BitVec 4) (s : State) : State := { s with cmd := code, busy := true, txcnt := 0 }

/-- A frame that is sent unmasked (R177): MASK = 0 in byte 1, no key, the payload as it is. -/
def unmasked (frame : List Byte) : Prop :=
  ∃ (fin : Bool) (op : BitVec 4) (p : List Byte), frame = encodeFrame fin op false Key.zero p ∧
    (frame[1]?).map maskOf = some false ∧ frame.drop (frame.length - p.length) = p

/-- How many symbols at the head of the stream are bytes. -/
def leadingBytes : List RxSym → Nat
  | .byte _ :: syms => leadingBytes syms + 1
  | _ => 0

/-- How many bytes the header of the frame has that the symbols begin (R92); 2 where byte 1 is not among them. -/
def headerLength : List RxSym → Nat
  | .byte _ :: .byte b1 :: _ => 2 + extCount (lenOf b1) + if maskOf b1 then 4 else 0
  | _ => 2

/-- How many payload bytes stand at the head of the stream, behind the header: 0 where the stream ends in the header. -/
def leadingPayload (syms : List RxSym) : Nat := leadingBytes syms - headerLength syms

end Sys2Proof.Machine
end

