-- ==== Sys2Proof/Certificates/Slice0/Obligations.lean ====
section
/-! DEFINITION. The statements about the machine, for the provers. A statement about a run of several steps takes a state
with `turns = []`, where the block moves while BUSY = 1 and the host otherwise (log 3). -/

open Sys2Proof Sys2Proof.Machine

/-! ### Reset -/

/-- R46: the reset value of every register, the buffers unwritten, no command in progress. -/
def Obligations.ResetRegisterValues : Prop :=
  let s := State.reset
  s.cmd = 0 ∧ s.status.code = 0 ∧ s.busy = false ∧ s.cstate.code = 0 ∧ s.trel = false ∧ s.anomaly = false ∧
    s.dphase.code = 0 ∧ s.didx = 0 ∧ s.rxvalid = false ∧ s.rxfin = false ∧ s.rxop = 0 ∧ s.rxmask = false ∧
    s.rxlen7 = 0 ∧ s.rxplen = 0 ∧ s.rxkey.pack = 0 ∧ s.rxcnt = 0 ∧ s.txfin = false ∧ s.txop = 0 ∧ s.txmask = false ∧
    s.txkey.pack = 0 ∧ s.txlen = 0 ∧ s.txcode = 0 ∧ s.txcnt = 0 ∧ s.progress = .idle ∧
    (∀ a, s.rxraw.read a = none) ∧ (∀ a, s.txbuf.read a = none)

/-- R270, R271: the reset event, BUSY = 0 or 1, gives every register of the block its reset value, makes every buffer cell
unwritten and empties the in-progress command state. That the parameters stay (R8) and the new connection's transport is
attached (R276) is the model's reading (log 4). -/
def Obligations.ResetEventStartsNewConnection : Prop :=
  ∀ (s : State) (t : Transport) (q : List BusAction), nextAgent s = .host → s.hostQueue = .reset t :: q →
    step s = .next
      { State.reset with
        params := s.params, transport := t, hostQueue := q, hostReads := s.hostReads, turns := s.turns.tail
        freeCount := s.freeCount }

/-! ### Decoding, and the step that runs what is decoded -/

/-- Words written out from the encodings of R81, R82 and R95. -/
def Obligations.SampleWordsDecode : Prop :=
  decode .command 0b00000000 = .ok .nop ∧ decode .command 0b00000001 = .ok .read ∧
    decode .command 0b00000110 = .ok .close ∧ decode .command 0b00001100 = .ok (.unassigned 0b100) ∧
    decode .command 0b00010000 = .error .commandTooWide ∧
    decode .opcode 0b10000001 = .ok (.frameText true 0) ∧ decode .opcode 0b01111111 = .ok (.frameOpaqueF false 7) ∧
    decode .opcode 0b10001001 = .ok (.framePing true 0) ∧ decode .opcode 0b00111000 = .ok (.frameClose false 3) ∧
    decode .length 0b10000101 = .ok (.len7 true 5) ∧ decode .length 0b01111101 = .ok (.len7 false 125) ∧
    decode .length 0b01111110 = .ok (.len16 false) ∧ decode .length 0b11111111 = .ok (.len64 true) ∧
    decode .maskBit 0b10000101 = .ok .keyPresent ∧ decode .maskBit 0b01111111 = .ok .keyAbsent

/-- Decoding the encoding of a well-formed instruction, at the place its bits stand, gives it back. -/
def Obligations.DecodeOfEncode : Prop :=
  ∀ i : Instr, i.wf = true → decode (encode i).1 (encode i).2 = .ok i

/-- What the decoder gives is a well-formed instruction, and encoding it gives back the byte, at every place but the mask
bit's, where bit 7 alone is kept (R81, R82, R95). -/
def Obligations.EncodeOfDecode : Prop :=
  ∀ (slot : Slot) (b : Byte) (i : Instr), decode slot b = .ok i →
    i.wf = true ∧ (encode i).1 = slot ∧ (slot ≠ .maskBit → (encode i).2 = b) ∧
      (slot = .maskBit → maskOf (encode i).2 = maskOf b)

/-- A host write of a command code runs the decoded command (R96). -/
def Obligations.HostCommandWriteRunsDecoded : Prop :=
  ∀ (s : State) (v : Word64) (q : List BusAction) (i : Instr), nextAgent s = .host → s.busy = false →
    s.hostQueue = .writeReg 0x00 v :: q → v.toNat < 16 → decode .command (v.setWidth 8) = .ok i →
    step s = exec i { s with hostQueue := q, turns := s.turns.tail }

/-- Bytes 0 and 1 of a frame run the instructions they decode to (R120, R123, R124). -/
def Obligations.HeaderBytesRunDecoded : Prop :=
  ∀ (s : State) (b : Byte) (rest : List RxSym) (i : Instr), nextAgent s = .block → s.progress = .decoding →
    s.transport.rx = .byte b :: rest →
    (s.dphase = .hdr0 → decode .opcode b = .ok i → step s = exec i { withRx s rest with turns := s.turns.tail }) ∧
      (s.dphase = .hdr1 → decode .length b = .ok i → step s = exec i { withRx s rest with turns := s.turns.tail })

/-- The zero-byte transitions (R127, R130, R138) run the mask row and the opcode row's reaction in the step of the byte
before them: after the inline length, after the last extended-length byte, after the fourth key byte and after the last
payload byte. -/
def Obligations.ZeroByteTransitionsRunRows : Prop :=
  (∀ (s : State) (mask : Bool) (l : BitVec 7),
    exec (.len7 mask l) s = exec (maskRow mask) { s with rxmask := mask, rxlen7 := l, rxplen := l.setWidth 64 }) ∧
  (∀ s : State, s.rxplen = 0 → exec .keyAbsent s = exec (rxRow s) (frameDone s)) ∧
  (∀ (s : State) (b : Byte) (rest : List RxSym), nextAgent s = .block → s.progress = .decoding →
    s.transport.rx = .byte b :: rest →
    (s.dphase = .extlen → s.didx + 1 = xlen s.rxlen7 →
      step s = exec (maskRow s.rxmask)
        { withRx s rest with turns := s.turns.tail, rxplen := pushByte s.rxplen b, didx := s.didx + 1 }) ∧
    (s.dphase = .key → s.didx = 3 →
      step s = exec .keyAbsent
        { withRx s rest with turns := s.turns.tail, rxkey := { s.rxkey with k3 := b }, didx := 4 }) ∧
    (s.dphase = .payload → inCapacity s.params.rxbufBytes s.rxcnt.toNat = true → s.rxcnt + 1 = s.rxplen →
      step s = exec (rxRow s)
        (frameDone
          { withRx s rest with
            turns := s.turns.tail, rxraw := s.rxraw.write s.rxcnt.toNat b, rxcnt := s.rxcnt + 1 })))

/-! ### Commands without transmission -/

/-- R97: NOP ends with STATUS = OK and changes nothing else but what its acceptance changes (R96), in every CSTATE. That it
is accepted in one step and ends in the next is the model's choice (log 2). -/
def Obligations.NopEndsOk : Prop :=
  ∀ s : State, s.busy = false → s.turns = [] →
    ∃ t, exec .nop s = .next t ∧ t = { accepted 0x0 s with progress := .ending (.finish .ok) } ∧
      step t = .next (ended .ok (accepted 0x0 s))

/-- R98: every unassigned code ends with ILLEGAL_COMMAND, keeps its code in CMD and changes nothing else but what its
acceptance changes (R96). That it is accepted in one step and ends in the next is the model's choice (log 2). -/
def Obligations.UnassignedEndsIllegal : Prop :=
  ∀ (c : BitVec 3) (s : State), s.busy = false → s.turns = [] →
    ∃ t, exec (.unassigned c) s = .next t ∧
      t = { accepted (BitVec.ofNat 4 (8 + c.toNat)) s with progress := .ending (.finish .illegalCommand) } ∧
      step t = .next (ended .illegalCommand (accepted (BitVec.ofNat 4 (8 + c.toNat)) s))

/-- R121, R168: in Closed, READ and every send command take no symbol, offer no byte and end with TransportError through the
abort procedure (R245); no RX register, buffer cell or operand changes. That the command is accepted in one step and aborts
in the next is the model's choice (log 2). -/
def Obligations.TransportCommandsFailInClosed : Prop :=
  ∀ (i : Instr) (code : BitVec 4), (i, code) ∈ transportCommands →
    ∀ s : State, s.busy = false → s.turns = [] → s.cstate = .closed →
      ∃ t, exec i s = .next t ∧ t = { accepted code s with progress := .ending (.abort .transportError) } ∧
        step t = .next (aborted .transportError (accepted code s))

/-! ### READ -/

/-- R122: READ outside Closed clears the RX registers and RXRAW and waits for byte 0. -/
def Obligations.ReadStartsDecoding : Prop :=
  ∀ s : State, s.busy = false → s.cstate ≠ .closed →
    ∃ t, exec .read s = .next t ∧
      t = { accepted 0x1 s with
        progress := .decoding, rxvalid := false, rxfin := false, rxop := 0, rxmask := false, rxlen7 := 0, rxplen := 0
        rxkey := { k0 := 0, k1 := 0, k2 := 0, k3 := 0 }, rxcnt := 0, didx := 0, rxraw := [], dphase := .hdr0 } ∧
      ∀ a, t.rxraw.read a = none

/-- R123: an opcode row that meets byte 0 stores FIN and OPCODE, discards RSV and waits for byte 1; no opcode is rejected. -/
def Obligations.OpcodeRowsStoreByteZero : Prop :=
  ∀ (mk : Bool → BitVec 3 → Instr) (op : BitVec 4), (mk, op) ∈ opcodeRows →
    ∀ (fin : Bool) (rsv : BitVec 3) (s : State), s.dphase = .hdr0 →
      decodeOpcode (byte0 fin rsv op) = mk fin rsv ∧
        exec (mk fin rsv) s = .next { s with rxfin := fin, rxop := op, dphase := .hdr1 }

/-- R124, R125: the length rows. LEN7 sets RXPLEN and goes on to the key, the payload or, for an empty unmasked frame, the
reaction; LEN16 and LEN64 wait for the extended length. -/
def Obligations.LengthRowsSetTheLength : Prop :=
  ∀ (mask : Bool) (l : BitVec 7) (s : State),
    let t := { s with rxmask := mask, rxlen7 := l, rxplen := l.setWidth 64 }
    (mask = true → exec (.len7 mask l) s = .next { t with dphase := .key, didx := 0 }) ∧
      (mask = false → l ≠ 0 → exec (.len7 mask l) s = .next { t with dphase := .payload }) ∧
      (mask = false → l = 0 → exec (.len7 mask l) s = exec (rxRow s) (frameDone t)) ∧
      exec (.len16 mask) s = .next { s with rxmask := mask, rxlen7 := 126, dphase := .extlen, didx := 0 } ∧
      exec (.len64 mask) s = .next { s with rxmask := mask, rxlen7 := 127, dphase := .extlen, didx := 0 }

/-- R130: the mask rows. -/
def Obligations.MaskRowsStartKeyOrPayload : Prop :=
  ∀ s : State,
    exec .keyPresent s = .next { s with dphase := .key, didx := 0 } ∧
      (s.rxplen ≠ 0 → exec .keyAbsent s = .next { s with dphase := .payload })

/-- R126, R14: the extended-length bytes of LEN16 and LEN64 are taken big-endian, one a step, and the mask row follows in the
last one's step. -/
def Obligations.ExtendedLengthIsBigEndian : Prop :=
  ∀ (s : State) (rest : List RxSym), s.turns = [] → s.busy = true → s.progress = .decoding → s.dphase = .extlen →
    s.didx = 0 → s.rxplen = 0 →
    (∀ e0 e1 : Byte, s.rxlen7 = 126 → s.transport.rx = [.byte e0, .byte e1] ++ rest →
      run 2 s = exec (maskRow s.rxmask) { withRx s rest with rxplen := (e0 ++ e1).setWidth 64, didx := 2 }) ∧
    (∀ e0 e1 e2 e3 e4 e5 e6 e7 : Byte, s.rxlen7 = 127 →
      s.transport.rx = [e0, e1, e2, e3, e4, e5, e6, e7].map .byte ++ rest →
      run 8 s = exec (maskRow s.rxmask)
        { withRx s rest with rxplen := e0 ++ e1 ++ e2 ++ e3 ++ e4 ++ e5 ++ e6 ++ e7, didx := 8 })

/-- R128: four key bytes go to RXKEY[0..3] in wire order; then the payload starts, or the frame is complete. -/
def Obligations.KeyBytesInWireOrder : Prop :=
  ∀ (s : State) (a b c d : Byte) (rest : List RxSym), s.turns = [] → s.busy = true → s.progress = .decoding →
    s.dphase = .key → s.didx = 0 → s.transport.rx = [a, b, c, d].map .byte ++ rest →
    let t := { withRx s rest with rxkey := { k0 := a, k1 := b, k2 := c, k3 := d }, didx := 4 }
    (s.rxplen ≠ 0 → run 4 s = .next { t with dphase := .payload }) ∧
      (s.rxplen = 0 → run 4 s = exec (rxRow s) (frameDone t))

/-- R129, R61: a payload byte that is not the last is stored at address RXCNT as received, RXCNT counts it, and nothing else
changes, every other cell of RXRAW included. -/
def Obligations.PayloadByteIsStored : Prop :=
  ∀ (s : State) (b : Byte) (rest : List RxSym), nextAgent s = .block → s.progress = .decoding → s.dphase = .payload →
    s.transport.rx = .byte b :: rest → inCapacity s.params.rxbufBytes s.rxcnt.toNat = true → s.rxcnt + 1 ≠ s.rxplen →
    ∃ t, step s = .next t ∧ t.rxcnt = s.rxcnt + 1 ∧ t.rxraw.read s.rxcnt.toNat = some b ∧
      (∀ a, a ≠ s.rxcnt.toNat → t.rxraw.read a = s.rxraw.read a) ∧
      t = { withRx s rest with turns := s.turns.tail, rxcnt := s.rxcnt + 1, rxraw := t.rxraw }

/-- R129, R66: a payload byte that arrives when RXCNT has reached RXBUF_BYTES is refused. -/
def Obligations.PayloadBeyondBufferIsRefused : Prop :=
  ∀ (s : State) (b : Byte) (rest : List RxSym) (c : Nat), nextAgent s = .block → s.progress = .decoding →
    s.dphase = .payload → s.transport.rx = .byte b :: rest → s.params.rxbufBytes = some c → c ≤ s.rxcnt.toNat →
    step s = .refused .rxBufferOverflow

/-- R131, R132, R241, R245: EOS before byte 0 aborts with TransportError, EOS inside a frame with FrameFormatError, FAIL in
any phase with TransportError; each leaves every RX register, DPHASE, DIDX and RXRAW as they were. -/
def Obligations.ReceiveErrorsAbort : Prop :=
  ∀ (s : State) (rest : List RxSym), nextAgent s = .block → s.progress = .decoding →
    let u := { withRx s rest with turns := s.turns.tail }
    (s.transport.rx = .eos :: rest → s.dphase = .hdr0 → step s = .next (aborted .transportError u)) ∧
      (s.transport.rx = .eos :: rest → s.dphase ≠ .hdr0 → step s = .next (aborted .frameFormatError u)) ∧
      (s.transport.rx = .fail :: rest → step s = .next (aborted .transportError u))

/-- R285: the block waits, and changes nothing but its used turn, where no symbol and no answer is ready. -/
def Obligations.BlockWaitsForTheTransport : Prop :=
  ∀ s : State, nextAgent s = .block →
    (s.progress = .decoding → s.transport.rx = [] → step s = .next { s with turns := s.turns.tail }) ∧
      (∀ f k later last, s.progress = .sending f k later last → k < f.length → s.transport.answers = [] →
        step s = .next { s with turns := s.turns.tail })

/-! ### Reactions -/

/-- R211, R221, R222: a complete frame of any opcode but Close and Ping takes no reaction: READ ends with OK. -/
def Obligations.OtherFramesTakeNoReaction : Prop :=
  ∀ mk : Bool → BitVec 3 → Instr, mk ∈ quietRows →
    ∀ (fin : Bool) (rsv : BitVec 3) (s : State), s.dphase = .idle → exec (mk fin rsv) s = .next (ended .ok s)

/-- R220, R211: a complete Ping, whatever its FIN, is answered by one unmasked Pong frame with the identical plaintext
payload; then READ ends with OK. CSTATE and everything else but TXCNT and the transport stay. That READ's end is a step of
its own after the last byte is the model's choice (log 2), and so is what TXCNT holds past 2^64 - 1 (log 12). -/
def Obligations.PingIsAnsweredByPong : Prop :=
  ∀ (fin : Bool) (rsv : BitVec 3) (s : State) (p : List Byte) (rest : List TxAnswer), s.turns = [] → s.busy = true →
    s.dphase = .idle → plainRange s 0 s.rxplen.toNat = some p →
    s.transport.answers = okThen (encodeFrame true 0xA false Key.zero p).length rest →
    ∃ t, exec (.framePing fin rsv) s = .next t ∧
      run ((encodeFrame true 0xA false Key.zero p).length + 1) t =
        .next (ended .ok (afterSend s (encodeFrame true 0xA false Key.zero p) rest))

/-- R205, R212, R213, R215: a Close received in Established is echoed with the peer's code, bit for bit, followed by Close
1000 where the parameter says so; READ ends with OK in Closing and the transport is not released. That READ's end is a step
of its own after the last byte is the model's choice, which also puts the change of CSTATE into that step (log 2); so is
what TXCNT holds past 2^64 - 1 (log 12). -/
def Obligations.CloseInEstablishedIsEchoed : Prop :=
  ∀ (fin : Bool) (rsv : BitVec 3) (s : State) (b0 b1 : Byte) (rest : List TxAnswer), s.turns = [] → s.busy = true →
    s.dphase = .idle → s.cstate = .established → 2 ≤ s.rxplen.toNat → plainByte s 0 = some b0 → plainByte s 1 = some b1 →
    let frames := [0x88#8, 0x02#8, b0, b1] ++
      (if s.params.rxcloseTeardownSendsClose then [0x88#8, 0x02#8, 0x03#8, 0xE8#8] else [])
    s.transport.answers = okThen frames.length rest →
    ∃ t, exec (.frameClose fin rsv) s = .next t ∧
      run (frames.length + 1) t = .next (ended .ok { afterSend s frames rest with cstate := .closing })

/-- R206, R207, R214: a Close received in Closing completes the handshake without a frame; in Closed it is recorded as an
anomaly and nothing else; with fewer than two payload bytes in Established it is refused. -/
def Obligations.CloseElsewhere : Prop :=
  ∀ (fin : Bool) (rsv : BitVec 3) (s : State), s.dphase = .idle →
    (s.cstate = .closing →
      exec (.frameClose fin rsv) s = .next (ended .ok { s with cstate := .closed, trel := true })) ∧
    (s.cstate = .closed → exec (.frameClose fin rsv) s = .next (ended .protocolAnomaly { s with anomaly := true })) ∧
    (s.cstate = .established → s.rxplen.toNat < 2 → exec (.frameClose fin rsv) s = .refused .shortCloseBody)

/-- R177: only SEND_FRAME with TXMASK = 1 sends a masked frame: after any other instruction, and after SEND_FRAME with
TXMASK = 0, every frame left to send carries MASK = 0 and no key. -/
def Obligations.ServerFramesAreUnmasked : Prop :=
  ∀ (i : Instr) (s t : State) (frame : List Byte) (k : Nat) (later : List (List Byte)) (last : Ending),
    i ≠ .sendFrame ∨ s.txmask = false → s.progress = .idle ∨ s.progress = .decoding → exec i s = .next t →
    t.progress = .sending frame k later last → ∀ f ∈ frame :: later, unmasked f

/-! ### Send commands -/

/-- R166, R170, R171, R172, R175: outside Closed, a send command whose payload is readable transmits exactly its encoded
frame, in order; TXCNT counts its bytes and the command ends with OK. CSTATE and everything else stays (R169). That the
command's end is a step of its own after the last byte is the model's choice (log 2), and so is what TXCNT holds past
2^64 - 1 (log 12). -/
def Obligations.SendCommandsTransmitTheirFrame : Prop :=
  ∀ (i : Instr) (code : BitVec 4) (frameOf : State → List Byte → List Byte), (i, code, frameOf) ∈ payloadSends →
    ∀ (s : State) (p : List Byte) (rest : List TxAnswer), s.turns = [] → s.busy = false → s.cstate ≠ .closed →
      txPayload s = some p → s.transport.answers = okThen (frameOf s p).length rest →
      ∃ t, exec i s = .next t ∧
        run ((frameOf s p).length + 1) t = .next (ended .ok (afterSend (accepted code s) (frameOf s p) rest))

/-- R174, R232: SEND_CLOSE transmits 0x88 0x02 and the two bytes of TXCODE, most significant first, for every 16-bit code,
and leaves CSTATE as it was (R169). That the command's end is a step of its own after the last byte is the model's choice
(log 2). -/
def Obligations.SendCloseTransmitsTheCode : Prop :=
  ∀ (s : State) (rest : List TxAnswer), s.turns = [] → s.busy = false → s.cstate ≠ .closed →
    s.transport.answers = okThen 4 rest →
    ∃ t, exec .sendClose s = .next t ∧
      run 5 t = .next (ended .ok (afterSend (accepted 0x5 s)
        [0x88#8, 0x02#8, s.txcode.extractLsb' 8 8, s.txcode.extractLsb' 0 8] rest))

/-- R167: outside Closed, a send command that transmits TXBUF is refused, before any byte is offered, exactly where TXLEN
exceeds TXBUF_BYTES or a cell below TXLEN is unwritten; otherwise its payload is TXBUF[0 .. TXLEN-1]. -/
def Obligations.UnreadablePayloadIsRefused : Prop :=
  ∀ (i : Instr) (code : BitVec 4) (frameOf : State → List Byte → List Byte), (i, code, frameOf) ∈ payloadSends →
    ∀ s : State, s.busy = false → s.cstate ≠ .closed →
      (exec i s = .refused .txPayload ↔
        (∃ c, s.params.txbufBytes = some c ∧ c < s.txlen.toNat) ∨ ∃ a, a < s.txlen.toNat ∧ s.txbuf.read a = none) ∧
      ∀ p, txPayload s = some p → p.length = s.txlen.toNat ∧ ∀ a, a < s.txlen.toNat → p[a]? = s.txbuf.read a

/-- R176: where the transport fails byte `j` of a frame, the `j` bytes before it stay sent and counted, nothing more is
offered, and the command aborts with TransportError. What TXCNT holds past 2^64 - 1 is the model's choice (log 12). -/
def Obligations.WriteFailureAborts : Prop :=
  ∀ (s : State) (frame : List Byte) (later : List (List Byte)) (last : Ending) (j : Nat) (rest : List TxAnswer),
    s.turns = [] → s.busy = true → s.progress = .sending frame 0 later last → j < frame.length →
    s.transport.answers = okThen j (.fail :: rest) →
    run (j + 1) s = .next (aborted .transportError (afterSend s (frame.take j) rest))

/-! ### CLOSE -/

/-- R202, R203, R204, R210: CLOSE from each CSTATE. That the command's end is a step of its own, after its acceptance and
after the last byte, is the model's choice (log 2), and with it the counts of steps and the step in which CSTATE changes. -/
def Obligations.CloseCommandCells : Prop :=
  ∀ (s : State) (rest : List TxAnswer), s.turns = [] → s.busy = false →
    (s.cstate = .established → s.transport.answers = okThen 4 rest →
      ∃ t, exec .close s = .next t ∧
        run 5 t = .next (ended .ok
          { afterSend (accepted 0x6 s) [0x88#8, 0x02#8, 0x03#8, 0xE8#8] rest with cstate := .closing })) ∧
    (s.cstate ≠ .established →
      ∃ t, exec .close s = .next t ∧
        run 1 t = .next (ended .ok { accepted 0x6 s with cstate := .closed, trel := true }))

/-- R230: two CLOSE commands on a connection in Established. The first writes one Close frame and leaves Closing with the
transport open; the second writes nothing and leaves Closed with the transport released. The counts of steps, 6 and 9, are
the model's: acceptance and end are steps of their own, CSTATE changing in the end's (log 2), and each WAIT polls BUSY once,
since the host moves only after the command has ended (log 3). -/
def Obligations.CloseTwiceReleases : Prop :=
  ∀ (s : State) (rest : List TxAnswer), s.turns = [] → s.busy = false → s.progress = .idle → s.cstate = .established →
    s.trel = false → s.hostQueue = commandLine 0x6 ++ commandLine 0x6 → s.transport.answers = okThen 4 rest →
    (∃ t, run 6 s = .next t ∧ t.busy = false ∧ t.status = .ok ∧ t.cstate = .closing ∧ t.trel = false ∧ t.txcnt = 4 ∧
      t.transport.sent = s.transport.sent ++ [0x88#8, 0x02#8, 0x03#8, 0xE8#8]) ∧
    ∃ t, run 9 s = .next t ∧ t.busy = false ∧ t.status = .ok ∧ t.cstate = .closed ∧ t.trel = true ∧ t.txcnt = 0 ∧
      t.transport.sent = s.transport.sent ++ [0x88#8, 0x02#8, 0x03#8, 0xE8#8]

/-! ### Encoder, masker, whole frames -/

/-- R90, R140, R141, R161: the masking function keeps length, is its own inverse, is the identity for the zero key, byte `i`
is `p[i]` XOR entry `i mod 4` of the key's four bytes in wire order, and the unmask view of a masked frame computes the same function of RXRAW. -/
def Obligations.MaskingLaws : Prop :=
  (∀ (k : Key) (p : List Byte),
    (maskBytes k p).length = p.length ∧ maskBytes k (maskBytes k p) = p ∧ maskBytes Key.zero p = p ∧
      ∀ i, (maskBytes k p)[i]? = (p[i]?).map (· ^^^ [k.k0, k.k1, k.k2, k.k3].getD (i % 4) 0)) ∧
  ∀ (s : State) (n : Nat) (raw : List Byte), s.rxmask = true → s.rxraw.readRange 0 n = some raw →
    plainRange s 0 n = some (maskBytes s.rxkey raw)

/-- R160, R163, R94: the encoder's header in each of the three length forms. -/
def Obligations.EncoderHeaderForms : Prop :=
  ∀ (fin mask : Bool) (op : BitVec 4) (k : Key) (p : List Byte),
    let n := p.length
    let b0 : Byte := (BitVec.ofBool fin).setWidth 8 <<< 7 ||| op.setWidth 8
    let m : Byte := (BitVec.ofBool mask).setWidth 8 <<< 7
    let body := if mask then [k.k0, k.k1, k.k2, k.k3] ++ maskBytes k p else p
    (n < 126 → encodeFrame fin op mask k p = [b0, m ||| BitVec.ofNat 8 n] ++ body) ∧
      (126 ≤ n → n < 65536 →
        encodeFrame fin op mask k p = [b0, m ||| 126#8, BitVec.ofNat 8 (n / 256), BitVec.ofNat 8 n] ++ body) ∧
      (65536 ≤ n → n < 2 ^ 64 →
        encodeFrame fin op mask k p =
          [b0, m ||| 127#8, BitVec.ofNat 8 (n / 2 ^ 56), BitVec.ofNat 8 (n / 2 ^ 48), BitVec.ofNat 8 (n / 2 ^ 40),
            BitVec.ofNat 8 (n / 2 ^ 32), BitVec.ofNat 8 (n / 2 ^ 24), BitVec.ofNat 8 (n / 2 ^ 16),
            BitVec.ofNat 8 (n / 2 ^ 8), BitVec.ofNat 8 n] ++ body)

/-- R142, R139: READ's byte-serial steps compute `decodeFrame`. From `ReadStart`, where the symbols spell a frame that RXRAW
has room for, READ takes exactly its symbols and then reacts to exactly that frame. -/
def Obligations.ReadComputesDecodeFrame : Prop :=
  ∀ (s : State) (syms rest : List RxSym) (f : WireFrame), s.turns = [] → s.busy = true → s.progress = .decoding →
    readStart s = s → s.transport.rx = syms → decodeFrame syms = .frame f rest →
    (∀ c, s.params.rxbufBytes = some c → f.raw.length ≤ c) →
    run (syms.length - rest.length) s = exec (rxRow (withFrame s f rest)) (withFrame s f rest)

/-- R142, R131, R132, R133, R135: where the symbols end in an error and RXRAW has room for the payload bytes before it, READ
takes every byte before the error and the error symbol, never one after it, and aborts with the STATUS `decodeFrame` gives;
RXVALID stays 0 and RXCNT counts the payload bytes taken. A declared length beyond the capacity plays no part. -/
def Obligations.ReadErrorsFollowDecodeFrame : Prop :=
  ∀ (s : State) (syms : List RxSym) (st : Status), s.turns = [] → s.busy = true → s.progress = .decoding →
    readStart s = s → s.transport.rx = syms → decodeFrame syms = .error st →
    (∀ c, s.params.rxbufBytes = some c → leadingPayload syms ≤ c) →
    ∃ t, run (leadingBytes syms + 1) s = .next t ∧ t.status = st ∧ t.cstate = .closed ∧ t.trel = true ∧
      t.busy = false ∧ t.rxvalid = false ∧ t.dphase ≠ .idle ∧ t.rxcnt.toNat = leadingPayload syms ∧
      t.transport = { s.transport with rx := syms.drop (leadingBytes syms + 1) }

/-- R162: every encoded frame read back by READ: it consumes exactly the frame's bytes and holds FIN, OPCODE, MASK, the
payload length, the key (0 where MASK = 0) and the plaintext payload, for every payload that RXRAW has room for. -/
def Obligations.EncodedFrameReadsBack : Prop :=
  ∀ (s : State) (fin mask : Bool) (op : BitVec 4) (k : Key) (p : List Byte) (rest : List RxSym), s.turns = [] →
    s.busy = true → s.progress = .decoding → readStart s = s → p.length < 2 ^ 64 →
    (∀ c, s.params.rxbufBytes = some c → p.length ≤ c) →
    s.transport.rx = (encodeFrame fin op mask k p).map .byte ++ rest →
    ∃ t, run (encodeFrame fin op mask k p).length s = exec (rxRow t) t ∧ t.dphase = .idle ∧ t.rxvalid = true ∧
      t.rxfin = fin ∧ t.rxop = op ∧ t.rxmask = mask ∧ t.rxplen = BitVec.ofNat 64 p.length ∧ t.rxcnt = t.rxplen ∧
      t.rxkey = (if mask then k else Key.zero) ∧ plainRange t 0 p.length = some p ∧ t.transport = { s.transport with rx := rest }

/-! ### The host interface -/

/-- R280: while BUSY = 1 a host write to any register and to any TXBUF cell is refused; host reads are answered. Refusing
the write to a RO register and giving the write to a reserved number no effect is the model's reading (log 6, against R22 and
R23); answering the read of an unwritten cell is its choice (log 5, R65). -/
def Obligations.BusyRefusesHostWrites : Prop :=
  ∀ (s : State) (q : List BusAction), nextAgent s = .host → s.busy = true →
    (∀ (n : BitVec 8) (v : Word64), n.toNat ≤ 0x16 → s.hostQueue = .writeReg n v :: q →
      step s = .refused .hostWriteWhileBusy) ∧
    (∀ (n : BitVec 8) (v : Word64), 0x17 ≤ n.toNat → s.hostQueue = .writeReg n v :: q →
      step s = .next { s with hostQueue := q, turns := s.turns.tail }) ∧
    (∀ (a : Word64) (b : Byte), s.hostQueue = .writeBuf a b :: q → step s = .refused .hostWriteWhileBusy) ∧
    (∀ n : BitVec 8, s.hostQueue = .readReg n :: q →
      ∃ t, step s = .next t ∧ t.hostReads = s.hostReads ++ [readRegister s n]) ∧
    ∀ (space : BufSpace) (a : Word64), s.hostQueue = .readBuf space a :: q →
      inCapacity (capacityOf space s) a.toNat = true → ∃ t v, step s = .next t ∧ t.hostReads = s.hostReads ++ [v]

/-- R22, R40, R41, R42, R44: a host write of a value of the register's width to an operand register is read back whole, and
no other register, buffer cell or agent changes. -/
def Obligations.OperandWritesReadBack : Prop :=
  ∀ (s : State) (n : BitVec 8) (v : Word64) (w : Nat) (q : List BusAction), nextAgent s = .host → s.busy = false →
    s.hostQueue = .writeReg n v :: q → n ≠ 0 → writableWidth n = some w → v.toNat < 2 ^ w →
    ∃ t, step s = .next t ∧ readRegister t n = v ∧ (∀ m, m ≠ n → readRegister t m = readRegister s m) ∧
      t = { s with
        hostQueue := q, turns := s.turns.tail, txfin := t.txfin, txop := t.txop, txmask := t.txmask, txkey := t.txkey
        txlen := t.txlen, txcode := t.txcode }

/-- R22, R23: a host write to a RO register has no effect; a reserved number reads 0 and a write to it has no effect. -/
def Obligations.ReadOnlyAndReservedWritesHaveNoEffect : Prop :=
  ∀ (s : State) (n : BitVec 8) (v : Word64) (q : List BusAction), nextAgent s = .host → s.busy = false →
    s.hostQueue = .writeReg n v :: q → writableWidth n = none →
    step s = .next { s with hostQueue := q, turns := s.turns.tail } ∧ (0x17 ≤ n.toNat → readRegister s n = 0)

/-- R69, R62, R61, R140: a host read of a register or a written buffer cell returns its value and changes nothing in the
block; RXPLAIN returns RXRAW XOR entry `a mod 4` of RXKEY where RXMASK = 1. -/
def Obligations.HostReadsHaveNoSideEffect : Prop :=
  ∀ (s : State) (q : List BusAction), nextAgent s = .host →
    (∀ n, s.hostQueue = .readReg n :: q →
      step s = .next { s with
        hostQueue := q, turns := s.turns.tail, hostReads := s.hostReads ++ [readRegister s n] }) ∧
    (∀ (a : Word64) (b : Byte), s.rxraw.read a.toNat = some b → inCapacity s.params.rxbufBytes a.toNat = true →
      (s.hostQueue = .readBuf .rxraw a :: q →
        step s = .next { s with hostQueue := q, turns := s.turns.tail, hostReads := s.hostReads ++ [b.setWidth 64] }) ∧
      (s.hostQueue = .readBuf .rxplain a :: q →
        step s = .next { s with
          hostQueue := q, turns := s.turns.tail
          hostReads := s.hostReads ++
            [(b ^^^ (if s.rxmask then
              [s.rxkey.k0, s.rxkey.k1, s.rxkey.k2, s.rxkey.k3].getD (a.toNat % 4) 0 else 0)).setWidth 64] })) ∧
    (∀ (a : Word64) (b : Byte), s.txbuf.read a.toNat = some b → inCapacity s.params.txbufBytes a.toNat = true →
      s.hostQueue = .readBuf .txbuf a :: q →
        step s = .next { s with hostQueue := q, turns := s.turns.tail, hostReads := s.hostReads ++ [b.setWidth 64] })

/-- R65, I11: a host read of an unwritten cell returns some byte and changes nothing of the block; the byte is a free value
(log 5), so nothing is said of it. -/
def Obligations.UnwrittenCellReadsSomeByte : Prop :=
  ∀ (s : State) (space : BufSpace) (a : Word64) (q : List BusAction), nextAgent s = .host →
    s.hostQueue = .readBuf space a :: q → inCapacity (capacityOf space s) a.toNat = true →
    bufferByte space a.toNat s = none →
    ∃ b : Byte, step s = .next
      { s with
        hostQueue := q, turns := s.turns.tail, hostReads := s.hostReads ++ [b.setWidth 64]
        freeCount := s.freeCount + 1 }

/-- R63, R66: a host write of a TXBUF byte writes that cell and no other, keeps the canonical form, and changes nothing else;
an address at or beyond TXBUF_BYTES is refused. -/
def Obligations.TxbufWriteWritesOneCell : Prop :=
  ∀ (s : State) (a : Word64) (b : Byte) (q : List BusAction), nextAgent s = .host → s.busy = false →
    s.hostQueue = .writeBuf a b :: q →
    (inCapacity s.params.txbufBytes a.toNat = true →
      ∃ t, step s = .next t ∧ t.txbuf.read a.toNat = some b ∧ (∀ x, x ≠ a.toNat → t.txbuf.read x = s.txbuf.read x) ∧
        (s.txbuf.wf = true → t.txbuf.wf = true) ∧
        t = { s with hostQueue := q, turns := s.turns.tail, txbuf := t.txbuf }) ∧
    (inCapacity s.params.txbufBytes a.toNat = false → step s = .refused .noSuchBufferAddress)

/-- R111: the expansion of SENDTEXT, run from a state with no command in progress, writes the text to TXBUF and TXLEN and
sends it as one Text frame. -/
def Obligations.SendTextLinesSendTheText : Prop :=
  ∀ (s : State) (p : List Byte) (rest : List TxAnswer), s.turns = [] → s.busy = false → s.progress = .idle →
    s.cstate ≠ .closed → p.length < 2 ^ 64 → (∀ c, s.params.txbufBytes = some c → p.length ≤ c) →
    s.hostQueue = sendTextLines p →
    s.transport.answers = okThen (encodeFrame true 0x1 false Key.zero p).length rest →
    ∃ t n, run n s = .next t ∧ t.hostQueue = [] ∧ t.busy = false ∧ t.status = .ok ∧ t.cstate = s.cstate ∧
      t.transport.sent = s.transport.sent ++ encodeFrame true 0x1 false Key.zero p ∧ t.transport.answers = rest ∧
      ∀ a, t.txbuf.read a = if a < p.length then p[a]? else s.txbuf.read a

/-! ### Whole-machine rules -/

/-- The invariant holds after reset. -/
def Obligations.InvariantAtReset : Prop := State.reset.Inv

/-- Every step keeps the invariant. -/
def Obligations.StepKeepsInvariant : Prop :=
  ∀ s t : State, s.Inv → step s = .next t → t.Inv

/-- Under the invariant no step faults: both faults stand for states no run reaches (log 8). -/
def Obligations.InvariantExcludesFaults : Prop :=
  ∀ (n : Nat) (s : State), s.Inv → safeFor n s

/-- R208, R27: no step but the reset event leaves Closed, and CSTATE never takes the value 3. -/
def Obligations.ClosedIsTerminal : Prop :=
  (∀ s : State, s.cstate.code ≠ 3) ∧
  ∀ s t : State, s.Inv → s.cstate = .closed → step s = .next t →
    (∀ u q, nextAgent s = .host → s.hostQueue ≠ .reset u :: q) → t.cstate = .closed ∧ t.trel = true

/-- R277: once CSTATE is Closed the block takes no symbol and offers no byte, whatever the host commands, until reset. -/
def Obligations.ClosedLeavesTheTransportAlone : Prop :=
  ∀ s t : State, s.Inv → s.cstate = .closed → step s = .next t →
    (∀ u q, nextAgent s = .host → s.hostQueue ≠ .reset u :: q) → t.transport = s.transport

/-- R40, R41, R42, R63: the block never writes an operand register or TXBUF; nor the host's side, the parameters or the
model's free-value count. -/
def Obligations.BlockNeverWritesOperands : Prop :=
  ∀ s t : State, nextAgent s = .block → step s = .next t →
    t.txfin = s.txfin ∧ t.txop = s.txop ∧ t.txmask = s.txmask ∧ t.txkey = s.txkey ∧ t.txlen = s.txlen ∧
      t.txcode = s.txcode ∧ t.txbuf = s.txbuf ∧ t.cmd = s.cmd ∧ t.hostQueue = s.hostQueue ∧
      t.hostReads = s.hostReads ∧ t.params = s.params ∧ t.freeCount = s.freeCount

/-- R281: no send command and no reply changes an RX register or RXRAW. -/
def Obligations.SendsKeepTheReceivedFrame : Prop :=
  (∀ (i : Instr) (s t : State), i ∈ [Instr.sendText, .sendBinary, .sendPing, .sendClose, .sendFrame] →
    exec i s = .next t →
    t = { s with cmd := t.cmd, busy := t.busy, txcnt := t.txcnt, progress := t.progress }) ∧
  ∀ s t : State, nextAgent s = .block → s.progress ≠ .decoding → step s = .next t →
    t.rxvalid = s.rxvalid ∧ t.rxfin = s.rxfin ∧ t.rxop = s.rxop ∧ t.rxmask = s.rxmask ∧ t.rxlen7 = s.rxlen7 ∧
      t.rxplen = s.rxplen ∧ t.rxkey = s.rxkey ∧ t.rxcnt = s.rxcnt ∧ t.dphase = s.dphase ∧ t.didx = s.didx ∧
      t.rxraw = s.rxraw

/-- R72, R280: while BUSY = 1 no step of the host changes a register or buffer of the block, unless it is the reset event. -/
def Obligations.BusyBlockIsUndisturbed : Prop :=
  ∀ s t : State, nextAgent s = .host → s.busy = true → step s = .next t → (∀ u q, s.hostQueue ≠ .reset u :: q) →
    t = { s with
      hostQueue := t.hostQueue, hostReads := t.hostReads, turns := t.turns, freeCount := t.freeCount }

/-! ### The register map, and host lines -/

/-- R22, R23, R25, R27, R36, R44: what a host read returns at every number of the register map, by the register it names,
zero-extended; the codes of STATUS, CSTATE and DPHASE; the packing of the keys; 0 at every reserved number. -/
def Obligations.RegistersReadAtTheirNumbers : Prop :=
  ∀ s : State,
    (readRegister s 0x00).toNat = s.cmd.toNat ∧
    (readRegister s 0x01 =
      match s.status with
      | .ok => 0
      | .frameFormatError => 1
      | .transportError => 2
      | .protocolAnomaly => 3
      | .illegalCommand => 4) ∧
    (readRegister s 0x02 = if s.busy then 1 else 0) ∧
    (readRegister s 0x03 =
      match s.cstate with
      | .established => 0
      | .closing => 1
      | .closed => 2) ∧
    (readRegister s 0x04 = if s.trel then 1 else 0) ∧
    (readRegister s 0x05 = if s.anomaly then 1 else 0) ∧
    (readRegister s 0x06 =
      match s.dphase with
      | .idle => 0
      | .hdr0 => 1
      | .hdr1 => 2
      | .extlen => 3
      | .key => 4
      | .payload => 5) ∧
    (readRegister s 0x07).toNat = s.didx.toNat ∧
    (readRegister s 0x08 = if s.rxvalid then 1 else 0) ∧
    (readRegister s 0x09 = if s.rxfin then 1 else 0) ∧
    (readRegister s 0x0A).toNat = s.rxop.toNat ∧
    (readRegister s 0x0B = if s.rxmask then 1 else 0) ∧
    (readRegister s 0x0C).toNat = s.rxlen7.toNat ∧
    readRegister s 0x0D = s.rxplen ∧
    (readRegister s 0x0E).toNat =
      s.rxkey.k0.toNat * 2 ^ 24 + s.rxkey.k1.toNat * 2 ^ 16 + s.rxkey.k2.toNat * 2 ^ 8 + s.rxkey.k3.toNat ∧
    readRegister s 0x0F = s.rxcnt ∧
    (readRegister s 0x10 = if s.txfin then 1 else 0) ∧
    (readRegister s 0x11).toNat = s.txop.toNat ∧
    (readRegister s 0x12 = if s.txmask then 1 else 0) ∧
    (readRegister s 0x13).toNat =
      s.txkey.k0.toNat * 2 ^ 24 + s.txkey.k1.toNat * 2 ^ 16 + s.txkey.k2.toNat * 2 ^ 8 + s.txkey.k3.toNat ∧
    readRegister s 0x14 = s.txlen ∧
    (readRegister s 0x15).toNat = s.txcode.toNat ∧
    readRegister s 0x16 = s.txcnt ∧
    ∀ n : BitVec 8, 0x17 ≤ n.toNat → readRegister s n = 0

/-- R66, I12: a host read of a buffer address at or beyond the capacity of its space is refused, in RXRAW, in its view
RXPLAIN and in TXBUF. -/
def Obligations.BufferReadsBeyondCapacityAreRefused : Prop :=
  ∀ (s : State) (a : Word64) (q : List BusAction) (c : Nat), nextAgent s = .host → c ≤ a.toNat →
    (s.params.rxbufBytes = some c → s.hostQueue = .readBuf .rxraw a :: q → step s = .refused .noSuchBufferAddress) ∧
    (s.params.rxbufBytes = some c → s.hostQueue = .readBuf .rxplain a :: q → step s = .refused .noSuchBufferAddress) ∧
    (s.params.txbufBytes = some c → s.hostQueue = .readBuf .txbuf a :: q → step s = .refused .noSuchBufferAddress)

/-- R110: WAIT reads BUSY, one bus action `(R, 0x02)` a step, until it reads 0: each poll is recorded like every host read,
stays first in the queue where it reads 1, is done where it reads 0, and changes nothing of the block. -/
def Obligations.WaitPollsBusy : Prop :=
  ∀ (s : State) (q : List BusAction), nextAgent s = .host → s.hostQueue = .wait :: q →
    (s.busy = true → step s = .next { s with turns := s.turns.tail, hostReads := s.hostReads ++ [1] }) ∧
    (s.busy = false →
      step s = .next { s with hostQueue := q, turns := s.turns.tail, hostReads := s.hostReads ++ [0] })

/-- R111: the expansions of SENDBIN and SENDPING, run from a state with no command in progress, write the bytes to TXBUF and
their count to TXLEN and send them as one Binary or Ping frame. -/
def Obligations.BinaryAndPingLinesSendThePayload : Prop :=
  ∀ (lines : List Byte → List BusAction) (op : BitVec 4), (lines, op) ∈ [(sendBinLines, 0x2#4), (sendPingLines, 0x9#4)] →
    ∀ (s : State) (p : List Byte) (rest : List TxAnswer), s.turns = [] → s.busy = false → s.progress = .idle →
      s.cstate ≠ .closed → p.length < 2 ^ 64 → (∀ c, s.params.txbufBytes = some c → p.length ≤ c) →
      s.hostQueue = lines p → s.transport.answers = okThen (encodeFrame true op false Key.zero p).length rest →
      ∃ t n, run n s = .next t ∧ t.hostQueue = [] ∧ t.busy = false ∧ t.status = .ok ∧ t.cstate = s.cstate ∧
        t.txlen.toNat = p.length ∧ t.transport.sent = s.transport.sent ++ encodeFrame true op false Key.zero p ∧
        t.transport.answers = rest ∧ ∀ a, t.txbuf.read a = if a < p.length then p[a]? else s.txbuf.read a

/-- R111: the expansion of SENDCLOSE, run from a state with no command in progress, writes the code to TXCODE and sends one
Close frame with it, most significant byte first. -/
def Obligations.SendCloseLinesSendTheCode : Prop :=
  ∀ (s : State) (c : BitVec 16) (rest : List TxAnswer), s.turns = [] → s.busy = false → s.progress = .idle →
    s.cstate ≠ .closed → s.hostQueue = sendCloseLines c → s.transport.answers = okThen 4 rest →
    ∃ t n, run n s = .next t ∧ t.hostQueue = [] ∧ t.busy = false ∧ t.status = .ok ∧ t.cstate = s.cstate ∧
      t.txcode = c ∧ t.txbuf = s.txbuf ∧ t.transport.answers = rest ∧
      t.transport.sent = s.transport.sent ++ [0x88#8, 0x02#8, c.extractLsb' 8 8, c.extractLsb' 0 8]

/-- R111, R44: the expansion of FRAME, run from a state with no command in progress, writes the bytes to TXBUF and the five
operands, and sends exactly the frame they describe, bits 31..24 of the key value being the first key byte on the wire. -/
def Obligations.FrameLinesSendTheFrame : Prop :=
  ∀ (s : State) (fin : Bool) (op : BitVec 4) (mask : Bool) (v : BitVec 32) (p : List Byte) (rest : List TxAnswer),
    s.turns = [] → s.busy = false → s.progress = .idle → s.cstate ≠ .closed → p.length < 2 ^ 64 →
    (∀ c, s.params.txbufBytes = some c → p.length ≤ c) → s.hostQueue = frameLines fin op mask v p →
    let k : Key :=
      { k0 := v.extractLsb' 24 8, k1 := v.extractLsb' 16 8, k2 := v.extractLsb' 8 8, k3 := v.extractLsb' 0 8 }
    s.transport.answers = okThen (encodeFrame fin op mask k p).length rest →
    ∃ t n, run n s = .next t ∧ t.hostQueue = [] ∧ t.busy = false ∧ t.status = .ok ∧ t.cstate = s.cstate ∧
      t.txfin = fin ∧ t.txop = op ∧ t.txmask = mask ∧ t.txkey = k ∧ t.txlen.toNat = p.length ∧
      t.transport.sent = s.transport.sent ++ encodeFrame fin op mask k p ∧ t.transport.answers = rest ∧
      ∀ a, t.txbuf.read a = if a < p.length then p[a]? else s.txbuf.read a
end

