-- ==== Sys2Proof/Laws/State.lean ====
section
/-! SUPPORT. One lemma per field per named update of the state, so that no later proof unfolds a record update. -/

namespace Sys2Proof.Machine

/-! ### `finish` -/

@[simp] theorem finish_cmd (st : Status) (s : State) : (finish st s).cmd = s.cmd := rfl
@[simp] theorem finish_status (st : Status) (s : State) : (finish st s).status = st := rfl
@[simp] theorem finish_busy (st : Status) (s : State) : (finish st s).busy = false := rfl
@[simp] theorem finish_cstate (st : Status) (s : State) : (finish st s).cstate = s.cstate := rfl
@[simp] theorem finish_trel (st : Status) (s : State) : (finish st s).trel = s.trel := rfl
@[simp] theorem finish_anomaly (st : Status) (s : State) : (finish st s).anomaly = s.anomaly := rfl
@[simp] theorem finish_dphase (st : Status) (s : State) : (finish st s).dphase = s.dphase := rfl
@[simp] theorem finish_didx (st : Status) (s : State) : (finish st s).didx = s.didx := rfl
@[simp] theorem finish_rxvalid (st : Status) (s : State) : (finish st s).rxvalid = s.rxvalid := rfl
@[simp] theorem finish_rxfin (st : Status) (s : State) : (finish st s).rxfin = s.rxfin := rfl
@[simp] theorem finish_rxop (st : Status) (s : State) : (finish st s).rxop = s.rxop := rfl
@[simp] theorem finish_rxmask (st : Status) (s : State) : (finish st s).rxmask = s.rxmask := rfl
@[simp] theorem finish_rxlen7 (st : Status) (s : State) : (finish st s).rxlen7 = s.rxlen7 := rfl
@[simp] theorem finish_rxplen (st : Status) (s : State) : (finish st s).rxplen = s.rxplen := rfl
@[simp] theorem finish_rxkey (st : Status) (s : State) : (finish st s).rxkey = s.rxkey := rfl
@[simp] theorem finish_rxcnt (st : Status) (s : State) : (finish st s).rxcnt = s.rxcnt := rfl
@[simp] theorem finish_txfin (st : Status) (s : State) : (finish st s).txfin = s.txfin := rfl
@[simp] theorem finish_txop (st : Status) (s : State) : (finish st s).txop = s.txop := rfl
@[simp] theorem finish_txmask (st : Status) (s : State) : (finish st s).txmask = s.txmask := rfl
@[simp] theorem finish_txkey (st : Status) (s : State) : (finish st s).txkey = s.txkey := rfl
@[simp] theorem finish_txlen (st : Status) (s : State) : (finish st s).txlen = s.txlen := rfl
@[simp] theorem finish_txcode (st : Status) (s : State) : (finish st s).txcode = s.txcode := rfl
@[simp] theorem finish_txcnt (st : Status) (s : State) : (finish st s).txcnt = s.txcnt := rfl
@[simp] theorem finish_rxraw (st : Status) (s : State) : (finish st s).rxraw = s.rxraw := rfl
@[simp] theorem finish_txbuf (st : Status) (s : State) : (finish st s).txbuf = s.txbuf := rfl
@[simp] theorem finish_progress (st : Status) (s : State) : (finish st s).progress = .idle := rfl
@[simp] theorem finish_params (st : Status) (s : State) : (finish st s).params = s.params := rfl
@[simp] theorem finish_transport (st : Status) (s : State) : (finish st s).transport = s.transport := rfl
@[simp] theorem finish_hostQueue (st : Status) (s : State) : (finish st s).hostQueue = s.hostQueue := rfl
@[simp] theorem finish_hostReads (st : Status) (s : State) : (finish st s).hostReads = s.hostReads := rfl
@[simp] theorem finish_turns (st : Status) (s : State) : (finish st s).turns = s.turns := rfl
@[simp] theorem finish_freeCount (st : Status) (s : State) : (finish st s).freeCount = s.freeCount := rfl

/-! ### `release` -/

@[simp] theorem release_cmd (s : State) : (release s).cmd = s.cmd := rfl
@[simp] theorem release_status (s : State) : (release s).status = s.status := rfl
@[simp] theorem release_busy (s : State) : (release s).busy = s.busy := rfl
@[simp] theorem release_cstate (s : State) : (release s).cstate = s.cstate := rfl
@[simp] theorem release_trel (s : State) : (release s).trel = true := rfl
@[simp] theorem release_anomaly (s : State) : (release s).anomaly = s.anomaly := rfl
@[simp] theorem release_dphase (s : State) : (release s).dphase = s.dphase := rfl
@[simp] theorem release_didx (s : State) : (release s).didx = s.didx := rfl
@[simp] theorem release_rxvalid (s : State) : (release s).rxvalid = s.rxvalid := rfl
@[simp] theorem release_rxfin (s : State) : (release s).rxfin = s.rxfin := rfl
@[simp] theorem release_rxop (s : State) : (release s).rxop = s.rxop := rfl
@[simp] theorem release_rxmask (s : State) : (release s).rxmask = s.rxmask := rfl
@[simp] theorem release_rxlen7 (s : State) : (release s).rxlen7 = s.rxlen7 := rfl
@[simp] theorem release_rxplen (s : State) : (release s).rxplen = s.rxplen := rfl
@[simp] theorem release_rxkey (s : State) : (release s).rxkey = s.rxkey := rfl
@[simp] theorem release_rxcnt (s : State) : (release s).rxcnt = s.rxcnt := rfl
@[simp] theorem release_txfin (s : State) : (release s).txfin = s.txfin := rfl
@[simp] theorem release_txop (s : State) : (release s).txop = s.txop := rfl
@[simp] theorem release_txmask (s : State) : (release s).txmask = s.txmask := rfl
@[simp] theorem release_txkey (s : State) : (release s).txkey = s.txkey := rfl
@[simp] theorem release_txlen (s : State) : (release s).txlen = s.txlen := rfl
@[simp] theorem release_txcode (s : State) : (release s).txcode = s.txcode := rfl
@[simp] theorem release_txcnt (s : State) : (release s).txcnt = s.txcnt := rfl
@[simp] theorem release_rxraw (s : State) : (release s).rxraw = s.rxraw := rfl
@[simp] theorem release_txbuf (s : State) : (release s).txbuf = s.txbuf := rfl
@[simp] theorem release_progress (s : State) : (release s).progress = s.progress := rfl
@[simp] theorem release_params (s : State) : (release s).params = s.params := rfl
@[simp] theorem release_transport (s : State) : (release s).transport = s.transport := rfl
@[simp] theorem release_hostQueue (s : State) : (release s).hostQueue = s.hostQueue := rfl
@[simp] theorem release_hostReads (s : State) : (release s).hostReads = s.hostReads := rfl
@[simp] theorem release_turns (s : State) : (release s).turns = s.turns := rfl
@[simp] theorem release_freeCount (s : State) : (release s).freeCount = s.freeCount := rfl

/-! ### `hdr0` -/

@[simp] theorem hdr0_cmd (fin : Bool) (op : BitVec 4) (s : State) : (hdr0 fin op s).cmd = s.cmd := rfl
@[simp] theorem hdr0_status (fin : Bool) (op : BitVec 4) (s : State) : (hdr0 fin op s).status = s.status := rfl
@[simp] theorem hdr0_busy (fin : Bool) (op : BitVec 4) (s : State) : (hdr0 fin op s).busy = s.busy := rfl
@[simp] theorem hdr0_cstate (fin : Bool) (op : BitVec 4) (s : State) : (hdr0 fin op s).cstate = s.cstate := rfl
@[simp] theorem hdr0_trel (fin : Bool) (op : BitVec 4) (s : State) : (hdr0 fin op s).trel = s.trel := rfl
@[simp] theorem hdr0_anomaly (fin : Bool) (op : BitVec 4) (s : State) : (hdr0 fin op s).anomaly = s.anomaly := rfl
@[simp] theorem hdr0_dphase (fin : Bool) (op : BitVec 4) (s : State) : (hdr0 fin op s).dphase = .hdr1 := rfl
@[simp] theorem hdr0_didx (fin : Bool) (op : BitVec 4) (s : State) : (hdr0 fin op s).didx = s.didx := rfl
@[simp] theorem hdr0_rxvalid (fin : Bool) (op : BitVec 4) (s : State) : (hdr0 fin op s).rxvalid = s.rxvalid := rfl
@[simp] theorem hdr0_rxfin (fin : Bool) (op : BitVec 4) (s : State) : (hdr0 fin op s).rxfin = fin := rfl
@[simp] theorem hdr0_rxop (fin : Bool) (op : BitVec 4) (s : State) : (hdr0 fin op s).rxop = op := rfl
@[simp] theorem hdr0_rxmask (fin : Bool) (op : BitVec 4) (s : State) : (hdr0 fin op s).rxmask = s.rxmask := rfl
@[simp] theorem hdr0_rxlen7 (fin : Bool) (op : BitVec 4) (s : State) : (hdr0 fin op s).rxlen7 = s.rxlen7 := rfl
@[simp] theorem hdr0_rxplen (fin : Bool) (op : BitVec 4) (s : State) : (hdr0 fin op s).rxplen = s.rxplen := rfl
@[simp] theorem hdr0_rxkey (fin : Bool) (op : BitVec 4) (s : State) : (hdr0 fin op s).rxkey = s.rxkey := rfl
@[simp] theorem hdr0_rxcnt (fin : Bool) (op : BitVec 4) (s : State) : (hdr0 fin op s).rxcnt = s.rxcnt := rfl
@[simp] theorem hdr0_txfin (fin : Bool) (op : BitVec 4) (s : State) : (hdr0 fin op s).txfin = s.txfin := rfl
@[simp] theorem hdr0_txop (fin : Bool) (op : BitVec 4) (s : State) : (hdr0 fin op s).txop = s.txop := rfl
@[simp] theorem hdr0_txmask (fin : Bool) (op : BitVec 4) (s : State) : (hdr0 fin op s).txmask = s.txmask := rfl
@[simp] theorem hdr0_txkey (fin : Bool) (op : BitVec 4) (s : State) : (hdr0 fin op s).txkey = s.txkey := rfl
@[simp] theorem hdr0_txlen (fin : Bool) (op : BitVec 4) (s : State) : (hdr0 fin op s).txlen = s.txlen := rfl
@[simp] theorem hdr0_txcode (fin : Bool) (op : BitVec 4) (s : State) : (hdr0 fin op s).txcode = s.txcode := rfl
@[simp] theorem hdr0_txcnt (fin : Bool) (op : BitVec 4) (s : State) : (hdr0 fin op s).txcnt = s.txcnt := rfl
@[simp] theorem hdr0_rxraw (fin : Bool) (op : BitVec 4) (s : State) : (hdr0 fin op s).rxraw = s.rxraw := rfl
@[simp] theorem hdr0_txbuf (fin : Bool) (op : BitVec 4) (s : State) : (hdr0 fin op s).txbuf = s.txbuf := rfl
@[simp] theorem hdr0_progress (fin : Bool) (op : BitVec 4) (s : State) : (hdr0 fin op s).progress = s.progress := rfl
@[simp] theorem hdr0_params (fin : Bool) (op : BitVec 4) (s : State) : (hdr0 fin op s).params = s.params := rfl
@[simp] theorem hdr0_transport (fin : Bool) (op : BitVec 4) (s : State) : (hdr0 fin op s).transport = s.transport := rfl
@[simp] theorem hdr0_hostQueue (fin : Bool) (op : BitVec 4) (s : State) : (hdr0 fin op s).hostQueue = s.hostQueue := rfl
@[simp] theorem hdr0_hostReads (fin : Bool) (op : BitVec 4) (s : State) : (hdr0 fin op s).hostReads = s.hostReads := rfl
@[simp] theorem hdr0_turns (fin : Bool) (op : BitVec 4) (s : State) : (hdr0 fin op s).turns = s.turns := rfl
@[simp] theorem hdr0_freeCount (fin : Bool) (op : BitVec 4) (s : State) : (hdr0 fin op s).freeCount = s.freeCount := rfl

/-! ### `hdr1` -/

@[simp] theorem hdr1_cmd (mask : Bool) (l : BitVec 7) (s : State) : (hdr1 mask l s).cmd = s.cmd := rfl
@[simp] theorem hdr1_status (mask : Bool) (l : BitVec 7) (s : State) : (hdr1 mask l s).status = s.status := rfl
@[simp] theorem hdr1_busy (mask : Bool) (l : BitVec 7) (s : State) : (hdr1 mask l s).busy = s.busy := rfl
@[simp] theorem hdr1_cstate (mask : Bool) (l : BitVec 7) (s : State) : (hdr1 mask l s).cstate = s.cstate := rfl
@[simp] theorem hdr1_trel (mask : Bool) (l : BitVec 7) (s : State) : (hdr1 mask l s).trel = s.trel := rfl
@[simp] theorem hdr1_anomaly (mask : Bool) (l : BitVec 7) (s : State) : (hdr1 mask l s).anomaly = s.anomaly := rfl
@[simp] theorem hdr1_dphase (mask : Bool) (l : BitVec 7) (s : State) : (hdr1 mask l s).dphase = s.dphase := rfl
@[simp] theorem hdr1_didx (mask : Bool) (l : BitVec 7) (s : State) : (hdr1 mask l s).didx = s.didx := rfl
@[simp] theorem hdr1_rxvalid (mask : Bool) (l : BitVec 7) (s : State) : (hdr1 mask l s).rxvalid = s.rxvalid := rfl
@[simp] theorem hdr1_rxfin (mask : Bool) (l : BitVec 7) (s : State) : (hdr1 mask l s).rxfin = s.rxfin := rfl
@[simp] theorem hdr1_rxop (mask : Bool) (l : BitVec 7) (s : State) : (hdr1 mask l s).rxop = s.rxop := rfl
@[simp] theorem hdr1_rxmask (mask : Bool) (l : BitVec 7) (s : State) : (hdr1 mask l s).rxmask = mask := rfl
@[simp] theorem hdr1_rxlen7 (mask : Bool) (l : BitVec 7) (s : State) : (hdr1 mask l s).rxlen7 = l := rfl
@[simp] theorem hdr1_rxplen (mask : Bool) (l : BitVec 7) (s : State) : (hdr1 mask l s).rxplen = s.rxplen := rfl
@[simp] theorem hdr1_rxkey (mask : Bool) (l : BitVec 7) (s : State) : (hdr1 mask l s).rxkey = s.rxkey := rfl
@[simp] theorem hdr1_rxcnt (mask : Bool) (l : BitVec 7) (s : State) : (hdr1 mask l s).rxcnt = s.rxcnt := rfl
@[simp] theorem hdr1_txfin (mask : Bool) (l : BitVec 7) (s : State) : (hdr1 mask l s).txfin = s.txfin := rfl
@[simp] theorem hdr1_txop (mask : Bool) (l : BitVec 7) (s : State) : (hdr1 mask l s).txop = s.txop := rfl
@[simp] theorem hdr1_txmask (mask : Bool) (l : BitVec 7) (s : State) : (hdr1 mask l s).txmask = s.txmask := rfl
@[simp] theorem hdr1_txkey (mask : Bool) (l : BitVec 7) (s : State) : (hdr1 mask l s).txkey = s.txkey := rfl
@[simp] theorem hdr1_txlen (mask : Bool) (l : BitVec 7) (s : State) : (hdr1 mask l s).txlen = s.txlen := rfl
@[simp] theorem hdr1_txcode (mask : Bool) (l : BitVec 7) (s : State) : (hdr1 mask l s).txcode = s.txcode := rfl
@[simp] theorem hdr1_txcnt (mask : Bool) (l : BitVec 7) (s : State) : (hdr1 mask l s).txcnt = s.txcnt := rfl
@[simp] theorem hdr1_rxraw (mask : Bool) (l : BitVec 7) (s : State) : (hdr1 mask l s).rxraw = s.rxraw := rfl
@[simp] theorem hdr1_txbuf (mask : Bool) (l : BitVec 7) (s : State) : (hdr1 mask l s).txbuf = s.txbuf := rfl
@[simp] theorem hdr1_progress (mask : Bool) (l : BitVec 7) (s : State) : (hdr1 mask l s).progress = s.progress := rfl
@[simp] theorem hdr1_params (mask : Bool) (l : BitVec 7) (s : State) : (hdr1 mask l s).params = s.params := rfl
@[simp] theorem hdr1_transport (mask : Bool) (l : BitVec 7) (s : State) : (hdr1 mask l s).transport = s.transport := rfl
@[simp] theorem hdr1_hostQueue (mask : Bool) (l : BitVec 7) (s : State) : (hdr1 mask l s).hostQueue = s.hostQueue := rfl
@[simp] theorem hdr1_hostReads (mask : Bool) (l : BitVec 7) (s : State) : (hdr1 mask l s).hostReads = s.hostReads := rfl
@[simp] theorem hdr1_turns (mask : Bool) (l : BitVec 7) (s : State) : (hdr1 mask l s).turns = s.turns := rfl
@[simp] theorem hdr1_freeCount (mask : Bool) (l : BitVec 7) (s : State) : (hdr1 mask l s).freeCount = s.freeCount := rfl

/-! ### `readStart` -/

@[simp] theorem readStart_cmd (s : State) : (readStart s).cmd = s.cmd := rfl
@[simp] theorem readStart_status (s : State) : (readStart s).status = s.status := rfl
@[simp] theorem readStart_busy (s : State) : (readStart s).busy = s.busy := rfl
@[simp] theorem readStart_cstate (s : State) : (readStart s).cstate = s.cstate := rfl
@[simp] theorem readStart_trel (s : State) : (readStart s).trel = s.trel := rfl
@[simp] theorem readStart_anomaly (s : State) : (readStart s).anomaly = s.anomaly := rfl
@[simp] theorem readStart_dphase (s : State) : (readStart s).dphase = .hdr0 := rfl
@[simp] theorem readStart_didx (s : State) : (readStart s).didx = 0 := rfl
@[simp] theorem readStart_rxvalid (s : State) : (readStart s).rxvalid = false := rfl
@[simp] theorem readStart_rxfin (s : State) : (readStart s).rxfin = false := rfl
@[simp] theorem readStart_rxop (s : State) : (readStart s).rxop = 0 := rfl
@[simp] theorem readStart_rxmask (s : State) : (readStart s).rxmask = false := rfl
@[simp] theorem readStart_rxlen7 (s : State) : (readStart s).rxlen7 = 0 := rfl
@[simp] theorem readStart_rxplen (s : State) : (readStart s).rxplen = 0 := rfl
@[simp] theorem readStart_rxkey (s : State) : (readStart s).rxkey = Key.zero := rfl
@[simp] theorem readStart_rxcnt (s : State) : (readStart s).rxcnt = 0 := rfl
@[simp] theorem readStart_txfin (s : State) : (readStart s).txfin = s.txfin := rfl
@[simp] theorem readStart_txop (s : State) : (readStart s).txop = s.txop := rfl
@[simp] theorem readStart_txmask (s : State) : (readStart s).txmask = s.txmask := rfl
@[simp] theorem readStart_txkey (s : State) : (readStart s).txkey = s.txkey := rfl
@[simp] theorem readStart_txlen (s : State) : (readStart s).txlen = s.txlen := rfl
@[simp] theorem readStart_txcode (s : State) : (readStart s).txcode = s.txcode := rfl
@[simp] theorem readStart_txcnt (s : State) : (readStart s).txcnt = s.txcnt := rfl
@[simp] theorem readStart_rxraw (s : State) : (readStart s).rxraw = [] := rfl
@[simp] theorem readStart_txbuf (s : State) : (readStart s).txbuf = s.txbuf := rfl
@[simp] theorem readStart_progress (s : State) : (readStart s).progress = s.progress := rfl
@[simp] theorem readStart_params (s : State) : (readStart s).params = s.params := rfl
@[simp] theorem readStart_transport (s : State) : (readStart s).transport = s.transport := rfl
@[simp] theorem readStart_hostQueue (s : State) : (readStart s).hostQueue = s.hostQueue := rfl
@[simp] theorem readStart_hostReads (s : State) : (readStart s).hostReads = s.hostReads := rfl
@[simp] theorem readStart_turns (s : State) : (readStart s).turns = s.turns := rfl
@[simp] theorem readStart_freeCount (s : State) : (readStart s).freeCount = s.freeCount := rfl

/-! ### `abort` -/

@[simp] theorem abort_cmd (st : Status) (s : State) : (abort st s).cmd = s.cmd := rfl
@[simp] theorem abort_status (st : Status) (s : State) : (abort st s).status = st := rfl
@[simp] theorem abort_busy (st : Status) (s : State) : (abort st s).busy = false := rfl
@[simp] theorem abort_cstate (st : Status) (s : State) : (abort st s).cstate = .closed := rfl
@[simp] theorem abort_trel (st : Status) (s : State) : (abort st s).trel = true := rfl
@[simp] theorem abort_anomaly (st : Status) (s : State) : (abort st s).anomaly = s.anomaly := rfl
@[simp] theorem abort_dphase (st : Status) (s : State) : (abort st s).dphase = s.dphase := rfl
@[simp] theorem abort_didx (st : Status) (s : State) : (abort st s).didx = s.didx := rfl
@[simp] theorem abort_rxvalid (st : Status) (s : State) : (abort st s).rxvalid = s.rxvalid := rfl
@[simp] theorem abort_rxfin (st : Status) (s : State) : (abort st s).rxfin = s.rxfin := rfl
@[simp] theorem abort_rxop (st : Status) (s : State) : (abort st s).rxop = s.rxop := rfl
@[simp] theorem abort_rxmask (st : Status) (s : State) : (abort st s).rxmask = s.rxmask := rfl
@[simp] theorem abort_rxlen7 (st : Status) (s : State) : (abort st s).rxlen7 = s.rxlen7 := rfl
@[simp] theorem abort_rxplen (st : Status) (s : State) : (abort st s).rxplen = s.rxplen := rfl
@[simp] theorem abort_rxkey (st : Status) (s : State) : (abort st s).rxkey = s.rxkey := rfl
@[simp] theorem abort_rxcnt (st : Status) (s : State) : (abort st s).rxcnt = s.rxcnt := rfl
@[simp] theorem abort_txfin (st : Status) (s : State) : (abort st s).txfin = s.txfin := rfl
@[simp] theorem abort_txop (st : Status) (s : State) : (abort st s).txop = s.txop := rfl
@[simp] theorem abort_txmask (st : Status) (s : State) : (abort st s).txmask = s.txmask := rfl
@[simp] theorem abort_txkey (st : Status) (s : State) : (abort st s).txkey = s.txkey := rfl
@[simp] theorem abort_txlen (st : Status) (s : State) : (abort st s).txlen = s.txlen := rfl
@[simp] theorem abort_txcode (st : Status) (s : State) : (abort st s).txcode = s.txcode := rfl
@[simp] theorem abort_txcnt (st : Status) (s : State) : (abort st s).txcnt = s.txcnt := rfl
@[simp] theorem abort_rxraw (st : Status) (s : State) : (abort st s).rxraw = s.rxraw := rfl
@[simp] theorem abort_txbuf (st : Status) (s : State) : (abort st s).txbuf = s.txbuf := rfl
@[simp] theorem abort_progress (st : Status) (s : State) : (abort st s).progress = .idle := rfl
@[simp] theorem abort_params (st : Status) (s : State) : (abort st s).params = s.params := rfl
@[simp] theorem abort_transport (st : Status) (s : State) : (abort st s).transport = s.transport := rfl
@[simp] theorem abort_hostQueue (st : Status) (s : State) : (abort st s).hostQueue = s.hostQueue := rfl
@[simp] theorem abort_hostReads (st : Status) (s : State) : (abort st s).hostReads = s.hostReads := rfl
@[simp] theorem abort_turns (st : Status) (s : State) : (abort st s).turns = s.turns := rfl
@[simp] theorem abort_freeCount (st : Status) (s : State) : (abort st s).freeCount = s.freeCount := rfl

/-! ### `takeTurn` -/

@[simp] theorem takeTurn_cmd (s : State) : (takeTurn s).cmd = s.cmd := rfl
@[simp] theorem takeTurn_status (s : State) : (takeTurn s).status = s.status := rfl
@[simp] theorem takeTurn_busy (s : State) : (takeTurn s).busy = s.busy := rfl
@[simp] theorem takeTurn_cstate (s : State) : (takeTurn s).cstate = s.cstate := rfl
@[simp] theorem takeTurn_trel (s : State) : (takeTurn s).trel = s.trel := rfl
@[simp] theorem takeTurn_anomaly (s : State) : (takeTurn s).anomaly = s.anomaly := rfl
@[simp] theorem takeTurn_dphase (s : State) : (takeTurn s).dphase = s.dphase := rfl
@[simp] theorem takeTurn_didx (s : State) : (takeTurn s).didx = s.didx := rfl
@[simp] theorem takeTurn_rxvalid (s : State) : (takeTurn s).rxvalid = s.rxvalid := rfl
@[simp] theorem takeTurn_rxfin (s : State) : (takeTurn s).rxfin = s.rxfin := rfl
@[simp] theorem takeTurn_rxop (s : State) : (takeTurn s).rxop = s.rxop := rfl
@[simp] theorem takeTurn_rxmask (s : State) : (takeTurn s).rxmask = s.rxmask := rfl
@[simp] theorem takeTurn_rxlen7 (s : State) : (takeTurn s).rxlen7 = s.rxlen7 := rfl
@[simp] theorem takeTurn_rxplen (s : State) : (takeTurn s).rxplen = s.rxplen := rfl
@[simp] theorem takeTurn_rxkey (s : State) : (takeTurn s).rxkey = s.rxkey := rfl
@[simp] theorem takeTurn_rxcnt (s : State) : (takeTurn s).rxcnt = s.rxcnt := rfl
@[simp] theorem takeTurn_txfin (s : State) : (takeTurn s).txfin = s.txfin := rfl
@[simp] theorem takeTurn_txop (s : State) : (takeTurn s).txop = s.txop := rfl
@[simp] theorem takeTurn_txmask (s : State) : (takeTurn s).txmask = s.txmask := rfl
@[simp] theorem takeTurn_txkey (s : State) : (takeTurn s).txkey = s.txkey := rfl
@[simp] theorem takeTurn_txlen (s : State) : (takeTurn s).txlen = s.txlen := rfl
@[simp] theorem takeTurn_txcode (s : State) : (takeTurn s).txcode = s.txcode := rfl
@[simp] theorem takeTurn_txcnt (s : State) : (takeTurn s).txcnt = s.txcnt := rfl
@[simp] theorem takeTurn_rxraw (s : State) : (takeTurn s).rxraw = s.rxraw := rfl
@[simp] theorem takeTurn_txbuf (s : State) : (takeTurn s).txbuf = s.txbuf := rfl
@[simp] theorem takeTurn_progress (s : State) : (takeTurn s).progress = s.progress := rfl
@[simp] theorem takeTurn_params (s : State) : (takeTurn s).params = s.params := rfl
@[simp] theorem takeTurn_transport (s : State) : (takeTurn s).transport = s.transport := rfl
@[simp] theorem takeTurn_hostQueue (s : State) : (takeTurn s).hostQueue = s.hostQueue := rfl
@[simp] theorem takeTurn_hostReads (s : State) : (takeTurn s).hostReads = s.hostReads := rfl
@[simp] theorem takeTurn_turns (s : State) : (takeTurn s).turns = s.turns.tail := rfl
@[simp] theorem takeTurn_freeCount (s : State) : (takeTurn s).freeCount = s.freeCount := rfl

/-! ### `hostReturn` -/

@[simp] theorem hostReturn_cmd (v : Word64) (s : State) : (hostReturn v s).cmd = s.cmd := rfl
@[simp] theorem hostReturn_status (v : Word64) (s : State) : (hostReturn v s).status = s.status := rfl
@[simp] theorem hostReturn_busy (v : Word64) (s : State) : (hostReturn v s).busy = s.busy := rfl
@[simp] theorem hostReturn_cstate (v : Word64) (s : State) : (hostReturn v s).cstate = s.cstate := rfl
@[simp] theorem hostReturn_trel (v : Word64) (s : State) : (hostReturn v s).trel = s.trel := rfl
@[simp] theorem hostReturn_anomaly (v : Word64) (s : State) : (hostReturn v s).anomaly = s.anomaly := rfl
@[simp] theorem hostReturn_dphase (v : Word64) (s : State) : (hostReturn v s).dphase = s.dphase := rfl
@[simp] theorem hostReturn_didx (v : Word64) (s : State) : (hostReturn v s).didx = s.didx := rfl
@[simp] theorem hostReturn_rxvalid (v : Word64) (s : State) : (hostReturn v s).rxvalid = s.rxvalid := rfl
@[simp] theorem hostReturn_rxfin (v : Word64) (s : State) : (hostReturn v s).rxfin = s.rxfin := rfl
@[simp] theorem hostReturn_rxop (v : Word64) (s : State) : (hostReturn v s).rxop = s.rxop := rfl
@[simp] theorem hostReturn_rxmask (v : Word64) (s : State) : (hostReturn v s).rxmask = s.rxmask := rfl
@[simp] theorem hostReturn_rxlen7 (v : Word64) (s : State) : (hostReturn v s).rxlen7 = s.rxlen7 := rfl
@[simp] theorem hostReturn_rxplen (v : Word64) (s : State) : (hostReturn v s).rxplen = s.rxplen := rfl
@[simp] theorem hostReturn_rxkey (v : Word64) (s : State) : (hostReturn v s).rxkey = s.rxkey := rfl
@[simp] theorem hostReturn_rxcnt (v : Word64) (s : State) : (hostReturn v s).rxcnt = s.rxcnt := rfl
@[simp] theorem hostReturn_txfin (v : Word64) (s : State) : (hostReturn v s).txfin = s.txfin := rfl
@[simp] theorem hostReturn_txop (v : Word64) (s : State) : (hostReturn v s).txop = s.txop := rfl
@[simp] theorem hostReturn_txmask (v : Word64) (s : State) : (hostReturn v s).txmask = s.txmask := rfl
@[simp] theorem hostReturn_txkey (v : Word64) (s : State) : (hostReturn v s).txkey = s.txkey := rfl
@[simp] theorem hostReturn_txlen (v : Word64) (s : State) : (hostReturn v s).txlen = s.txlen := rfl
@[simp] theorem hostReturn_txcode (v : Word64) (s : State) : (hostReturn v s).txcode = s.txcode := rfl
@[simp] theorem hostReturn_txcnt (v : Word64) (s : State) : (hostReturn v s).txcnt = s.txcnt := rfl
@[simp] theorem hostReturn_rxraw (v : Word64) (s : State) : (hostReturn v s).rxraw = s.rxraw := rfl
@[simp] theorem hostReturn_txbuf (v : Word64) (s : State) : (hostReturn v s).txbuf = s.txbuf := rfl
@[simp] theorem hostReturn_progress (v : Word64) (s : State) : (hostReturn v s).progress = s.progress := rfl
@[simp] theorem hostReturn_params (v : Word64) (s : State) : (hostReturn v s).params = s.params := rfl
@[simp] theorem hostReturn_transport (v : Word64) (s : State) : (hostReturn v s).transport = s.transport := rfl
@[simp] theorem hostReturn_hostQueue (v : Word64) (s : State) : (hostReturn v s).hostQueue = s.hostQueue := rfl
@[simp] theorem hostReturn_hostReads (v : Word64) (s : State) : (hostReturn v s).hostReads = s.hostReads ++ [v] := rfl
@[simp] theorem hostReturn_turns (v : Word64) (s : State) : (hostReturn v s).turns = s.turns := rfl
@[simp] theorem hostReturn_freeCount (v : Word64) (s : State) : (hostReturn v s).freeCount = s.freeCount := rfl

/-! ### `moveTo` -/

@[simp] theorem moveTo_cmd (c : CState) (s : State) : (moveTo c s).cmd = s.cmd := by cases c <;> rfl
@[simp] theorem moveTo_status (c : CState) (s : State) : (moveTo c s).status = s.status := by cases c <;> rfl
@[simp] theorem moveTo_busy (c : CState) (s : State) : (moveTo c s).busy = s.busy := by cases c <;> rfl
@[simp] theorem moveTo_anomaly (c : CState) (s : State) : (moveTo c s).anomaly = s.anomaly := by cases c <;> rfl
@[simp] theorem moveTo_dphase (c : CState) (s : State) : (moveTo c s).dphase = s.dphase := by cases c <;> rfl
@[simp] theorem moveTo_didx (c : CState) (s : State) : (moveTo c s).didx = s.didx := by cases c <;> rfl
@[simp] theorem moveTo_rxvalid (c : CState) (s : State) : (moveTo c s).rxvalid = s.rxvalid := by cases c <;> rfl
@[simp] theorem moveTo_rxfin (c : CState) (s : State) : (moveTo c s).rxfin = s.rxfin := by cases c <;> rfl
@[simp] theorem moveTo_rxop (c : CState) (s : State) : (moveTo c s).rxop = s.rxop := by cases c <;> rfl
@[simp] theorem moveTo_rxmask (c : CState) (s : State) : (moveTo c s).rxmask = s.rxmask := by cases c <;> rfl
@[simp] theorem moveTo_rxlen7 (c : CState) (s : State) : (moveTo c s).rxlen7 = s.rxlen7 := by cases c <;> rfl
@[simp] theorem moveTo_rxplen (c : CState) (s : State) : (moveTo c s).rxplen = s.rxplen := by cases c <;> rfl
@[simp] theorem moveTo_rxkey (c : CState) (s : State) : (moveTo c s).rxkey = s.rxkey := by cases c <;> rfl
@[simp] theorem moveTo_rxcnt (c : CState) (s : State) : (moveTo c s).rxcnt = s.rxcnt := by cases c <;> rfl
@[simp] theorem moveTo_txfin (c : CState) (s : State) : (moveTo c s).txfin = s.txfin := by cases c <;> rfl
@[simp] theorem moveTo_txop (c : CState) (s : State) : (moveTo c s).txop = s.txop := by cases c <;> rfl
@[simp] theorem moveTo_txmask (c : CState) (s : State) : (moveTo c s).txmask = s.txmask := by cases c <;> rfl
@[simp] theorem moveTo_txkey (c : CState) (s : State) : (moveTo c s).txkey = s.txkey := by cases c <;> rfl
@[simp] theorem moveTo_txlen (c : CState) (s : State) : (moveTo c s).txlen = s.txlen := by cases c <;> rfl
@[simp] theorem moveTo_txcode (c : CState) (s : State) : (moveTo c s).txcode = s.txcode := by cases c <;> rfl
@[simp] theorem moveTo_txcnt (c : CState) (s : State) : (moveTo c s).txcnt = s.txcnt := by cases c <;> rfl
@[simp] theorem moveTo_rxraw (c : CState) (s : State) : (moveTo c s).rxraw = s.rxraw := by cases c <;> rfl
@[simp] theorem moveTo_txbuf (c : CState) (s : State) : (moveTo c s).txbuf = s.txbuf := by cases c <;> rfl
@[simp] theorem moveTo_progress (c : CState) (s : State) : (moveTo c s).progress = s.progress := by cases c <;> rfl
@[simp] theorem moveTo_params (c : CState) (s : State) : (moveTo c s).params = s.params := by cases c <;> rfl
@[simp] theorem moveTo_transport (c : CState) (s : State) : (moveTo c s).transport = s.transport := by cases c <;> rfl
@[simp] theorem moveTo_hostQueue (c : CState) (s : State) : (moveTo c s).hostQueue = s.hostQueue := by cases c <;> rfl
@[simp] theorem moveTo_hostReads (c : CState) (s : State) : (moveTo c s).hostReads = s.hostReads := by cases c <;> rfl
@[simp] theorem moveTo_turns (c : CState) (s : State) : (moveTo c s).turns = s.turns := by cases c <;> rfl
@[simp] theorem moveTo_freeCount (c : CState) (s : State) : (moveTo c s).freeCount = s.freeCount := by cases c <;> rfl
@[simp] theorem moveTo_cstate (c : CState) (s : State) : (moveTo c s).cstate = c := by cases c <;> rfl
theorem moveTo_trel (c : CState) (s : State) : (moveTo c s).trel = (s.trel || decide (c = .closed)) := by
  cases c <;> simp [moveTo, release]

end Sys2Proof.Machine
end

