-- ==== Sys2Proof/Laws/Memory.lean ====
section
/-! SUPPORT. Buffer memory: read after write, the canonical form, whole ranges. -/

namespace Sys2Proof.Machine.Memory

@[simp] theorem read_nil (a : Nat) : Memory.read [] a = none := rfl

@[simp] theorem read_cons (k : Nat) (b : Byte) (m : Memory) (a : Nat) :
    Memory.read ((k, b) :: m) a = if k = a then some b else Memory.read m a := rfl

/-- Read after write, same address or another. -/
theorem read_write (m : Memory) (a x : Nat) (b : Byte) :
    (Memory.write m a b).read x = if a = x then some b else m.read x := by
  induction m with
  | nil => rfl
  | cons c m ih =>
    obtain ⟨k, c⟩ := c
    by_cases hax : a = x
    · subst hax
      rw [if_pos rfl] at ih ⊢
      unfold Memory.write
      by_cases h1 : a < k
      · simp [h1]
      · by_cases h2 : a = k
        · simp [h2]
        · simp [h1, h2, ih, Ne.symm h2]
    · rw [if_neg hax] at ih ⊢
      unfold Memory.write
      by_cases h1 : a < k
      · simp [h1, hax]
      · by_cases h2 : a = k
        · subst h2; simp [hax]
        · simp [h1, h2, ih]

@[simp] theorem read_write_same (m : Memory) (a : Nat) (b : Byte) : (Memory.write m a b).read a = some b := by
  simp [read_write]

theorem read_write_other (m : Memory) {a x : Nat} (b : Byte) (h : x ≠ a) : (Memory.write m a b).read x = m.read x := by
  simp [read_write, Ne.symm h]

/-- Every address of the list is above `a`. -/
theorem read_below {k : Nat} {c : Byte} {m : Memory} (h : Memory.wf ((k, c) :: m) = true) {a : Nat} (ha : a < k) :
    Memory.read ((k, c) :: m) a = none := by
  induction m generalizing k c with
  | nil => simp; omega
  | cons d m ih =>
    obtain ⟨j, d⟩ := d
    simp only [Memory.wf, Bool.and_eq_true, decide_eq_true_eq] at h
    have := ih h.2 (by omega)
    rw [read_cons, if_neg (by omega), this]

theorem wf_tail {c : Host.Cell} {m : Memory} (h : Memory.wf (c :: m) = true) : m.wf = true := by
  obtain ⟨k, c⟩ := c
  cases m with
  | nil => rfl
  | cons d m =>
    obtain ⟨j, d⟩ := d
    simp only [Memory.wf, Bool.and_eq_true] at h
    exact h.2

theorem wf_cons_write {k : Nat} {c : Byte} {m : Memory} (h : Memory.wf ((k, c) :: m) = true) {a : Nat} (ha : k < a)
    (b : Byte) (hw : (Memory.write m a b).wf = true) : Memory.wf ((k, c) :: Memory.write m a b) = true := by
  cases m with
  | nil => simp [Memory.write, Memory.wf, ha]
  | cons d m =>
    obtain ⟨j, d⟩ := d
    have hj : k < j := by
      simp only [Memory.wf, Bool.and_eq_true, decide_eq_true_eq] at h
      exact h.1
    unfold Memory.write at hw ⊢
    split_ifs at hw ⊢ <;> simp_all [Memory.wf]

/-- A write keeps the canonical form. -/
theorem wf_write {m : Memory} (h : m.wf = true) (a : Nat) (b : Byte) : (Memory.write m a b).wf = true := by
  induction m with
  | nil => rfl
  | cons c m ih =>
    obtain ⟨k, c⟩ := c
    unfold Memory.write
    split_ifs with h1 h2
    · simp [Memory.wf, h1, h]
    · subst h2
      cases m with
      | nil => rfl
      | cons d m =>
        obtain ⟨j, d⟩ := d
        simpa [Memory.wf] using h
    · exact wf_cons_write h (by omega) b (ih (wf_tail h))

/-- Memories in canonical form that read alike are the same list. -/
theorem eq_of_read_eq {m n : Memory} (hm : m.wf = true) (hn : n.wf = true) (h : ∀ a, m.read a = n.read a) : m = n := by
  induction m generalizing n with
  | nil =>
    cases n with
    | nil => rfl
    | cons c n =>
      obtain ⟨k, c⟩ := c
      simpa using h k
  | cons c m ih =>
    obtain ⟨k, c⟩ := c
    cases n with
    | nil => simpa using h k
    | cons d n =>
      obtain ⟨j, d⟩ := d
      have hkj : k = j := by
        rcases Nat.lt_trichotomy k j with hlt | heq | hgt
        · have := h k
          rw [read_below hn hlt] at this
          simp at this
        · exact heq
        · have := h j
          rw [read_below hm hgt] at this
          simp at this
      subst hkj
      have hcd : c = d := by simpa using h k
      subst hcd
      congr 1
      apply ih (wf_tail hm) (wf_tail hn)
      intro a
      have ha := h a
      simp only [read_cons] at ha
      split_ifs at ha with hka
      · subst hka
        have key : ∀ q : Memory, Memory.wf ((k, c) :: q) = true → q.read k = none := by
          intro q hq
          cases q with
          | nil => rfl
          | cons e q =>
            obtain ⟨i, e⟩ := e
            have hi : k < i := by
              simp only [Memory.wf, Bool.and_eq_true, decide_eq_true_eq] at hq
              exact hq.1
            exact read_below (wf_tail hq) hi
        rw [key m hm, key n hn]
      · exact ha

/-! ### A payload stored from an address on -/

theorem read_cellsFrom (a : Nat) (p : List Byte) (x : Nat) :
    (cellsFrom a p).read x = if x < a then none else p[x - a]? := by
  induction p generalizing a with
  | nil => simp [cellsFrom]
  | cons b p ih =>
    simp only [cellsFrom, read_cons, ih]
    rcases Nat.lt_trichotomy x a with h | h | h
    · rw [if_neg (by omega), if_pos (by omega), if_pos h]
    · subst h; simp
    · rw [if_neg (by omega), if_neg (by omega), if_neg (by omega)]
      obtain ⟨d, hd⟩ : ∃ d, x - a = d + 1 := ⟨x - a - 1, by omega⟩
      rw [hd, List.getElem?_cons_succ]
      congr 1
      omega

/-- Writing the next address appends a cell. -/
theorem write_cellsFrom (a : Nat) (p : List Byte) (b : Byte) :
    (cellsFrom a p).write (a + p.length) b = cellsFrom a (p ++ [b]) := by
  induction p generalizing a with
  | nil => rfl
  | cons c p ih =>
    simp only [cellsFrom, List.cons_append, Memory.write, List.length_cons]
    rw [if_neg (by omega), if_neg (by omega)]
    have := ih (a + 1)
    rw [show a + (p.length + 1) = a + 1 + p.length by omega, this]

theorem wf_cellsFrom (a : Nat) (p : List Byte) : (cellsFrom a p).wf = true := by
  induction p generalizing a with
  | nil => rfl
  | cons b p ih =>
    cases p with
    | nil => rfl
    | cons c p =>
      have := ih (a + 1)
      simp only [cellsFrom, Memory.wf, Bool.and_eq_true, decide_eq_true_eq] at this ⊢
      exact ⟨by omega, this⟩

/-- `MemRead` finds bytes exactly where every cell of the range is written. -/
theorem readRange_isSome (m : Memory) (a n : Nat) :
    (m.readRange a n).isSome = true ↔ ∀ x, a ≤ x → x < a + n → (m.read x).isSome = true := by
  induction n generalizing a with
  | zero => simp [Memory.readRange]; omega
  | succ n ih =>
    unfold Memory.readRange
    constructor
    · intro h x hax hxn
      split at h
      · simp at h
      · rename_i b hb
        split at h
        · simp at h
        · rename_i bs hbs
          rcases Nat.eq_or_lt_of_le hax with heq | hlt
          · subst heq; simp [hb]
          · exact (ih (a + 1)).1 (by simp [hbs]) x (by omega) (by omega)
    · intro h
      have h0 := h a (le_refl a) (by omega)
      have h1 := (ih (a + 1)).2 (fun x hx hxn => h x (by omega) (by omega))
      obtain ⟨b, hb⟩ := Option.isSome_iff_exists.1 h0
      obtain ⟨bs, hbs⟩ := Option.isSome_iff_exists.1 h1
      simp [hb, hbs]

theorem readRange_length {m : Memory} {a n : Nat} {p : List Byte} (h : m.readRange a n = some p) : p.length = n := by
  induction n generalizing a p with
  | zero => simp [Memory.readRange] at h; simp [← h]
  | succ n ih =>
    unfold Memory.readRange at h
    split at h
    · simp at h
    · split at h
      · simp at h
      · rename_i bs hbs
        simp only [Option.some.injEq] at h
        subst h
        simp [ih hbs]

/-- `MemRead` gives the bytes of the range in address order (R17). -/
theorem readRange_getElem? {m : Memory} {a n : Nat} {p : List Byte} (h : m.readRange a n = some p) {i : Nat}
    (hi : i < n) : p[i]? = m.read (a + i) := by
  induction n generalizing a p i with
  | zero => omega
  | succ n ih =>
    unfold Memory.readRange at h
    split at h
    · cases h
    · rename_i b hb
      split at h
      · cases h
      · rename_i bs hbs
        cases h
        cases i with
        | zero => simp [hb]
        | succ i =>
          rw [List.getElem?_cons_succ, ih hbs (by omega)]
          congr 1
          omega

end Sys2Proof.Machine.Memory
end

