-- ==== Sys2Proof/Laws/Wire.lean ====
section
/-! SUPPORT. Byte order, header bytes, the masker and the encoder. -/

namespace Sys2Proof

/-! ### Header bytes -/

@[simp] theorem finOf_byte0 (fin : Bool) (rsv : BitVec 3) (op : BitVec 4) : finOf (byte0 fin rsv op) = fin := by
  revert fin rsv op; decide

@[simp] theorem rsvOf_byte0 (fin : Bool) (rsv : BitVec 3) (op : BitVec 4) : rsvOf (byte0 fin rsv op) = rsv := by
  revert fin rsv op; decide

@[simp] theorem opcodeOf_byte0 (fin : Bool) (rsv : BitVec 3) (op : BitVec 4) : opcodeOf (byte0 fin rsv op) = op := by
  revert fin rsv op; decide

@[simp] theorem maskOf_byte1 (mask : Bool) (l : BitVec 7) : maskOf (byte1 mask l) = mask := by
  revert mask l; decide

@[simp] theorem lenOf_byte1 (mask : Bool) (l : BitVec 7) : lenOf (byte1 mask l) = l := by
  revert mask l; decide

/-- Byte 0 is its three fields (R81). -/
theorem byte0_fields (b : Byte) : byte0 (finOf b) (rsvOf b) (opcodeOf b) = b := by
  revert b; decide

/-- Byte 1 is its two fields (R82). -/
theorem byte1_fields (b : Byte) : byte1 (maskOf b) (lenOf b) = b := by
  revert b; decide

/-! ### Keys and masking -/

@[simp] theorem Key.at_zero (i : Nat) : Key.zero.at i = 0 := by
  unfold Key.at Key.zero
  split <;> rfl

/-- `k[i mod 4]` as an entry of the key's bytes in wire order (R90). -/
theorem Key.at_eq_getD (k : Key) (i : Nat) : k.at i = [k.k0, k.k1, k.k2, k.k3].getD (i % 4) 0 := by
  unfold Key.at
  have h : i % 4 < 4 := Nat.mod_lt _ (by decide)
  rcases show i % 4 = 0 ∨ i % 4 = 1 ∨ i % 4 = 2 ∨ i % 4 = 3 by omega with h | h | h | h <;> rw [h] <;> rfl

@[simp] theorem Key.at_mod (k : Key) (i : Nat) : k.at (i % 4) = k.at i := by
  simp [Key.at]

@[simp] theorem maskFrom_length (k : Key) (i : Nat) (p : List Byte) : (maskFrom k i p).length = p.length := by
  induction p generalizing i with
  | nil => rfl
  | cons b p ih => simp [maskFrom, ih]

/-- Byte `j` of a masked sequence (R141). -/
theorem maskFrom_getElem? (k : Key) (i : Nat) (p : List Byte) (j : Nat) :
    (maskFrom k i p)[j]? = (p[j]?).map (· ^^^ k.at (i + j)) := by
  induction p generalizing i j with
  | nil => simp [maskFrom]
  | cons b p ih =>
    cases j with
    | zero => simp [maskFrom]
    | succ j => simp [maskFrom, ih, Nat.add_assoc, Nat.add_comm 1 j]

/-- Masking twice with one key gives the bytes back (R141). -/
@[simp] theorem maskFrom_maskFrom (k : Key) (i : Nat) (p : List Byte) : maskFrom k i (maskFrom k i p) = p := by
  induction p generalizing i with
  | nil => rfl
  | cons b p ih => simp [maskFrom, ih]

/-- The zero key masks nothing (R141). -/
@[simp] theorem maskFrom_zero (i : Nat) (p : List Byte) : maskFrom Key.zero i p = p := by
  induction p generalizing i with
  | nil => rfl
  | cons b p ih => simp [maskFrom, ih]

/-! ### Big-endian numbers -/

/-- One more byte: the number times 256 plus the byte, while it fits (R126). -/
theorem pushByte_toNat (n : Word64) (b : Byte) : (pushByte n b).toNat = (n.toNat * 256 + b.toNat) % 2 ^ 64 := by
  have hb : b.toNat < 2 ^ 8 := b.isLt
  have h1 : (n <<< 8).toNat = (n.toNat * 256) % 2 ^ 64 := by
    simp [BitVec.toNat_shiftLeft, Nat.shiftLeft_eq]
  have h2 : (b.setWidth 64).toNat = b.toNat := by
    simp [BitVec.toNat_setWidth]; omega
  have h3 : (n.toNat * 256) % 2 ^ 64 = ((n.toNat % 2 ^ 56) * 2 ^ 8) := by omega
  rw [pushByte, BitVec.toNat_or, h1, h2, h3, Nat.mul_comm, ← Nat.two_pow_add_eq_or_of_lt hb]
  omega

theorem be16_toNat (b0 b1 : Byte) : (be16 b0 b1).toNat = b0.toNat * 256 + b1.toNat := by
  have h : b1.toNat < 2 ^ 8 := b1.isLt
  rw [be16, BitVec.toNat_append, Nat.shiftLeft_eq, Nat.mul_comm, ← Nat.two_pow_add_eq_or_of_lt h]

/-- Two extended-length bytes pushed one by one are `BE16` (R126). -/
theorem pushByte_be16 (e0 e1 : Byte) : pushByte (pushByte 0 e0) e1 = (be16 e0 e1).setWidth 64 := by
  apply BitVec.eq_of_toNat_eq
  have h0 := e0.isLt
  have h1 := e1.isLt
  have hz : (0 : Word64).toNat = 0 := rfl
  simp only [pushByte_toNat, BitVec.toNat_setWidth, be16_toNat, hz]
  omega

theorem append_toNat {n : Nat} (v : BitVec n) (b : Byte) : (v ++ b : BitVec (n + 8)).toNat = v.toNat * 256 + b.toNat := by
  have h : b.toNat < 2 ^ 8 := b.isLt
  rw [BitVec.toNat_append, Nat.shiftLeft_eq, Nat.mul_comm, ← Nat.two_pow_add_eq_or_of_lt h]

theorem be64_toNat (e0 e1 e2 e3 e4 e5 e6 e7 : Byte) :
    (be64 e0 e1 e2 e3 e4 e5 e6 e7).toNat =
      ((((((e0.toNat * 256 + e1.toNat) * 256 + e2.toNat) * 256 + e3.toNat) * 256 + e4.toNat) * 256 + e5.toNat) * 256 +
        e6.toNat) * 256 + e7.toNat := by
  unfold be64
  simp only [append_toNat]

/-- Eight extended-length bytes pushed one by one are `BE64` (R126). -/
theorem pushByte_be64 (e0 e1 e2 e3 e4 e5 e6 e7 : Byte) :
    pushByte (pushByte (pushByte (pushByte (pushByte (pushByte (pushByte (pushByte 0 e0) e1) e2) e3) e4) e5) e6) e7 =
      be64 e0 e1 e2 e3 e4 e5 e6 e7 := by
  apply BitVec.eq_of_toNat_eq
  have h0 := e0.isLt
  have h1 := e1.isLt
  have h2 := e2.isLt
  have h3 := e3.isLt
  have h4 := e4.isLt
  have h5 := e5.isLt
  have h6 := e6.isLt
  have h7 := e7.isLt
  simp only [pushByte_toNat, be64_toNat]
  omega

/-- `BE16` of `BE16bytes` (R14). -/
theorem be16_be16Bytes (v : BitVec 16) : be16 (v.extractLsb' 8 8) (v.extractLsb' 0 8) = v := by
  apply BitVec.eq_of_toNat_eq
  have h := v.isLt
  simp only [be16_toNat, BitVec.extractLsb'_toNat, Nat.shiftRight_eq_div_pow]
  omega

/-- `BE64` of `BE64bytes` (R14). -/
theorem be64_be64Bytes (v : Word64) :
    be64 (v.extractLsb' 56 8) (v.extractLsb' 48 8) (v.extractLsb' 40 8) (v.extractLsb' 32 8) (v.extractLsb' 24 8)
      (v.extractLsb' 16 8) (v.extractLsb' 8 8) (v.extractLsb' 0 8) = v := by
  apply BitVec.eq_of_toNat_eq
  have h := v.isLt
  simp only [be64_toNat, BitVec.extractLsb'_toNat, Nat.shiftRight_eq_div_pow]
  omega

/-- The key of its four bytes (R44). -/
theorem Key.unpack_pack (k : Key) : Key.unpack k.pack = k := by
  obtain ⟨a, b, c, d⟩ := k
  have ha := a.isLt
  have hb := b.isLt
  have hc := c.isLt
  have hd := d.isLt
  have hp : (Key.pack ⟨a, b, c, d⟩).toNat = ((a.toNat * 256 + b.toNat) * 256 + c.toNat) * 256 + d.toNat := by
    unfold Key.pack
    simp only [append_toNat]
  unfold Key.unpack
  congr 1 <;> apply BitVec.eq_of_toNat_eq <;>
    simp only [BitVec.extractLsb'_toNat, Nat.shiftRight_eq_div_pow, hp] <;> omega

/-- The number of its four bytes (R44). -/
theorem Key.pack_unpack (v : BitVec 32) : (Key.unpack v).pack = v := by
  apply BitVec.eq_of_toNat_eq
  have h := v.isLt
  unfold Key.pack Key.unpack
  simp only [append_toNat, BitVec.extractLsb'_toNat, Nat.shiftRight_eq_div_pow]
  omega

/-! ### The encoder -/

/-- How many bytes byte 1 and the extended length take (R163). -/
theorem lengthField_length (mask : Bool) (n : Nat) :
    (lengthField mask n).length = if n < 126 then 1 else if n < 65536 then 3 else 9 := by
  unfold lengthField
  split_ifs <;> rfl

/-- `BE16bytes` of `BE16` (R14). -/
theorem be16Bytes_be16 (b0 b1 : Byte) : be16Bytes (be16 b0 b1) = [b0, b1] := by
  have h0 := b0.isLt
  have h1 := b1.isLt
  unfold be16Bytes
  congr 1
  · apply BitVec.eq_of_toNat_eq
    simp only [BitVec.extractLsb'_toNat, be16_toNat, Nat.shiftRight_eq_div_pow]
    omega
  · congr 1
    apply BitVec.eq_of_toNat_eq
    simp only [BitVec.extractLsb'_toNat, be16_toNat, Nat.shiftRight_eq_div_pow]
    omega

/-- A Close frame is 0x88, 0x02 and the two bytes of the code (R174, R202). -/
theorem closeFrame_eq (c : BitVec 16) :
    closeFrame c = [0x88#8, 0x02#8, c.extractLsb' 8 8, c.extractLsb' 0 8] := by
  simp [closeFrame, serverFrame, encodeFrame, be16Bytes, lengthField]
  decide

theorem encodeFrame_ne_nil (fin : Bool) (op : BitVec 4) (mask : Bool) (k : Key) (p : List Byte) :
    encodeFrame fin op mask k p ≠ [] := by
  simp [encodeFrame]

end Sys2Proof
end

