-- ==== Sys2Proof/Laws/Step.lean ====
section
/-! SUPPORT. Which agent moves, runs of several steps, and transmission as a whole. -/

namespace Sys2Proof.Machine

/-! ### Runs -/

@[simp] theorem run_zero (s : State) : run 0 s = .next s := rfl

/-- One step, then the rest of the run. -/
theorem run_step (n : Nat) (s : State) :
    run (n + 1) s =
      match step s with
      | .next t => run n t
      | .fault r => .fault r
      | .refused r => .refused r := rfl

theorem run_succ (n : Nat) {s t : State} (h : step s = .next t) : run (n + 1) s = run n t := by
  rw [run_step, h]

theorem run_one (s : State) : run 1 s = step s := by
  rw [run_step]
  cases step s <;> rfl

theorem run_add (m n : Nat) {s t : State} (h : run m s = .next t) : run (m + n) s = run n t := by
  induction m generalizing s with
  | zero =>
    simp only [run_zero, Host.Outcome.next.injEq] at h
    subst h
    simp
  | succ m ih =>
    rw [run_step] at h
    rw [show m + 1 + n = m + n + 1 by omega, run_step]
    cases hs : step s with
    | next u =>
      rw [hs] at h
      exact ih h
    | fault r =>
      rw [hs] at h
      cases h
    | refused r =>
      rw [hs] at h
      cases h

/-- `n` more steps after a result. -/
def thenRun (n : Nat) (r : Result) : Result :=
  match r with
  | .next t => run n t
  | .fault e => .fault e
  | .refused e => .refused e

@[simp] theorem thenRun_next (n : Nat) (t : State) : thenRun n (.next t) = run n t := rfl

@[simp] theorem thenRun_zero (r : Result) : thenRun 0 r = r := by
  cases r <;> rfl

theorem run_split (m n : Nat) (s : State) : run (m + n) s = thenRun n (run m s) := by
  induction m generalizing s with
  | zero => simp
  | succ m ih =>
    rw [show m + 1 + n = m + n + 1 by omega, run_step, run_step]
    cases step s with
    | next t => exact ih t
    | fault e => rfl
    | refused e => rfl

/-- `run` is the host's run of the machine. -/
theorem run_eq_core (n : Nat) (s : State) : run n s = Sys2Proof.core.run n s := by
  induction n generalizing s with
  | zero => rfl
  | succ n ih =>
    rw [run_step]
    simp only [Host.Core.run]
    cases h : step s with
    | next t =>
      have h' : Sys2Proof.core.step s = .next t := h
      simp only [h']
      exact ih t
    | fault r =>
      have h' : Sys2Proof.core.step s = .fault r := h
      simp only [h']
      rfl
    | refused r =>
      have h' : Sys2Proof.core.step s = .refused r := h
      simp only [h']
      rfl

/-! ### Whose turn it is -/

theorem step_of_block {s : State} (h : nextAgent s = .block) : step s = blockStep (takeTurn s) := by
  simp [step, machineStep, h]

theorem step_of_host {s : State} (h : nextAgent s = .host) : step s = hostStep (takeTurn s) := by
  simp [step, machineStep, h]

theorem nextAgent_busy {s : State} (h : s.turns = []) (hb : s.busy = true) : nextAgent s = .block := by
  simp [nextAgent, h, hb]

theorem nextAgent_free {s : State} (h : s.turns = []) (hb : s.busy = false) : nextAgent s = .host := by
  simp [nextAgent, h, hb]

theorem takeTurn_nil {s : State} (h : s.turns = []) : takeTurn s = s := by
  cases s
  simp_all [takeTurn]

theorem step_busy {s : State} (h : s.turns = []) (hb : s.busy = true) : step s = blockStep s := by
  rw [step_of_block (nextAgent_busy h hb), takeTurn_nil h]

theorem step_free {s : State} (h : s.turns = []) (hb : s.busy = false) : step s = hostStep s := by
  rw [step_of_host (nextAgent_free h hb), takeTurn_nil h]

/-- The host's next bus action (R112). -/
theorem step_action {s : State} {a : BusAction} {q : List BusAction} (h : nextAgent s = .host)
    (hq : s.hostQueue = a :: q) : step s = busAction a { s with hostQueue := q, turns := s.turns.tail } := by
  rw [step_of_host h]
  unfold hostStep
  split <;> rename_i h2 <;> rw [takeTurn_hostQueue, hq] at h2
  · cases h2
  · cases h2
    rfl

/-- The same where no turn list is given and no command is in progress. -/
theorem step_action_free {s : State} {a : BusAction} {q : List BusAction} (ht : s.turns = []) (hb : s.busy = false)
    (hq : s.hostQueue = a :: q) : step s = busAction a { s with hostQueue := q } := by
  rw [step_free ht hb]
  unfold hostStep
  split <;> rename_i h2 <;> rw [hq] at h2
  · cases h2
  · cases h2
    rfl

/-! ### Acceptance -/

theorem accept_next {s : State} (code : BitVec 4) (p : Progress) (h : s.busy = false) :
    accept code p s = .next { s with cmd := code, busy := true, txcnt := 0, progress := p } := by
  simp [accept, h]

theorem accept_busy {s : State} (code : BitVec 4) (p : Progress) (h : s.busy = true) :
    accept code p s = .refused .hostWriteWhileBusy := by
  simp [accept, h]

/-- All an acceptance can do. -/
theorem accept_cases {s t : State} {code : BitVec 4} {p : Progress} (h : accept code p s = .next t) :
    s.busy = false ∧ t = { s with cmd := code, busy := true, txcnt := 0, progress := p } := by
  unfold accept at h
  split at h
  · cases h
  · rename_i hb
    refine ⟨by simpa using hb, ?_⟩
    cases h
    rfl

/-- A send command outside Closed with a readable payload (R167, R168). -/
theorem sendPayload_open {s : State} {p : List Byte} (code : BitVec 4) (frameOf : List Byte → List Byte)
    (hb : s.busy = false) (hc : s.cstate ≠ .closed) (hp : txPayload s = some p) :
    sendPayload code frameOf s =
      .next { accepted code s with progress := .sending (frameOf p) 0 [] (.finish .ok) } := by
  unfold sendPayload
  cases h : s.cstate with
  | closed => exact absurd h hc
  | _ => simp [hp, sendProgress, accept, h, hb, accepted]

/-! ### Transmission -/

theorem afterSend_nil {s : State} {rest : List TxAnswer} (h : s.transport.answers = rest) : afterSend s [] rest = s := by
  obtain ⟨⟩ := s
  subst h
  simp [afterSend]

theorem afterSend_append (s : State) (a b : List Byte) (r q : List TxAnswer) :
    afterSend (afterSend s a r) b q = afterSend s (a ++ b) q := by
  simp [afterSend, BitVec.add_assoc, BitVec.ofNat_add]

/-- The step that offers a byte the transport takes (R166). -/
theorem offerByte_ok {s : State} {frame : List Byte} {k : Nat} {b : Byte} (hb : frame[k]? = some b)
    {rest : List TxAnswer} (ha : s.transport.answers = .ok :: rest) (later : List (List Byte)) (last : Ending) :
    offerByte frame k later last s =
      { afterSend s [b] rest with progress := advance frame (k + 1) later last } := by
  simp [offerByte, hb, ha, afterSend]

/-- The step that offers a byte the transport refuses (R176). -/
theorem offerByte_fail {s : State} {frame : List Byte} {k : Nat} {b : Byte} (hb : frame[k]? = some b)
    {rest : List TxAnswer} (ha : s.transport.answers = .fail :: rest) (later : List (List Byte)) (last : Ending) :
    offerByte frame k later last s =
      abort .transportError { s with transport := { s.transport with answers := rest } } := by
  simp [offerByte, hb, ha]

theorem advance_lt {frame : List Byte} {k : Nat} (h : k < frame.length) (later : List (List Byte)) (last : Ending) :
    advance frame k later last = .sending frame k later last := by
  simp [advance, h]

theorem advance_end {frame : List Byte} (last : Ending) : advance frame frame.length [] last = .ending last := by
  simp [advance]

theorem advance_next {frame : List Byte} (f : List Byte) (fs : List (List Byte)) (last : Ending) :
    advance frame frame.length (f :: fs) last = .sending f 0 fs last := by
  simp [advance]

/-- `n` bytes of a frame in `n` steps (R166). -/
theorem run_bytes (n : Nat) {s : State} {frame : List Byte} {k : Nat} {later : List (List Byte)} {last : Ending}
    {rest : List TxAnswer} (ht : s.turns = []) (hb : s.busy = true) (hp : s.progress = advance frame k later last)
    (hk : k + n ≤ frame.length) (ha : s.transport.answers = okThen n rest) :
    run n s =
      .next { afterSend s ((frame.drop k).take n) rest with progress := advance frame (k + n) later last } := by
  induction n generalizing s k with
  | zero =>
    simp only [okThen, List.replicate_zero, List.nil_append] at ha
    simp only [run_zero, List.take_zero, Nat.add_zero, ← hp, afterSend_nil ha]
  | succ n ih =>
    have hlt : k < frame.length := by omega
    rw [advance_lt hlt] at hp
    have hget : frame[k]? = some frame[k] := List.getElem?_eq_getElem hlt
    have ha' : s.transport.answers = .ok :: okThen n rest := by rw [ha]; rfl
    have hstep : step s = .next
        { afterSend s [frame[k]] (okThen n rest) with progress := advance frame (k + 1) later last } := by
      rw [step_busy ht hb, blockStep, hp]
      simp only [offerByte_ok hget ha']
    rw [run_succ n hstep, ih (k := k + 1) (by simpa [afterSend] using ht) (by simpa [afterSend] using hb) rfl (by omega)
      (by simp [afterSend])]
    have hdrop : (frame.drop k).take (n + 1) = frame[k] :: (frame.drop (k + 1)).take n := by
      rw [List.drop_eq_getElem_cons hlt, List.take_succ_cons]
    have hbv : s.txcnt + 1#64 + BitVec.ofNat 64 (min n (frame.length - (k + 1))) =
        s.txcnt + BitVec.ofNat 64 (min n (frame.length - (k + 1)) + 1) := by
      rw [BitVec.add_assoc, ← BitVec.ofNat_add, Nat.add_comm]
    rw [hdrop]
    simp [afterSend, hbv, show k + 1 + n = k + (n + 1) by omega]

/-- A whole frame (R166). -/
theorem run_frame {s : State} {frame : List Byte} {later : List (List Byte)} {last : Ending} {rest : List TxAnswer}
    (ht : s.turns = []) (hb : s.busy = true) (hne : frame ≠ []) (hp : s.progress = .sending frame 0 later last)
    (ha : s.transport.answers = okThen frame.length rest) :
    run frame.length s =
      .next { afterSend s frame rest with progress := advance frame frame.length later last } := by
  have hlen : 0 < frame.length := List.length_pos_iff.2 hne
  have := run_bytes frame.length (k := 0) ht hb (by rw [hp, advance_lt hlen]) (by omega) ha
  simpa using this

/-- The step that completes a command (R10). -/
theorem step_ending {s : State} {last : Ending} (ht : s.turns = []) (hb : s.busy = true)
    (hp : s.progress = .ending last) : step s = .next (complete last s) := by
  rw [step_busy ht hb, blockStep, hp]

/-- A last frame and the end of its command. -/
theorem run_last_frame {s : State} {frame : List Byte} {last : Ending} {rest : List TxAnswer} (ht : s.turns = [])
    (hb : s.busy = true) (hne : frame ≠ []) (hp : s.progress = .sending frame 0 [] last)
    (ha : s.transport.answers = okThen frame.length rest) :
    run (frame.length + 1) s = .next (complete last { afterSend s frame rest with progress := .ending last }) := by
  rw [run_add _ 1 (run_frame ht hb hne hp ha), run_one, advance_end]
  exact step_ending (by simpa [afterSend] using ht) (by simpa [afterSend] using hb) rfl

theorem okThen_add (m n : Nat) (rest : List TxAnswer) : okThen (m + n) rest = okThen m (okThen n rest) := by
  rw [okThen, okThen, okThen, List.replicate_add, List.append_assoc]

end Sys2Proof.Machine
end

