-- ==== Sys2Proof/Laws/Receive.lean ====
section
/-! SUPPORT. The header rows, the reactions and the data bytes of a READ. -/

namespace Sys2Proof.Machine

/-! ### Opcode rows -/

theorem frameRow_idle {s : State} (h : s.dphase = .idle) (fin : Bool) (op : BitVec 4) (r : State → Result) :
    frameRow fin op r s = r s := by
  simp [frameRow, h]

theorem frameRow_header {s : State} (h : s.dphase ≠ .idle) (fin : Bool) (op : BitVec 4) (r : State → Result) :
    frameRow fin op r s = .next (hdr0 fin op s) := by
  unfold frameRow
  cases hd : s.dphase <;> simp_all

/-- The reaction each opcode has (R211). -/
def reactionOf (op : BitVec 4) : State → Result :=
  if op = 0x8 then rxClose else if op = 0x9 then pongReply else noReaction

/-- A 4-bit value is one of sixteen. -/
theorem opcode_cases (op : BitVec 4) :
    op = 0 ∨ op = 1 ∨ op = 2 ∨ op = 3 ∨ op = 4 ∨ op = 5 ∨ op = 6 ∨ op = 7 ∨ op = 8 ∨ op = 9 ∨ op = 10 ∨ op = 11 ∨
      op = 12 ∨ op = 13 ∨ op = 14 ∨ op = 15 := by
  revert op; decide

/-- What the opcode row of a byte does (R123, R211): all sixteen are one function of the opcode. -/
theorem exec_decodeOpcode (b : Byte) (s : State) :
    exec (decodeOpcode b) s = frameRow (finOf b) (opcodeOf b) (reactionOf (opcodeOf b)) s := by
  unfold decodeOpcode
  rcases opcode_cases (opcodeOf b) with h | h | h | h | h | h | h | h | h | h | h | h | h | h | h | h <;>
    rw [h] <;> rfl

/-- Byte 0 (R123). -/
theorem exec_decodeOpcode_header (b : Byte) {s : State} (h : s.dphase ≠ .idle) :
    exec (decodeOpcode b) s = .next (hdr0 (finOf b) (opcodeOf b) s) := by
  rw [exec_decodeOpcode, frameRow_header h]

/-- The opcode row of a frame in the RX registers, in DPHASE IDLE, is its reaction (R211). -/
theorem exec_rxRow {s : State} (h : s.dphase = .idle) : exec (rxRow s) s = reactionOf s.rxop s := by
  rw [rxRow, exec_decodeOpcode, opcodeOf_byte0, frameRow_idle h]

/-- `React()` runs the opcode row of the frame in the RX registers (R211). -/
theorem react_eq_exec (s : State) : react s = exec (rxRow s) s := by
  rw [rxRow, exec_decodeOpcode, opcodeOf_byte0, finOf_byte0]
  unfold react
  rcases opcode_cases s.rxop with h | h | h | h | h | h | h | h | h | h | h | h | h | h | h | h <;>
    rw [h] <;> rfl

theorem completeFrame_eq (s : State) : completeFrame s = exec (rxRow s) (frameDone s) := by
  rw [completeFrame, react_eq_exec]
  rfl

/-! ### Length and mask rows -/

theorem afterLength_eq (s : State) : afterLength s = exec (maskRow s.rxmask) s := by
  unfold afterLength maskRow
  cases s.rxmask <;> rfl

/-- The length row of byte 1 (R124). -/
theorem exec_decodeLength (b : Byte) (s : State) :
    exec (decodeLength b) s =
      if lenOf b = 126 ∨ lenOf b = 127 then .next (startExtLen (maskOf b) (lenOf b) s)
      else afterLength { hdr1 (maskOf b) (lenOf b) s with rxplen := (lenOf b).setWidth 64 } := by
  unfold decodeLength
  split
  · rename_i h
    have h' : lenOf b = 126 := BitVec.eq_of_toNat_eq h
    rw [if_pos (Or.inl h'), h']
    rfl
  · rename_i h
    have h' : lenOf b = 127 := BitVec.eq_of_toNat_eq h
    rw [if_pos (Or.inr h'), h']
    rfl
  · rename_i h1 h2
    rw [if_neg]
    · rfl
    · rintro (h | h)
      · exact h1 (by rw [h]; rfl)
      · exact h2 (by rw [h]; rfl)

/-! ### Steps that take a symbol -/

theorem blockStep_symbol {s : State} {sym : RxSym} {rest : List RxSym} (hp : s.progress = .decoding)
    (hr : s.transport.rx = sym :: rest) : blockStep s = takeSymbol sym (withRx s rest) := by
  unfold blockStep
  split <;> rename_i h <;> rw [hp] at h
  · cases h
  · split <;> rename_i h2 <;> rw [hr] at h2
    · cases h2
    · cases h2
      rfl
  · cases h
  · cases h

/-- The block's step with a symbol ready (R120). -/
theorem step_symbol {s : State} {sym : RxSym} {rest : List RxSym} (ha : nextAgent s = .block)
    (hp : s.progress = .decoding) (hr : s.transport.rx = sym :: rest) :
    step s = takeSymbol sym { withRx s rest with turns := s.turns.tail } := by
  rw [step_of_block ha, blockStep_symbol (s := takeTurn s) hp hr]
  rfl

/-- The same where no turn list is given. -/
theorem step_symbol_nil {s : State} {sym : RxSym} {rest : List RxSym} (ht : s.turns = []) (hb : s.busy = true)
    (hp : s.progress = .decoding) (hr : s.transport.rx = sym :: rest) :
    step s = takeSymbol sym (withRx s rest) := by
  rw [step_busy ht hb, blockStep_symbol hp hr]

/-! ### The unmask view -/

/-- The unmask view of a stretch of RXRAW is the masker applied to it (R140, R141). -/
theorem plainRange_eq {s : State} (n : Nat) {a : Nat} {raw : List Byte} (h : s.rxraw.readRange a n = some raw) :
    plainRange s a n = some (if s.rxmask then maskFrom s.rxkey a raw else raw) := by
  induction n generalizing a raw with
  | zero =>
    cases h
    cases s.rxmask <;> rfl
  | succ n ih =>
    unfold Memory.readRange at h
    split at h
    · cases h
    · rename_i b hb
      split at h
      · cases h
      · rename_i bs hbs
        cases h
        cases hm : s.rxmask <;> simp [plainRange, plainByte, hb, ih hbs, maskFrom, rxKeyByte, hm]

end Sys2Proof.Machine
end

