-- ==== Sys2Proof/Laws/Frame.lean ====
section
/-! SUPPORT. The data bytes of a READ, phase by phase: the extended length, the key, the payload. -/

namespace Sys2Proof.Machine

/-! ### One byte -/

/-- The decoder's step on a byte (R120). -/
theorem step_byte {s : State} {b : Byte} {rest : List RxSym} (ht : s.turns = []) (hb : s.busy = true)
    (hp : s.progress = .decoding) (hr : s.transport.rx = .byte b :: rest) : step s = takeByte b (withRx s rest) :=
  step_symbol_nil ht hb hp hr

theorem takeByte_hdr0 {s : State} (h : s.dphase = .hdr0) (b : Byte) : takeByte b s = exec (decodeOpcode b) s := by
  simp [takeByte, h]

theorem takeByte_hdr1 {s : State} (h : s.dphase = .hdr1) (b : Byte) : takeByte b s = exec (decodeLength b) s := by
  simp [takeByte, h]

theorem takeByte_extlen {s : State} (h : s.dphase = .extlen) (b : Byte) : takeByte b s = takeExtLen b s := by
  simp [takeByte, h]

theorem takeByte_key {s : State} (h : s.dphase = .key) (b : Byte) : takeByte b s = takeKey b s := by
  simp [takeByte, h]

theorem takeByte_payload {s : State} (h : s.dphase = .payload) (b : Byte) : takeByte b s = takePayload b s := by
  simp [takeByte, h]

theorem takeExtLen_more {s : State} (b : Byte) (h : s.didx + 1 ≠ xlen s.rxlen7) :
    takeExtLen b s = .next { s with rxplen := pushByte s.rxplen b, didx := s.didx + 1 } := if_neg h

theorem takeExtLen_last {s : State} (b : Byte) (h : s.didx + 1 = xlen s.rxlen7) :
    takeExtLen b s =
      exec (maskRow s.rxmask) { s with rxplen := pushByte s.rxplen b, didx := xlen s.rxlen7 } := by
  unfold takeExtLen
  simp only [h, if_true, afterLength_eq]

theorem takeKey_more {s : State} (b : Byte) (h : s.didx + 1 ≠ 4) :
    takeKey b s = .next { s with rxkey := s.rxkey.set s.didx b, didx := s.didx + 1 } := if_neg h

theorem takeKey_last {s : State} (b : Byte) (h : s.didx + 1 = 4) :
    takeKey b s = startPayload { s with rxkey := s.rxkey.set s.didx b, didx := 4 } := by
  unfold takeKey
  simp only [h, if_true]

theorem takePayload_more {s : State} (b : Byte) (hc : inCapacity s.params.rxbufBytes s.rxcnt.toNat = true)
    (h : s.rxcnt + 1 ≠ s.rxplen) :
    takePayload b s = .next { s with rxraw := s.rxraw.write s.rxcnt.toNat b, rxcnt := s.rxcnt + 1 } := by
  unfold takePayload
  rw [if_pos hc]
  exact if_neg h

theorem takePayload_last {s : State} (b : Byte) (hc : inCapacity s.params.rxbufBytes s.rxcnt.toNat = true)
    (h : s.rxcnt + 1 = s.rxplen) :
    takePayload b s =
      completeFrame { s with rxraw := s.rxraw.write s.rxcnt.toNat b, rxcnt := s.rxcnt + 1 } := by
  unfold takePayload
  rw [if_pos hc]
  exact if_pos h

/-! ### A whole field -/

/-- The extended-length bytes still to come, taken one a step; the last one's step runs the mask row (R126, R127). -/
theorem run_extLen (es : List Byte) {s : State} {rest : List RxSym} (ht : s.turns = []) (hb : s.busy = true)
    (hp : s.progress = .decoding) (hd : s.dphase = .extlen) (hne : es ≠ [])
    (hn : s.didx.toNat + es.length = (xlen s.rxlen7).toNat) (hr : s.transport.rx = es.map .byte ++ rest) :
    run es.length s =
      exec (maskRow s.rxmask)
        { withRx s rest with rxplen := es.foldl pushByte s.rxplen, didx := xlen s.rxlen7 } := by
  induction es generalizing s with
  | nil => exact absurd rfl hne
  | cons e es ih =>
    have hx := (xlen s.rxlen7).isLt
    have hr' : s.transport.rx = .byte e :: (es.map .byte ++ rest) := hr
    have hs : step s = takeExtLen e (withRx s (es.map .byte ++ rest)) :=
      (step_byte ht hb hp hr').trans (takeByte_extlen (s := withRx s (es.map .byte ++ rest)) hd e)
    cases es with
    | nil =>
      have hl : s.didx + 1 = xlen s.rxlen7 := by
        apply BitVec.eq_of_toNat_eq
        simp at hn ⊢
        omega
      rw [List.length_singleton, run_one, hs]
      exact takeExtLen_last (s := withRx s rest) e hl
    | cons e' es =>
      have hl : s.didx + 1 ≠ xlen s.rxlen7 := by
        intro h
        have := congrArg BitVec.toNat h
        simp at hn this
        omega
      obtain ⟨u, hu⟩ : ∃ u, u = { withRx s ((e' :: es).map .byte ++ rest) with
          rxplen := pushByte s.rxplen e, didx := s.didx + 1 } := ⟨_, rfl⟩
      have hsu : step s = .next u := by
        rw [hs, takeExtLen_more e (by exact hl), hu]
        rfl
      have hrun := ih (s := u) (by rw [hu]; exact ht) (by rw [hu]; exact hb) (by rw [hu]; exact hp)
        (by rw [hu]; exact hd) (by simp)
        (by rw [hu]; simp [withRx] at hn ⊢; omega) (by rw [hu]; rfl)
      rw [List.length_cons, run_succ _ hsu, hrun, hu]
      rfl

/-- The four key bytes, in wire order; the last one's step starts the payload (R128, R130). -/
theorem run_key {s : State} {a b c d : Byte} {rest : List RxSym} (ht : s.turns = []) (hb : s.busy = true)
    (hp : s.progress = .decoding) (hd : s.dphase = .key) (hi : s.didx = 0)
    (hr : s.transport.rx = [a, b, c, d].map .byte ++ rest) :
    run 4 s =
      startPayload { withRx s rest with rxkey := { k0 := a, k1 := b, k2 := c, k3 := d }, didx := 4 } := by
  have more : ∀ (u : State) (e : Byte) (r : List RxSym), u.turns = [] → u.busy = true → u.progress = .decoding →
      u.dphase = .key → u.didx + 1 ≠ 4 → u.transport.rx = .byte e :: r →
      ∃ v, step u = .next v ∧ v = { withRx u r with rxkey := u.rxkey.set u.didx e, didx := u.didx + 1 } := by
    intro u e r ht hb hp hd hne hr
    exact ⟨_, ((step_byte ht hb hp hr).trans (takeByte_key (s := withRx u r) hd e)).trans
      (takeKey_more (s := withRx u r) e hne), rfl⟩
  obtain ⟨u, su, hu⟩ := more s a (.byte b :: .byte c :: .byte d :: rest) ht hb hp hd (by rw [hi]; decide) hr
  have iu : u.didx = 1 := by rw [hu, hi]; rfl
  obtain ⟨v, sv, hv⟩ := more u b (.byte c :: .byte d :: rest) (by rw [hu]; exact ht) (by rw [hu]; exact hb)
    (by rw [hu]; exact hp) (by rw [hu]; exact hd) (by rw [iu]; decide) (by rw [hu]; rfl)
  have iv : v.didx = 2 := by rw [hv, iu]; rfl
  obtain ⟨w, sw, hw⟩ := more v c (.byte d :: rest) (by rw [hv, hu]; exact ht) (by rw [hv, hu]; exact hb)
    (by rw [hv, hu]; exact hp) (by rw [hv, hu]; exact hd) (by rw [iv]; decide) (by rw [hv]; rfl)
  have iw : w.didx = 3 := by rw [hw, iv]; rfl
  have last : step w = startPayload { withRx w rest with rxkey := w.rxkey.set w.didx d, didx := 4 } := by
    rw [step_byte (s := w) (b := d) (rest := rest) (by rw [hw, hv, hu]; exact ht) (by rw [hw, hv, hu]; exact hb)
      (by rw [hw, hv, hu]; exact hp) (by rw [hw]; rfl)]
    rw [takeByte_key (s := withRx w rest) (by rw [hw, hv, hu]; exact hd) d]
    exact takeKey_last (s := withRx w rest) d (by show w.didx + 1 = 4; rw [iw]; rfl)
  rw [run_succ 3 su, run_succ 2 sv, run_succ 1 sw, run_one, last, iw]
  congr 1
  rw [hw, iv, hv, iu, hu, hi]
  rfl

/-- The payload bytes still to come; the last one's step completes the frame (R129, R138). -/
theorem run_payload (ps : List Byte) {s : State} {rest : List RxSym} {old : List Byte} (ht : s.turns = [])
    (hb : s.busy = true) (hp : s.progress = .decoding) (hd : s.dphase = .payload) (hne : ps ≠ [])
    (hraw : s.rxraw = cellsFrom 0 old) (hcnt : s.rxcnt.toNat = old.length)
    (hlen : s.rxplen.toNat = old.length + ps.length)
    (hcap : ∀ c, s.params.rxbufBytes = some c → old.length + ps.length ≤ c)
    (hr : s.transport.rx = ps.map .byte ++ rest) :
    run ps.length s =
      completeFrame { withRx s rest with rxraw := cellsFrom 0 (old ++ ps), rxcnt := s.rxplen } := by
  induction ps generalizing s old with
  | nil => exact absurd rfl hne
  | cons p ps ih =>
    have hx := s.rxplen.isLt
    have hc : inCapacity s.params.rxbufBytes s.rxcnt.toNat = true := by
      unfold inCapacity
      split
      · rfl
      · rename_i c h
        have := hcap c h
        simp at this ⊢
        omega
    have hwr : s.rxraw.write s.rxcnt.toNat p = cellsFrom 0 (old ++ [p]) := by
      rw [hraw, hcnt, ← Memory.write_cellsFrom, Nat.zero_add]
    have hr' : s.transport.rx = .byte p :: (ps.map .byte ++ rest) := hr
    have hs : step s = takePayload p (withRx s (ps.map .byte ++ rest)) :=
      (step_byte ht hb hp hr').trans (takeByte_payload (s := withRx s (ps.map .byte ++ rest)) hd p)
    cases ps with
    | nil =>
      have hl : s.rxcnt + 1 = s.rxplen := by
        apply BitVec.eq_of_toNat_eq
        simp at hlen ⊢
        omega
      rw [List.length_singleton, run_one, hs]
      refine (takePayload_last (s := withRx s rest) p hc hl).trans ?_
      simp only [withRx, hwr, hl]
    | cons p' ps =>
      have hl : s.rxcnt + 1 ≠ s.rxplen := by
        intro h
        have := congrArg BitVec.toNat h
        simp at hlen this
        omega
      obtain ⟨u, hu⟩ : ∃ u, u = { withRx s ((p' :: ps).map .byte ++ rest) with
          rxraw := s.rxraw.write s.rxcnt.toNat p, rxcnt := s.rxcnt + 1 } := ⟨_, rfl⟩
      have hsu : step s = .next u := by
        rw [hs, takePayload_more p (by exact hc) (by exact hl), hu]
        rfl
      have hrun := ih (s := u) (old := old ++ [p]) (by rw [hu]; exact ht) (by rw [hu]; exact hb)
        (by rw [hu]; exact hp) (by rw [hu]; exact hd) (by simp) (by rw [hu]; exact hwr)
        (by rw [hu]; simp at hlen ⊢; omega) (by rw [hu]; simp [withRx] at hlen ⊢; omega)
        (by
          intro c h
          have := hcap c (by rw [hu] at h; exact h)
          simp at this ⊢
          omega)
        (by rw [hu]; rfl)
      rw [List.length_cons, run_succ _ hsu, hrun, hu, List.append_assoc]
      rfl

/-! ### The rest of a frame -/

/-- `StartPayload()` and the payload bytes after it (R129, R130). -/
theorem startPayload_run (raw : List Byte) {s : State} {rest : List RxSym} (ht : s.turns = []) (hb : s.busy = true)
    (hp : s.progress = .decoding) (hraw : s.rxraw = []) (hcnt : s.rxcnt = 0) (hlen : s.rxplen.toNat = raw.length)
    (hcap : ∀ c, s.params.rxbufBytes = some c → raw.length ≤ c) (hr : s.transport.rx = raw.map .byte ++ rest) :
    thenRun raw.length (startPayload s) =
      completeFrame { withRx s rest with rxraw := cellsFrom 0 raw, rxcnt := s.rxplen, dphase := .idle } := by
  unfold startPayload
  cases raw with
  | nil =>
    have h0 : s.rxplen = 0 := BitVec.eq_of_toNat_eq hlen
    rw [if_pos h0]
    simp only [List.length_nil, thenRun_zero, List.map_nil, List.nil_append] at hr ⊢
    simp [completeFrame, cellsFrom, withRx, hraw, hcnt, h0, ← hr]
  | cons p ps =>
    have h0 : s.rxplen ≠ 0 := by
      intro h
      rw [h] at hlen
      simp at hlen
    obtain ⟨u, hu⟩ : ∃ u, u = { s with dphase := .payload } := ⟨_, rfl⟩
    have hrun := run_payload (p :: ps) (s := u) (rest := rest) (old := []) (by rw [hu]; exact ht) (by rw [hu]; exact hb)
      (by rw [hu]; exact hp) (by rw [hu]) (by simp) (by rw [hu]; exact hraw) (by rw [hu]; simp [hcnt])
      (by rw [hu]; simpa using hlen) (by rw [hu]; simpa using hcap) (by rw [hu]; exact hr)
    rw [if_neg h0, thenRun_next, ← hu, hrun, hu]
    rfl

/-- `AfterLength()`, the key and the payload after it (R128 to R130, R138). -/
theorem afterLength_run (mask : Bool) (ks raw : List Byte) {s : State} {rest : List RxSym} (ht : s.turns = [])
    (hb : s.busy = true) (hp : s.progress = .decoding) (hraw : s.rxraw = []) (hcnt : s.rxcnt = 0)
    (hmask : s.rxmask = mask) (hkey : s.rxkey = Key.zero) (hks : ks.length = if mask then 4 else 0)
    (hlen : s.rxplen.toNat = raw.length) (hcap : ∀ c, s.params.rxbufBytes = some c → raw.length ≤ c)
    (hr : s.transport.rx = ks.map .byte ++ (raw.map .byte ++ rest)) :
    thenRun (ks.length + raw.length) (exec (maskRow mask) s) =
      completeFrame
        { withRx s rest with
          rxkey := keyOf ks, didx := if mask then 4 else s.didx
          rxraw := cellsFrom 0 raw, rxcnt := s.rxplen, dphase := .idle } := by
  cases mask with
  | false =>
    have hk : ks = [] := List.length_eq_zero_iff.1 (by simpa using hks)
    subst hk
    rw [List.length_nil, Nat.zero_add]
    refine (startPayload_run raw ht hb hp hraw hcnt hlen hcap hr).trans ?_
    congr 1
    simp [keyOf, ← hkey, withRx]
  | true =>
    match ks, hks with
    | [a, b, c, d], _ =>
      obtain ⟨u, hu⟩ : ∃ u, u = { s with dphase := .key, didx := 0 } := ⟨_, rfl⟩
      have hrun := run_key (s := u) (a := a) (b := b) (c := c) (d := d) (rest := raw.map .byte ++ rest)
        (by rw [hu]; exact ht) (by rw [hu]; exact hb) (by rw [hu]; exact hp) (by rw [hu]) (by rw [hu])
        (by rw [hu]; exact hr)
      obtain ⟨v, hv⟩ : ∃ v, v = { withRx u (raw.map .byte ++ rest) with
        rxkey := { k0 := a, k1 := b, k2 := c, k3 := d }, didx := 4 } := ⟨_, rfl⟩
      have hex : exec (maskRow true) s = .next u := by rw [hu]; rfl
      rw [hex, thenRun_next, List.length_cons, List.length_cons, List.length_cons, List.length_singleton, run_split,
        hrun, ← hv]
      rw [startPayload_run raw (s := v) (rest := rest) (by rw [hv, hu]; exact ht) (by rw [hv, hu]; exact hb)
        (by rw [hv, hu]; exact hp) (by rw [hv, hu]; exact hraw) (by rw [hv, hu]; exact hcnt)
        (by rw [hv, hu]; exact hlen) (by rw [hv, hu]; exact hcap) (by rw [hv]; rfl), hv, hu]
      rfl

/-- Byte 0 (R123). -/
theorem step_byte0 {s : State} {b : Byte} {rest : List RxSym} (ht : s.turns = []) (hb : s.busy = true)
    (hp : s.progress = .decoding) (hd : s.dphase = .hdr0) (hr : s.transport.rx = .byte b :: rest) :
    step s = .next (hdr0 (finOf b) (opcodeOf b) (withRx s rest)) := by
  rw [step_byte ht hb hp hr, takeByte_hdr0 (s := withRx s rest) hd]
  exact exec_decodeOpcode_header b (by
    show s.dphase ≠ .idle
    rw [hd]
    simp)

/-- Byte 1 (R124). -/
theorem step_byte1 {s : State} {b : Byte} {rest : List RxSym} (ht : s.turns = []) (hb : s.busy = true)
    (hp : s.progress = .decoding) (hd : s.dphase = .hdr1) (hr : s.transport.rx = .byte b :: rest) :
    step s = exec (decodeLength b) (withRx s rest) := by
  rw [step_byte ht hb hp hr, takeByte_hdr1 (s := withRx s rest) hd]

/-- The extended-length bytes pushed one by one are the payload length (R88, R126). -/
theorem foldl_pushByte {l : BitVec 7} {ext : List Byte} (hx : l = 126 ∨ l = 127) (hn : ext.length = extCount l) :
    ext.foldl pushByte 0 = payloadLength l ext := by
  rcases hx with rfl | rfl
  · match ext, hn with
    | [e0, e1], _ => exact pushByte_be16 e0 e1
  · match ext, hn with
    | [e0, e1, e2, e3, e4, e5, e6, e7], _ => exact pushByte_be64 e0 e1 e2 e3 e4 e5 e6 e7

/-- Byte 1 and everything after it (R124 to R130, R138). -/
theorem byte1_run (b : Byte) (ext ks raw : List Byte) {s : State} {rest : List RxSym} (ht : s.turns = [])
    (hb : s.busy = true) (hp : s.progress = .decoding) (hraw : s.rxraw = []) (hcnt : s.rxcnt = 0)
    (hkey : s.rxkey = Key.zero) (hpl : s.rxplen = 0) (hdi : s.didx = 0) (hext : ext.length = extCount (lenOf b))
    (hks : ks.length = if maskOf b then 4 else 0) (hlen : (payloadLength (lenOf b) ext).toNat = raw.length)
    (hcap : ∀ c, s.params.rxbufBytes = some c → raw.length ≤ c)
    (hr : s.transport.rx = ext.map .byte ++ (ks.map .byte ++ (raw.map .byte ++ rest))) :
    thenRun (ext.length + (ks.length + raw.length)) (exec (decodeLength b) s) =
      completeFrame
        { withRx s rest with
          rxmask := maskOf b, rxlen7 := lenOf b, rxplen := payloadLength (lenOf b) ext, rxkey := keyOf ks
          didx := didxAfter (maskOf b) (lenOf b), rxraw := cellsFrom 0 raw
          rxcnt := payloadLength (lenOf b) ext, dphase := .idle } := by
  rw [exec_decodeLength]
  by_cases hx : lenOf b = 126 ∨ lenOf b = 127
  · have hne : ext ≠ [] := by
      rintro rfl
      rcases hx with h | h <;> rw [h] at hext <;> cases hext
    have hxl : ext.length = (xlen (lenOf b)).toNat := by
      rw [hext]
      rcases hx with h | h <;> rw [h] <;> rfl
    have hpush := foldl_pushByte hx hext
    obtain ⟨u, hu⟩ : ∃ u, u = startExtLen (maskOf b) (lenOf b) s := ⟨_, rfl⟩
    have hrun := run_extLen ext (s := u) (rest := ks.map .byte ++ (raw.map .byte ++ rest)) (by rw [hu]; exact ht)
      (by rw [hu]; exact hb) (by rw [hu]; exact hp) (by rw [hu]; rfl) hne
      (by rw [hu]; simpa [startExtLen, hdr1] using hxl) (by rw [hu]; exact hr)
    obtain ⟨v, hv⟩ : ∃ v, v = { withRx u (ks.map .byte ++ (raw.map .byte ++ rest)) with
      rxplen := ext.foldl pushByte u.rxplen, didx := xlen u.rxlen7 } := ⟨_, rfl⟩
    have hvp : v.rxplen = payloadLength (lenOf b) ext := by
      rw [hv, hu, ← hpush, ← hpl]
      rfl
    have hum : u.rxmask = maskOf b := by
      rw [hu]
      rfl
    rw [if_pos hx, thenRun_next, ← hu, run_split, hrun, ← hv, hum,
      afterLength_run (maskOf b) ks raw (s := v) (rest := rest) (by rw [hv, hu]; exact ht) (by rw [hv, hu]; exact hb)
        (by rw [hv, hu]; exact hp) (by rw [hv, hu]; exact hraw) (by rw [hv, hu]; exact hcnt)
        (by rw [hv, hu]; rfl) (by rw [hv, hu]; exact hkey) hks (by rw [hvp]; exact hlen)
        (by rw [hv, hu]; exact hcap) (by rw [hv]; rfl), hvp]
    have hdx : (if maskOf b = true then (4 : BitVec 4) else v.didx) = didxAfter (maskOf b) (lenOf b) := by
      unfold didxAfter
      split
      · rfl
      · rw [hv, hu]
        rcases hx with h | h <;> simp [startExtLen, hdr1, h, xlen]
    rw [hdx]
    congr 1
    rw [hv, hu] at hvp ⊢
    simp only [← hvp]
    rfl
  · have he : ext = [] := by
      apply List.length_eq_zero_iff.1
      rw [hext]
      unfold extCount
      rw [if_neg (fun h => hx (Or.inl h)), if_neg (fun h => hx (Or.inr h))]
    subst he
    rw [if_neg hx, afterLength_eq, List.length_nil, Nat.zero_add]
    refine (afterLength_run (maskOf b) ks raw
      (s := { hdr1 (maskOf b) (lenOf b) s with rxplen := (lenOf b).setWidth 64 }) ht hb hp hraw hcnt rfl hkey hks hlen
      hcap hr).trans ?_
    have hdx : (if maskOf b = true then (4 : BitVec 4) else s.didx) = didxAfter (maskOf b) (lenOf b) := by
      unfold didxAfter
      rw [if_neg (fun h => hx (Or.inl h)), if_neg (fun h => hx (Or.inr h)), hdi]
    congr 1
    rw [← hdx]
    rfl

/-! ### Taking bytes -/

/-- The bytes taken stand at the head of the stream. -/
theorem takeBytes_bytes {n : Nat} {syms rest : List RxSym} {bs : List Byte} (h : takeBytes syms n = .bytes bs rest) :
    bs.length = n ∧ syms = bs.map .byte ++ rest := by
  induction n generalizing syms bs with
  | zero =>
    cases syms <;> simp only [takeBytes, Taken.bytes.injEq] at h <;> obtain ⟨rfl, rfl⟩ := h <;> exact ⟨rfl, rfl⟩
  | succ n ih =>
    match syms with
    | [] => cases h
    | .eos :: _ => cases h
    | .fail :: _ => cases h
    | .byte b :: syms =>
      unfold takeBytes at h
      split at h
      · rename_i bs' rest' h'
        cases h
        obtain ⟨h1, h2⟩ := ih h'
        exact ⟨by rw [List.length_cons, h1], by rw [h2]; rfl⟩
      · rename_i hno
        exact absurd h (hno _ _)

/-- The next bytes of a stream that begins with them. -/
theorem takeBytes_append (bs : List Byte) (rest : List RxSym) :
    takeBytes (bs.map .byte ++ rest) bs.length = .bytes bs rest := by
  induction bs with
  | nil => cases rest <;> rfl
  | cons b bs ih =>
    simp only [List.map_cons, List.cons_append, List.length_cons, takeBytes, ih]

/-- What goes on to yield a frame has taken its bytes. -/
theorem Taken.andThen_frame {t : Taken} {g : List Byte → List RxSym → Decoded} {f : WireFrame} {rest : List RxSym}
    (h : t.andThen g = .frame f rest) : ∃ bs r, t = .bytes bs r ∧ g bs r = .frame f rest := by
  cases t <;> first | exact ⟨_, _, rfl, h⟩ | cases h

/-- The header of an encoded frame, read by the fields of its bytes (R88, R94, R160). -/
theorem lengthField_fields (mask : Bool) {n : Nat} (hn : n < 2 ^ 64) :
    ∃ b1 ext, lengthField mask n = b1 :: ext ∧ maskOf b1 = mask ∧ ext.length = extCount (lenOf b1) ∧
      payloadLength (lenOf b1) ext = BitVec.ofNat 64 n := by
  unfold lengthField
  split_ifs with ha hb
  · refine ⟨_, _, rfl, by simp, ?_, ?_⟩
    · rw [lenOf_byte1]
      unfold extCount
      rw [if_neg, if_neg] <;>
        first
        | rfl
        | (intro h; have := congrArg BitVec.toNat h; simp at this; omega)
    · rw [lenOf_byte1]
      apply BitVec.eq_of_toNat_eq
      simp [payloadLength, BitVec.toNat_setWidth]
      omega
  · refine ⟨_, _, rfl, by simp, by rw [lenOf_byte1]; rfl, ?_⟩
    rw [lenOf_byte1]
    simp only [payloadLength, be16Bytes, be16_be16Bytes]
    apply BitVec.eq_of_toNat_eq
    simp [BitVec.toNat_setWidth]
    omega
  · refine ⟨_, _, rfl, by simp, by rw [lenOf_byte1]; rfl, ?_⟩
    rw [lenOf_byte1]
    simp only [payloadLength, be64Bytes, be64_be64Bytes]

/-- The wire-format encoder is read back by `decodeFrame` (R162). -/
theorem decodeFrame_encodeFrame (fin : Bool) (op : BitVec 4) (mask : Bool) (k : Key) {p : List Byte}
    (hp : p.length < 2 ^ 64) (rest : List RxSym) :
    ∃ l, decodeFrame ((encodeFrame fin op mask k p).map .byte ++ rest) =
      .frame
        { fin := fin, op := op, mask := mask, len7 := l, plen := BitVec.ofNat 64 p.length
          key := if mask then k else Key.zero, raw := if mask then maskBytes k p else p } rest := by
  obtain ⟨b1, ext, h1, h2, h3, h4⟩ := lengthField_fields mask hp
  obtain ⟨ks, raw, e1, e2, e3, e4⟩ : ∃ ks raw, (if mask then k.bytes ++ maskBytes k p else p) = ks ++ raw ∧
      ks.length = (if mask then 4 else 0) ∧ keyOf ks = (if mask then k else Key.zero) ∧
      raw = if mask then maskBytes k p else p := by
    cases mask
    · exact ⟨[], p, rfl, rfl, rfl, rfl⟩
    · exact ⟨k.bytes, maskBytes k p, rfl, rfl, rfl, rfl⟩
  have hrl : raw.length = p.length := by
    rw [e4]
    cases mask <;> simp [maskBytes]
  refine ⟨lenOf b1, ?_⟩
  simp only [encodeFrame, h1, e1, List.map_cons, List.map_append, List.cons_append, List.append_assoc, decodeFrame]
  have t1 := takeBytes_append [b1] (ext.map .byte ++ (ks.map .byte ++ (raw.map .byte ++ rest)))
  simp only [List.map_cons, List.map_nil, List.cons_append, List.nil_append, List.length_singleton] at t1
  rw [t1]
  simp only [Taken.andThen, decodeRest]
  rw [← h3, takeBytes_append ext]
  simp only [h2]
  rw [← e2, takeBytes_append ks]
  simp only [h4]
  have hn : (BitVec.ofNat 64 p.length).toNat = raw.length := by
    rw [hrl]
    simp
    omega
  rw [hn, takeBytes_append raw]
  simp [e3, e4]

/-- A payload stored from an address on is read back whole. -/
theorem readRange_cellsFrom (a : Nat) (p q : List Byte) :
    (cellsFrom a (q ++ p)).readRange (a + q.length) p.length = some p := by
  induction p generalizing q with
  | nil => rfl
  | cons b p ih =>
    have hb : (cellsFrom a (q ++ b :: p)).read (a + q.length) = some b := by
      rw [Memory.read_cellsFrom, if_neg (by omega)]
      simp
    have hp := ih (q ++ [b])
    simp only [List.append_assoc, List.singleton_append, List.length_append, List.length_singleton] at hp
    simp [Memory.readRange, hb, Nat.add_assoc, hp]

end Sys2Proof.Machine
end

