-- ==== Sys2Proof/Laws/Host.lean ====
section
/-! SUPPORT. The host's lines (R110, R111): WAIT, operand writes, filling TXBUF, a whole send. -/

namespace Sys2Proof.Machine

/-- The bytes `bs` written from address `a` on. -/
def writeCells (m : Memory) : Nat → List Byte → Memory
  | _, [] => m
  | a, b :: bs => writeCells (m.write a b) (a + 1) bs

theorem read_writeCells (bs : List Byte) (m : Memory) (a x : Nat) :
    (writeCells m a bs).read x = if a ≤ x ∧ x < a + bs.length then bs[x - a]? else m.read x := by
  induction bs generalizing m a with
  | nil =>
    rw [if_neg (by simp)]
    rfl
  | cons b bs ih =>
    simp only [writeCells, ih, Memory.read_write, List.length_cons]
    by_cases h : a = x
    · subst h
      simp
    · by_cases h2 : a + 1 ≤ x ∧ x < a + 1 + bs.length
      · rw [if_pos h2, if_pos (by omega)]
        obtain ⟨d, hd⟩ : ∃ d, x - a = d + 1 := ⟨x - a - 1, by omega⟩
        rw [hd, List.getElem?_cons_succ, show x - (a + 1) = d by omega]
      · rw [if_neg h2, if_neg h, if_neg (by omega)]

/-- A `WB` line, one step a byte (R110, R63). -/
theorem run_writeBytes (p : List Byte) {s : State} {a : Nat} {q : List BusAction} (ht : s.turns = [])
    (hb : s.busy = false) (hq : s.hostQueue = writeBytes a p ++ q) (hl : a + p.length < 2 ^ 64)
    (hc : ∀ c, s.params.txbufBytes = some c → a + p.length ≤ c) :
    run p.length s = .next { s with hostQueue := q, txbuf := writeCells s.txbuf a p } := by
  induction p generalizing s a with
  | nil =>
    simp only [writeBytes, List.nil_append] at hq
    rw [← hq]
    rfl
  | cons b p ih =>
    have hq' : s.hostQueue = .writeBuf (BitVec.ofNat 64 a) b :: (writeBytes (a + 1) p ++ q) := hq
    have ha : (BitVec.ofNat 64 a).toNat = a := by
      simp at hl ⊢
      omega
    have hcap : inCapacity s.params.txbufBytes a = true := by
      unfold inCapacity
      split
      · rfl
      · rename_i c h
        have := hc c h
        simp at this ⊢
        omega
    obtain ⟨u, hu⟩ : ∃ u, u = { s with hostQueue := writeBytes (a + 1) p ++ q, txbuf := s.txbuf.write a b } := ⟨_, rfl⟩
    have hs : step s = .next u := by
      rw [step_action_free ht hb hq']
      simp only [busAction, hostWriteBuf, hb, ha]
      rw [if_neg (by simp), if_pos hcap, hu]
      simp [← hb]
    have hrun := ih (s := u) (a := a + 1) (by rw [hu]; exact ht) (by rw [hu]; exact hb) (by rw [hu])
      (by simp at hl; omega) (by rw [hu]; intro c h; have := hc c h; simp at this; omega)
    rw [List.length_cons, run_succ _ hs, hrun, hu]
    rfl

/-! ### WAIT -/

theorem hostPoll_busy {s : State} (h : s.busy = true) :
    hostPoll s = { s with hostQueue := .wait :: s.hostQueue, hostReads := s.hostReads ++ [1] } := by
  simp [hostPoll, hostReturn, readRegister, bitReg, h]

theorem hostPoll_free {s : State} (h : s.busy = false) : hostPoll s = { s with hostReads := s.hostReads ++ [0] } := by
  simp [hostPoll, hostReturn, readRegister, bitReg, h]

/-- All a poll can do: it touches the host's own side alone. -/
theorem hostPoll_frame (s : State) :
    hostPoll s = { s with hostQueue := (hostPoll s).hostQueue, hostReads := s.hostReads ++ [if s.busy then 1 else 0] } := by
  unfold hostPoll
  split <;> rename_i h <;> simp [hostReturn, readRegister, bitReg, h]

/-- The last poll of a WAIT (R110). -/
theorem step_wait {s : State} {q : List BusAction} (ht : s.turns = []) (hb : s.busy = false)
    (hq : s.hostQueue = .wait :: q) : step s = .next { s with hostQueue := q, hostReads := s.hostReads ++ [0] } := by
  rw [step_action_free ht hb hq]
  exact congrArg Host.Outcome.next (hostPoll_free (s := { s with hostQueue := q }) hb)

/-! ### Operand writes -/

/-- A register number the host may write is no reserved number (R23). -/
theorem isReserved_of_writable {n : BitVec 8} {w : Nat} (h : writableWidth n = some w) : isReserved n = false := by
  unfold writableWidth at h
  split at h <;> first | (simp [isReserved, *]; done) | cases h

/-- A host write of a value that fits a writable register while BUSY = 0 (R22, R96). -/
theorem hostWriteReg_fits {s : State} {n : BitVec 8} {v : Word64} {w : Nat} (hb : s.busy = false)
    (hw : writableWidth n = some w) (hv : v.toNat < 2 ^ w) :
    hostWriteReg n v s =
      if n = 0x00 then exec (decodeCommand (v.setWidth 4)) s else .next (writeOperand s n v) := by
  simp only [hostWriteReg, isReserved_of_writable hw, hb, hw, hv, if_true, Bool.false_eq_true, if_false]

/-- A `WR` line of an operand register (R22, R110). -/
theorem step_writeOperand {s : State} {n : BitVec 8} {v : Word64} {w : Nat} {q : List BusAction} (ht : s.turns = [])
    (hb : s.busy = false) (hq : s.hostQueue = .writeReg n v :: q) (hn : n ≠ 0x00) (hw : writableWidth n = some w)
    (hv : v.toNat < 2 ^ w) : step s = .next (writeOperand { s with hostQueue := q } n v) := by
  rw [step_action_free ht hb hq, busAction, hostWriteReg_fits (s := { s with hostQueue := q }) hb hw hv, if_neg hn]

/-! What each operand write does (R40 to R42, R44). -/

@[simp] theorem writeOperand_txfin (s : State) (v : Word64) :
    writeOperand s 0x10 v = { s with txfin := v.getLsbD 0 } := rfl

@[simp] theorem writeOperand_txop (s : State) (v : Word64) :
    writeOperand s 0x11 v = { s with txop := v.setWidth 4 } := rfl

@[simp] theorem writeOperand_txmask (s : State) (v : Word64) :
    writeOperand s 0x12 v = { s with txmask := v.getLsbD 0 } := rfl

@[simp] theorem writeOperand_txkey (s : State) (v : Word64) :
    writeOperand s 0x13 v = { s with txkey := Key.unpack (v.setWidth 32) } := rfl

@[simp] theorem writeOperand_txlen (s : State) (v : Word64) : writeOperand s 0x14 v = { s with txlen := v } := rfl

@[simp] theorem writeOperand_txcode (s : State) (v : Word64) :
    writeOperand s 0x15 v = { s with txcode := v.setWidth 16 } := rfl

/-- A host write to an operand register touches neither the turns nor BUSY, and commutes with the host's queue. -/
theorem writeOperand_frame (s : State) (n : BitVec 8) (v : Word64) (q : List BusAction) :
    (writeOperand s n v).turns = s.turns ∧ (writeOperand s n v).busy = s.busy ∧
      { writeOperand s n v with hostQueue := q } = writeOperand { s with hostQueue := q } n v := by
  unfold writeOperand
  split <;> exact ⟨rfl, rfl, rfl⟩

/-- `WR` lines of operand registers, one step each (R110). -/
theorem run_writeOperands (ws : List (BitVec 8 × Word64)) {s : State} {q : List BusAction} (ht : s.turns = [])
    (hb : s.busy = false) (hw : ∀ x ∈ ws, x.1 ≠ 0x00 ∧ ∃ w, writableWidth x.1 = some w ∧ x.2.toNat < 2 ^ w)
    (hq : s.hostQueue = ws.map (fun x => .writeReg x.1 x.2) ++ q) :
    run ws.length s = .next (ws.foldl (fun t x => writeOperand t x.1 x.2) { s with hostQueue := q }) := by
  induction ws generalizing s with
  | nil =>
    simp only [List.map_nil, List.nil_append] at hq
    rw [← hq]
    rfl
  | cons x ws ih =>
    obtain ⟨h1, w, h2, h3⟩ := hw x (by simp)
    obtain ⟨r, hr⟩ : ∃ r : List BusAction, r = ws.map (fun x => .writeReg x.1 x.2) ++ q := ⟨_, rfl⟩
    have hq' : s.hostQueue = .writeReg x.1 x.2 :: r := by rw [hr]; exact hq
    obtain ⟨f1, f2, f3⟩ := writeOperand_frame { s with hostQueue := r } x.1 x.2 q
    rw [List.length_cons, run_succ _ (step_writeOperand ht hb hq' h1 h2 h3),
      ih (f1.trans ht) (f2.trans hb) (fun y hy => hw y (List.mem_cons_of_mem _ hy))
        ((congrArg State.hostQueue (writeOperand_frame s x.1 x.2 r).2.2.symm).trans hr), f3]
    rfl

/-! ### A whole send -/

/-- A command line that sends one frame, from its CMD write to the end of its WAIT (R96, R110, R166). -/
theorem run_commandLine {s : State} {code : BitVec 4} {frame : List Byte} {rest : List TxAnswer} (ht : s.turns = [])
    (hb : s.busy = false) (hq : s.hostQueue = commandLine code) (hne : frame ≠ [])
    (hx : exec (decodeCommand code) { s with hostQueue := [.wait] } =
      .next { accepted code { s with hostQueue := [.wait] } with progress := .sending frame 0 [] (.finish .ok) })
    (ha : s.transport.answers = okThen frame.length rest) :
    run (1 + (frame.length + 1 + 1)) s =
      .next { ended .ok (afterSend (accepted code s) frame rest) with
        hostQueue := [], hostReads := s.hostReads ++ [0] } := by
  have hq' : s.hostQueue = .writeReg 0x00 (code.setWidth 64) :: [.wait] := hq
  have e1 : ((code.setWidth 64).setWidth 4 : BitVec 4) = code := by
    apply BitVec.eq_of_toNat_eq
    simp
  have e2 : (code.setWidth 64).toNat < 2 ^ 4 := by
    have := code.isLt
    simp
    omega
  have s1 : step s = .next
      { accepted code { s with hostQueue := [.wait] } with progress := .sending frame 0 [] (.finish .ok) } := by
    rw [step_action_free ht hb hq', busAction,
      hostWriteReg_fits (s := { s with hostQueue := [.wait] }) (n := 0x00) (w := 4) hb rfl e2, if_pos rfl, e1, hx]
  have s2 := run_last_frame
    (s := { accepted code { s with hostQueue := [.wait] } with progress := .sending frame 0 [] (.finish .ok) })
    (rest := rest) ht rfl hne rfl ha
  rw [run_add 1 _ ((run_one s).trans s1), run_add _ 1 s2, run_one]
  exact step_wait (q := []) ht rfl rfl

/-- TXBUF filled from address 0 and TXLEN set, TXBUF_BYTES allowing, is the payload (R167). -/
theorem txPayload_writeCells {s : State} {p : List Byte} {m : Memory} (hm : s.txbuf = writeCells m 0 p)
    (hl : s.txlen.toNat = p.length) (hc : ∀ c, s.params.txbufBytes = some c → p.length ≤ c) : txPayload s = some p := by
  have hr : ∀ x, x < p.length → s.txbuf.read x = p[x]? := by
    intro x hx
    rw [hm, read_writeCells, if_pos (by omega), Nat.sub_zero]
  have hs : (s.txbuf.readRange 0 p.length).isSome = true := by
    rw [Memory.readRange_isSome]
    intro x _ hx
    rw [hr x (by omega)]
    simp
    omega
  obtain ⟨p', hp'⟩ := Option.isSome_iff_exists.1 hs
  have he : p' = p := by
    apply List.ext_getElem?
    intro i
    by_cases hi : i < p.length
    · rw [Memory.readRange_getElem? hp' hi, Nat.zero_add, hr i hi]
    · rw [List.getElem?_eq_none (by rw [Memory.readRange_length hp']; omega), List.getElem?_eq_none (by omega)]
  unfold txPayload
  split
  · rw [hl, hp', he]
  · rename_i c h
    rw [hl, if_pos (hc c h), hp', he]

end Sys2Proof.Machine
end

