-- ==== Sys2Proof/Laws/Invariant.lean ====
section
/-! SUPPORT. The invariant, operation by operation. -/

namespace Sys2Proof.Machine

/-! ### Accepting and ending commands -/

/-- With BUSY = 0 no command is in progress (R45). -/
theorem State.Inv.idle_of_free {s : State} (h : s.Inv) (hb : s.busy = false) : s.progress = .idle := by
  have hp := h.progress
  unfold progressInv at hp
  split at hp <;> simp_all

/-- The fields the invariant does not mention. -/
theorem State.Inv.env {s : State} (h : s.Inv) (c : BitVec 4) (tf : Bool) (op : BitVec 4) (tm : Bool) (tk : Key)
    (tl : Word64) (tc : BitVec 16) (tn : Word64) (tr : Transport) (hq : List BusAction) (hr : List Word64)
    (tu : List Agent) (fc : Nat) :
    ({ s with
      cmd := c, txfin := tf, txop := op, txmask := tm, txkey := tk, txlen := tl, txcode := tc, txcnt := tn
      transport := tr, hostQueue := hq, hostReads := hr, turns := tu, freeCount := fc } : State).Inv :=
  ⟨h.released, h.progress, h.decoder, h.valid, h.cut, h.noKey, h.noAnomaly, h.rxCells, h.rxRoom, h.txRoom, h.rxForm,
    h.txForm⟩

/-- `finish` outside a cut decode (R18). -/
theorem State.Inv.finish {s : State} (h : s.Inv) {st : Status} (hst : st ≠ .protocolAnomaly)
    (hd : s.dphase = .idle ∨ s.cstate = .closed) : (finish st s).Inv :=
  ⟨h.released, rfl, h.decoder, h.valid, fun hne => Or.inr (hd.resolve_left hne), h.noKey, ⟨h.noAnomaly.1, hst⟩,
    h.rxCells, h.rxRoom, h.txRoom, h.rxForm, h.txForm⟩

/-- `Abort` from anywhere (R245). -/
theorem State.Inv.abort {s : State} (h : s.Inv) {st : Status} (hst : st ≠ .protocolAnomaly) : (abort st s).Inv :=
  ⟨⟨fun _ => rfl, fun _ => rfl⟩, rfl, h.decoder, h.valid, fun _ => Or.inr rfl, h.noKey, ⟨h.noAnomaly.1, hst⟩,
    h.rxCells, h.rxRoom, h.txRoom, h.rxForm, h.txForm⟩

/-- Accepting a command whose pseudocode is legal (R96). -/
theorem State.Inv.accept {s t : State} (h : s.Inv) {code : BitVec 4} {p : Progress} (hn : accept code p s = .next t)
    (hp : progressInv { s with busy := true, progress := p }) : t.Inv := by
  obtain ⟨hb, rfl⟩ := accept_cases hn
  have hi := h.idle_of_free hb
  refine ⟨h.released, ?_, h.decoder, h.valid, ?_, h.noKey, h.noAnomaly, h.rxCells, h.rxRoom, h.txRoom, h.rxForm,
    h.txForm⟩
  · unfold progressInv at hp ⊢
    cases p <;> exact hp
  · intro hd
    have hc := h.cut hd
    rw [hi] at hc
    exact Or.inr (hc.resolve_left (by simp))

/-- What a send command leaves to do is legal (R168). -/
theorem progressInv_send {s : State} {frame : List Byte} (hf : frame ≠ []) (hb : s.busy = true)
    (hp : s.progress = sendProgress frame s) : progressInv s := by
  unfold progressInv
  rw [hp]
  unfold sendProgress
  cases hc : s.cstate <;> simp [hb, hc, endingInv, List.length_pos_iff, hf]

/-- A send command that transmits TXBUF (R167, R168). -/
theorem State.Inv.sendPayload {s t : State} (h : s.Inv) {code : BitVec 4} {f : List Byte → List Byte}
    (hf : ∀ p, f p ≠ []) (hn : sendPayload code f s = .next t) : t.Inv := by
  unfold Sys2Proof.Machine.sendPayload at hn
  split at hn
  · rename_i hc
    refine h.accept hn ?_
    unfold progressInv
    simp [sendProgress, hc, endingInv]
  · exact h.accept hn (progressInv_send (hf _) rfl rfl)
  · split at hn <;> cases hn

/-! ### A READ in progress -/

/-- What holds throughout a READ, whatever the decoder's phase. -/
structure Decoding (s : State) : Prop where
  busy : s.busy = true
  decoding : s.progress = .decoding
  live : s.cstate ≠ .closed
  held : s.trel = false
  noKey : s.rxmask = false → s.rxkey = Key.zero
  noAnomaly : s.anomaly = false ∧ s.status ≠ .protocolAnomaly
  rxCells : ∀ a, (s.rxraw.read a).isSome = true ↔ a < s.rxcnt.toNat
  rxRoom : ∀ c, s.params.rxbufBytes = some c → s.rxcnt.toNat ≤ c
  txRoom : ∀ a, (s.txbuf.read a).isSome = true → inCapacity s.params.txbufBytes a = true
  rxForm : s.rxraw.wf = true
  txForm : s.txbuf.wf = true

theorem State.Inv.toDecoding {s : State} (h : s.Inv) (hp : s.progress = .decoding) : Decoding s := by
  have hd := h.progress
  unfold progressInv at hd
  rw [hp] at hd
  refine ⟨hd.1, hp, hd.2.1, ?_, h.noKey, h.noAnomaly, h.rxCells, h.rxRoom, h.txRoom, h.rxForm, h.txForm⟩
  cases ht : s.trel
  · rfl
  · exact absurd (h.released.1 ht) hd.2.1

/-- A decode that goes on in a phase other than IDLE. -/
theorem Decoding.inv {s : State} (h : Decoding s) (hd : s.dphase ≠ .idle) (hv : s.rxvalid = false)
    (hdec : decoderInv s) : s.Inv := by
  refine ⟨⟨fun ht => ?_, fun hc => absurd hc h.live⟩, ?_, hdec, fun hr => ?_, fun _ => Or.inl h.decoding, h.noKey,
    h.noAnomaly, h.rxCells, h.rxRoom, h.txRoom, h.rxForm, h.txForm⟩
  · rw [h.held] at ht
    cases ht
  · unfold progressInv
    rw [h.decoding]
    exact ⟨h.busy, h.live, hd⟩
  · rw [hv] at hr
    cases hr

/-- Every cell of the unmask view below RXCNT is readable (R65). -/
theorem plainRange_isSome {s : State} (n : Nat) {a : Nat}
    (h : ∀ x, a ≤ x → x < a + n → (s.rxraw.read x).isSome = true) : (plainRange s a n).isSome = true := by
  obtain ⟨raw, hraw⟩ := Option.isSome_iff_exists.1 ((Memory.readRange_isSome s.rxraw a n).2 h)
  rw [plainRange_eq n hraw]
  rfl

/-- A frame's reaction keeps the invariant, and none faults (R211). -/
theorem Decoding.reaction {s : State} (h : Decoding s) (hd : s.dphase = .idle) (hc : s.rxcnt = s.rxplen)
    (op : BitVec 4) :
    (∀ t, reactionOf op s = .next t → t.Inv) ∧ ∀ e, reactionOf op s ≠ .fault e := by
  have hdec : decoderInv s := by
    unfold decoderInv
    rw [hd]
    exact hc
  have hrel : s.trel = true ↔ s.cstate = .closed :=
    ⟨fun ht => absurd ht (by rw [h.held]; simp), fun hcl => absurd hcl h.live⟩
  unfold reactionOf
  split
  · unfold rxClose
    split
    · rename_i hcs
      split
      · exact ⟨fun t ht => (nomatch ht), fun e he => (nomatch he)⟩
      · rename_i hlen
        have r : ∀ a, a < 2 → ∃ b, plainByte s a = some b := by
          intro a ha
          have := (h.rxCells a).2 (by rw [hc]; omega)
          obtain ⟨b, hb⟩ := Option.isSome_iff_exists.1 this
          exact ⟨_, by unfold plainByte; rw [hb]⟩
        obtain ⟨b0, h0⟩ := r 0 (by omega)
        obtain ⟨b1, h1⟩ := r 1 (by omega)
        have hcode : rxCloseCode s = some (be16 b0 b1) := by
          unfold rxCloseCode
          rw [h0, h1]
        rw [hcode]
        refine ⟨fun t ht => ?_, fun e he => (nomatch he)⟩
        cases ht
        refine ⟨hrel, ?_, hdec, fun _ => hd, fun hne => absurd hd hne, h.noKey, h.noAnomaly, h.rxCells, h.rxRoom,
          h.txRoom, h.rxForm, h.txForm⟩
        refine ⟨h.busy, h.live, ?_, ?_, hcs⟩
        · rw [closeFrame_eq]
          simp
        · intro f hf
          unfold teardownFrames at hf
          split at hf
          · rw [List.mem_singleton] at hf
            rw [hf, closeFrame_eq]
            simp
          · cases hf
    · refine ⟨fun t ht => ?_, fun e he => (nomatch he)⟩
      cases ht
      exact ⟨⟨fun _ => rfl, fun _ => rfl⟩, rfl, hdec, fun _ => hd, fun hne => absurd hd hne, h.noKey,
        ⟨h.noAnomaly.1, by simp⟩, h.rxCells, h.rxRoom, h.txRoom, h.rxForm, h.txForm⟩
    · rename_i hcs
      exact absurd hcs h.live
  · split
    · unfold pongReply
      have hsome := plainRange_isSome (s := s) s.rxplen.toNat (a := 0)
        (fun x _ hx => (h.rxCells x).2 (by rw [hc]; omega))
      obtain ⟨p, hp⟩ := Option.isSome_iff_exists.1 hsome
      rw [hp]
      refine ⟨fun t ht => ?_, fun e he => (nomatch he)⟩
      cases ht
      refine ⟨hrel, ?_, hdec, fun _ => hd, fun hne => absurd hd hne, h.noKey, h.noAnomaly, h.rxCells, h.rxRoom,
        h.txRoom, h.rxForm, h.txForm⟩
      exact ⟨h.busy, h.live, List.length_pos_iff.2 (encodeFrame_ne_nil _ _ _ _ _), fun f hf => (nomatch hf),
        Or.inl rfl⟩
    · refine ⟨fun t ht => ?_, fun e he => (nomatch he)⟩
      cases ht
      exact ⟨hrel, rfl, hdec, fun _ => hd, fun hne => absurd hd hne, h.noKey,
        ⟨h.noAnomaly.1, by simp⟩, h.rxCells, h.rxRoom, h.txRoom, h.rxForm, h.txForm⟩

/-- `Complete()` (R138). -/
theorem Decoding.complete {s : State} (h : Decoding s) (hc : s.rxcnt = s.rxplen) :
    (∀ t, completeFrame s = .next t → t.Inv) ∧ ∀ e, completeFrame s ≠ .fault e := by
  have hrow : rxRow s = rxRow (frameDone s) := rfl
  rw [completeFrame_eq, hrow, exec_rxRow (s := frameDone s) rfl]
  exact Decoding.reaction (s := frameDone s)
    ⟨h.busy, h.decoding, h.live, h.held, h.noKey, h.noAnomaly, h.rxCells, h.rxRoom, h.txRoom, h.rxForm, h.txForm⟩
    rfl hc _

/-- `StartPayload()` (R130). -/
theorem Decoding.startPayload {s : State} (h : Decoding s) (hv : s.rxvalid = false) (hc : s.rxcnt = 0) :
    (∀ t, startPayload s = .next t → t.Inv) ∧ ∀ e, startPayload s ≠ .fault e := by
  unfold Sys2Proof.Machine.startPayload
  split
  · rename_i hl
    exact h.complete (by rw [hc, hl])
  · rename_i hl
    refine ⟨fun t ht => ?_, fun e he => (nomatch he)⟩
    cases ht
    refine Decoding.inv
      ⟨h.busy, h.decoding, h.live, h.held, h.noKey, h.noAnomaly, h.rxCells, h.rxRoom, h.txRoom, h.rxForm, h.txForm⟩
      (by simp) hv ?_
    show s.rxcnt.toNat < s.rxplen.toNat
    rw [hc]
    rcases Nat.eq_zero_or_pos s.rxplen.toNat with h0 | h0
    · exact absurd (BitVec.eq_of_toNat_eq h0) hl
    · exact h0

/-- `AfterLength()` (R130). -/
theorem Decoding.afterLength {s : State} (h : Decoding s) (hv : s.rxvalid = false) (hc : s.rxcnt = 0) :
    (∀ t, afterLength s = .next t → t.Inv) ∧ ∀ e, afterLength s ≠ .fault e := by
  unfold Sys2Proof.Machine.afterLength
  split
  · rename_i hm
    refine ⟨fun t ht => ?_, fun e he => (nomatch he)⟩
    cases ht
    exact Decoding.inv
      ⟨h.busy, h.decoding, h.live, h.held, h.noKey, h.noAnomaly, h.rxCells, h.rxRoom, h.txRoom, h.rxForm, h.txForm⟩
      (by simp) hv ⟨hm, hc, (by decide : (0 : BitVec 4).toNat < 4)⟩
  · exact h.startPayload hv hc

/-- One byte of the stream (R120). -/
theorem takeByte_inv {s : State} (h : s.Inv) (hp : s.progress = .decoding) (b : Byte) :
    (∀ t, takeByte b s = .next t → t.Inv) ∧ ∀ e, takeByte b s ≠ .fault e := by
  have hD := h.toDecoding hp
  have hdec := h.decoder
  have hv : s.dphase ≠ .idle → s.rxvalid = false := by
    intro hne
    cases hr : s.rxvalid
    · rfl
    · exact absurd (h.valid hr) hne
  have hpi := h.progress
  unfold progressInv at hpi
  rw [hp] at hpi
  unfold decoderInv at hdec
  unfold takeByte
  cases hd : s.dphase with
  | idle => exact absurd hd hpi.2.2
  | hdr0 =>
    rw [hd] at hdec
    simp only
    rw [exec_decodeOpcode_header b (by rw [hd]; simp)]
    refine ⟨fun t ht => ?_, fun e he => (nomatch he)⟩
    cases ht
    exact Decoding.inv
          ⟨hD.busy, hD.decoding, hD.live, hD.held, hD.noKey, hD.noAnomaly, hD.rxCells, hD.rxRoom, hD.txRoom,
            hD.rxForm, hD.txForm⟩
            (by simp [hdr0]) (hv (by rw [hd]; simp)) hdec
  | hdr1 =>
    rw [hd] at hdec
    simp only
    obtain ⟨hm, hl, hc⟩ := hdec
    have hk := hD.noKey hm
    rw [exec_decodeLength]
    split
    · rename_i hx
      refine ⟨fun t ht => ?_, fun e he => (nomatch he)⟩
      cases ht
      refine Decoding.inv
          ⟨hD.busy, hD.decoding, hD.live, hD.held, fun _ => hk, hD.noAnomaly, hD.rxCells, hD.rxRoom, hD.txRoom,
            hD.rxForm, hD.txForm⟩
            (by simp [startExtLen, hdr1]) (hv (by rw [hd]; simp)) ?_
      refine ⟨hx, hc, hk, ?_, ?_⟩
      · rcases hx with h | h <;> simp [startExtLen, hdr1, h, xlen]
      · simp [startExtLen, hdr1, hl]
    · refine Decoding.afterLength
          ⟨hD.busy, hD.decoding, hD.live, hD.held, fun _ => hk, hD.noAnomaly, hD.rxCells, hD.rxRoom, hD.txRoom,
            hD.rxForm, hD.txForm⟩
            (hv (by rw [hd]; simp)) hc
  | extlen =>
    rw [hd] at hdec
    obtain ⟨hx, hc, hk, hi, hl⟩ := hdec
    simp only
    by_cases hlast : s.didx + 1 = xlen s.rxlen7
    · have hal : takeExtLen b s = afterLength { s with rxplen := pushByte s.rxplen b, didx := xlen s.rxlen7 } := by
        rw [takeExtLen_last b hlast, afterLength_eq]
      rw [hal]
      refine Decoding.afterLength
          ⟨hD.busy, hD.decoding, hD.live, hD.held, fun _ => hk, hD.noAnomaly, hD.rxCells, hD.rxRoom, hD.txRoom,
            hD.rxForm, hD.txForm⟩
            (hv (by rw [hd]; simp)) hc
    · rw [takeExtLen_more b hlast]
      refine ⟨fun t ht => ?_, fun e he => (nomatch he)⟩
      cases ht
      have hx8 : (xlen s.rxlen7).toNat ≤ 8 := by rcases hx with h | h <;> rw [h] <;> decide
      have hne : (s.didx + 1).toNat ≠ (xlen s.rxlen7).toNat := fun h => hlast (BitVec.eq_of_toNat_eq h)
      have hi1 : (s.didx + 1).toNat = s.didx.toNat + 1 := by simp; omega
      refine Decoding.inv
          ⟨hD.busy, hD.decoding, hD.live, hD.held, fun _ => hk, hD.noAnomaly, hD.rxCells, hD.rxRoom, hD.txRoom,
            hD.rxForm, hD.txForm⟩
            (by simp [hd]) (hv (by rw [hd]; simp)) ?_
      unfold decoderInv
      rw [show ({ s with rxplen := pushByte s.rxplen b, didx := s.didx + 1 } : State).dphase = .extlen from hd]
      refine ⟨hx, hc, hk, ?_, ?_⟩
      · show (s.didx + 1).toNat < _
        rw [hi1] at hne ⊢
        show _ < (xlen s.rxlen7).toNat
        omega
      · show (pushByte s.rxplen b).toNat < 2 ^ (8 * (s.didx + 1).toNat)
        rw [pushByte_toNat, hi1]
        have := b.isLt
        have e : 2 ^ (8 * (s.didx.toNat + 1)) = 2 ^ (8 * s.didx.toNat) * 256 := by rw [Nat.mul_add, Nat.pow_add]
        rw [e]
        have := Nat.mod_le (s.rxplen.toNat * 256 + b.toNat) (2^64)
        omega
  | key =>
    rw [hd] at hdec
    obtain ⟨hm, hc, hi⟩ := hdec
    simp only
    have hnk : ∀ k, s.rxmask = false → k = Key.zero := by rw [hm]; intro k h; cases h
    by_cases hlast : s.didx + 1 = 4
    · rw [takeKey_last b hlast]
      exact Decoding.startPayload
          ⟨hD.busy, hD.decoding, hD.live, hD.held, hnk _, hD.noAnomaly, hD.rxCells, hD.rxRoom, hD.txRoom,
            hD.rxForm, hD.txForm⟩
            (hv (by rw [hd]; simp)) hc
    · rw [takeKey_more b hlast]
      refine ⟨fun t ht => ?_, fun e he => (nomatch he)⟩
      cases ht
      refine Decoding.inv
          ⟨hD.busy, hD.decoding, hD.live, hD.held, hnk _, hD.noAnomaly, hD.rxCells, hD.rxRoom, hD.txRoom,
            hD.rxForm, hD.txForm⟩
            (by simp [hd]) (hv (by rw [hd]; simp)) ?_
      unfold decoderInv
      rw [show ({ s with rxkey := s.rxkey.set s.didx b, didx := s.didx + 1 } : State).dphase = .key from hd]
      refine ⟨hm, hc, ?_⟩
      have hne : (s.didx + 1).toNat ≠ 4 := fun h => hlast (BitVec.eq_of_toNat_eq h)
      show (s.didx + 1).toNat < 4
      have hi1 : (s.didx + 1).toNat = s.didx.toNat + 1 := by simp; omega
      omega
  | payload =>
    rw [hd] at hdec
    simp only
    have hcl := s.rxplen.isLt
    have hc1 : (s.rxcnt + 1).toNat = s.rxcnt.toNat + 1 := by simp; omega
    by_cases hcap : inCapacity s.params.rxbufBytes s.rxcnt.toNat = true
    · have hcells : ∀ a, ((s.rxraw.write s.rxcnt.toNat b).read a).isSome = true ↔ a < (s.rxcnt + 1).toNat := by
        intro a
        rw [Memory.read_write, hc1]
        split
        · simp; omega
        · rw [hD.rxCells a]; omega
      have hroom : ∀ c, s.params.rxbufBytes = some c → (s.rxcnt + 1).toNat ≤ c := by
        intro c hcc
        rw [hcc] at hcap
        simp [inCapacity] at hcap
        rw [hc1]; omega
      by_cases hlast : s.rxcnt + 1 = s.rxplen
      · rw [takePayload_last b hcap hlast]
        exact Decoding.complete
          ⟨hD.busy, hD.decoding, hD.live, hD.held, hD.noKey, hD.noAnomaly, hcells, hroom, hD.txRoom,
            Memory.wf_write hD.rxForm _ _, hD.txForm⟩ hlast
      · rw [takePayload_more b hcap hlast]
        refine ⟨fun t ht => ?_, fun e he => (nomatch he)⟩
        cases ht
        refine Decoding.inv
          ⟨hD.busy, hD.decoding, hD.live, hD.held, hD.noKey, hD.noAnomaly, hcells, hroom, hD.txRoom,
            Memory.wf_write hD.rxForm _ _, hD.txForm⟩
            (by simp [hd]) (hv (by rw [hd]; simp)) ?_
        unfold decoderInv
        rw [show ({ s with rxraw := s.rxraw.write s.rxcnt.toNat b, rxcnt := s.rxcnt + 1 } : State).dphase = .payload
          from hd]
        show (s.rxcnt + 1).toNat < s.rxplen.toNat
        have hne : (s.rxcnt + 1).toNat ≠ s.rxplen.toNat := fun h => hlast (BitVec.eq_of_toNat_eq h)
        omega
    · unfold takePayload
      rw [if_neg hcap]
      exact ⟨fun t ht => (nomatch ht), fun e he => (nomatch he)⟩

end Sys2Proof.Machine
end

