-- ==== Sys2Proof/Laws/PerInstr.lean ====
section
/-! SUPPORT. Statements made for every instruction: its encoding against its row of the opcode table. -/

namespace Sys2Proof.Laws.Encoding

/-- A row of the opcode table: the place its bits stand, the mask of the bits it fixes and their values, in the byte they
stand in (R81, R82, R83, R95). LEN7 fixes none. -/
def row : Instr → Slot × Byte × Byte
  | .nop => (.command, 0xFF, 0x00)
  | .read => (.command, 0xFF, 0x01)
  | .sendText => (.command, 0xFF, 0x02)
  | .sendBinary => (.command, 0xFF, 0x03)
  | .sendPing => (.command, 0xFF, 0x04)
  | .sendClose => (.command, 0xFF, 0x05)
  | .close => (.command, 0xFF, 0x06)
  | .sendFrame => (.command, 0xFF, 0x07)
  | .unassigned _ => (.command, 0xF8, 0x08)
  | .frameContinuation _ _ => (.opcode, 0x0F, 0x00)
  | .frameText _ _ => (.opcode, 0x0F, 0x01)
  | .frameBinary _ _ => (.opcode, 0x0F, 0x02)
  | .frameClose _ _ => (.opcode, 0x0F, 0x08)
  | .framePing _ _ => (.opcode, 0x0F, 0x09)
  | .framePong _ _ => (.opcode, 0x0F, 0x0A)
  | .frameOpaque3 _ _ => (.opcode, 0x0F, 0x03)
  | .frameOpaque4 _ _ => (.opcode, 0x0F, 0x04)
  | .frameOpaque5 _ _ => (.opcode, 0x0F, 0x05)
  | .frameOpaque6 _ _ => (.opcode, 0x0F, 0x06)
  | .frameOpaque7 _ _ => (.opcode, 0x0F, 0x07)
  | .frameOpaqueB _ _ => (.opcode, 0x0F, 0x0B)
  | .frameOpaqueC _ _ => (.opcode, 0x0F, 0x0C)
  | .frameOpaqueD _ _ => (.opcode, 0x0F, 0x0D)
  | .frameOpaqueE _ _ => (.opcode, 0x0F, 0x0E)
  | .frameOpaqueF _ _ => (.opcode, 0x0F, 0x0F)
  | .len7 _ _ => (.length, 0x00, 0x00)
  | .len16 _ => (.length, 0x7F, 0x7E)
  | .len64 _ => (.length, 0x7F, 0x7F)
  | .keyPresent => (.maskBit, 0x80, 0x80)
  | .keyAbsent => (.maskBit, 0x80, 0x00)

/-- A byte-1 value that LEN7's constraint leaves to it (`l` at most 125). -/
def len7Byte (b : Byte) : Bool := decide ((b &&& 0x7F).toNat ≤ 125)

/-- A well-formed instruction is encoded where its row stands, with the bits its row fixes; LEN7 keeps its constraint. -/
abbrev Statement (i : Instr) : Prop :=
  i.wf = true → (encode i).1 = (row i).1 ∧ (encode i).2 &&& (row i).2.1 = (row i).2.2 ∧
    ((encode i).1 = .length → (row i).2.1 = 0 → len7Byte (encode i).2 = true)

theorem nop : Statement .nop := by
  decide

theorem read : Statement .read := by
  decide

theorem sendText : Statement .sendText := by
  decide

theorem sendBinary : Statement .sendBinary := by
  decide

theorem sendPing : Statement .sendPing := by
  decide

theorem sendClose : Statement .sendClose := by
  decide

theorem close : Statement .close := by
  decide

theorem sendFrame : Statement .sendFrame := by
  decide

theorem unassigned (c : BitVec 3) : Statement (.unassigned c) := by
  revert c
  decide

theorem frameContinuation (fin : Bool) (rsv : BitVec 3) : Statement (.frameContinuation fin rsv) := by
  revert fin rsv
  decide

theorem frameText (fin : Bool) (rsv : BitVec 3) : Statement (.frameText fin rsv) := by
  revert fin rsv
  decide

theorem frameBinary (fin : Bool) (rsv : BitVec 3) : Statement (.frameBinary fin rsv) := by
  revert fin rsv
  decide

theorem frameClose (fin : Bool) (rsv : BitVec 3) : Statement (.frameClose fin rsv) := by
  revert fin rsv
  decide

theorem framePing (fin : Bool) (rsv : BitVec 3) : Statement (.framePing fin rsv) := by
  revert fin rsv
  decide

theorem framePong (fin : Bool) (rsv : BitVec 3) : Statement (.framePong fin rsv) := by
  revert fin rsv
  decide

theorem frameOpaque3 (fin : Bool) (rsv : BitVec 3) : Statement (.frameOpaque3 fin rsv) := by
  revert fin rsv
  decide

theorem frameOpaque4 (fin : Bool) (rsv : BitVec 3) : Statement (.frameOpaque4 fin rsv) := by
  revert fin rsv
  decide

theorem frameOpaque5 (fin : Bool) (rsv : BitVec 3) : Statement (.frameOpaque5 fin rsv) := by
  revert fin rsv
  decide

theorem frameOpaque6 (fin : Bool) (rsv : BitVec 3) : Statement (.frameOpaque6 fin rsv) := by
  revert fin rsv
  decide

theorem frameOpaque7 (fin : Bool) (rsv : BitVec 3) : Statement (.frameOpaque7 fin rsv) := by
  revert fin rsv
  decide

theorem frameOpaqueB (fin : Bool) (rsv : BitVec 3) : Statement (.frameOpaqueB fin rsv) := by
  revert fin rsv
  decide

theorem frameOpaqueC (fin : Bool) (rsv : BitVec 3) : Statement (.frameOpaqueC fin rsv) := by
  revert fin rsv
  decide

theorem frameOpaqueD (fin : Bool) (rsv : BitVec 3) : Statement (.frameOpaqueD fin rsv) := by
  revert fin rsv
  decide

theorem frameOpaqueE (fin : Bool) (rsv : BitVec 3) : Statement (.frameOpaqueE fin rsv) := by
  revert fin rsv
  decide

theorem frameOpaqueF (fin : Bool) (rsv : BitVec 3) : Statement (.frameOpaqueF fin rsv) := by
  revert fin rsv
  decide

theorem len7 (mask : Bool) (l : BitVec 7) : Statement (.len7 mask l) := by
  revert mask l
  decide

theorem len16 (mask : Bool) : Statement (.len16 mask) := by
  revert mask
  decide

theorem len64 (mask : Bool) : Statement (.len64 mask) := by
  revert mask
  decide

theorem keyPresent : Statement .keyPresent := by
  decide

theorem keyAbsent : Statement .keyAbsent := by
  decide

end Sys2Proof.Laws.Encoding
end

