-- ==== Sys2Proof/Tests/Slice0.lean ====
section
/-! SUPPORT. Tests: words written out from the spec's encodings, the spec's worked examples and vectors
(`spec/95_test_vectors.md`), and for every statement with hypotheses a state that meets them. -/

namespace Sys2Proof.Tests

open Sys2Proof Sys2Proof.Machine

/-! ### Small states -/

/-- A transport that takes `n` bytes and delivers the symbols `rx`. -/
def wire (rx : List RxSym) (n : Nat) : Transport := { rx := rx, answers := List.replicate n .ok, sent := [] }

/-- A connection in CSTATE `c`, no command in progress. -/
def conn (c : CState) : State :=
  { State.reset with cstate := c, trel := decide (c = .closed), transport := wire [] 12 }

/-- A connection with the payload `p` in TXBUF and TXLEN. -/
def loaded (c : CState) (p : List Byte) : State :=
  { conn c with txbuf := cellsFrom 0 p, txlen := BitVec.ofNat 64 p.length }

/-- READ in progress in CSTATE `c`, nothing taken yet, the bytes `bs` ready. -/
def reading (c : CState) (bs : List Byte) : State :=
  readStart { conn c with cmd := 0x1, busy := true, progress := .decoding, transport := wire (bs.map .byte) 12 }

/-- A frame just completed, about to get its reaction: unmasked payload `p`. -/
def received (c : CState) (op : BitVec 4) (p : List Byte) : State :=
  { reading c [] with
    rxop := op, rxraw := cellsFrom 0 p, rxplen := BitVec.ofNat 64 p.length, rxcnt := BitVec.ofNat 64 p.length
    dphase := .idle, rxvalid := true }

/-- The state a result goes on with. -/
def nextOf (r : Result) : Option State :=
  match r with
  | .next t => some t
  | _ => none

/-- The refusal a result stops with. -/
def refusalOf (r : Result) : Option Refusal :=
  match r with
  | .refused e => some e
  | _ => none

/-- What `f` sees after one instruction and `n` steps. -/
def after {α : Type} (i : Instr) (n : Nat) (s : State) (f : State → α) : Option α :=
  match exec i s with
  | .next t => (nextOf (run n t)).map f
  | _ => none

/-- What `f` sees after `n` steps. -/
def sees {α : Type} (n : Nat) (s : State) (f : State → α) : Option α := (nextOf (run n s)).map f

/-! ### Well-formedness: 126 and 127 are no inline lengths (R88) -/

theorem test_wf_refuses_len7_126 : (Instr.len7 false 126).wf = false := by decide
theorem test_wf_refuses_len7_127 : (Instr.len7 true 127).wf = false := by decide
theorem test_wf_len7_125 : (Instr.len7 true 125).wf = true := by decide

/-! ### Decoding: words written out from R81, R82, R85, R86, R88, R90 and R95 -/

theorem test_decode_commands :
    decode .command 0b0000 = .ok .nop ∧ decode .command 0b0001 = .ok .read ∧
      decode .command 0b0010 = .ok .sendText ∧ decode .command 0b0011 = .ok .sendBinary ∧
      decode .command 0b0100 = .ok .sendPing ∧ decode .command 0b0101 = .ok .sendClose ∧
      decode .command 0b0110 = .ok .close ∧ decode .command 0b0111 = .ok .sendFrame ∧
      decode .command 0b1000 = .ok (.unassigned 0) ∧ decode .command 0b1111 = .ok (.unassigned 7) :=
  ⟨rfl, rfl, rfl, rfl, rfl, rfl, rfl, rfl, rfl, rfl⟩

theorem test_decode_refuses_wide_command : decode .command 0b00010001 = .error .commandTooWide := rfl

/-- Byte 0 is F rrr oooo. -/
theorem test_decode_opcodes :
    decode .opcode 0b10000000 = .ok (.frameContinuation true 0) ∧ decode .opcode 0b00010001 = .ok (.frameText false 1) ∧
      decode .opcode 0b10100010 = .ok (.frameBinary true 2) ∧ decode .opcode 0b01000011 = .ok (.frameOpaque3 false 4) ∧
      decode .opcode 0b10000100 = .ok (.frameOpaque4 true 0) ∧ decode .opcode 0b11110101 = .ok (.frameOpaque5 true 7) ∧
      decode .opcode 0b00000110 = .ok (.frameOpaque6 false 0) ∧ decode .opcode 0b00010111 = .ok (.frameOpaque7 false 1) ∧
      decode .opcode 0b10001000 = .ok (.frameClose true 0) ∧ decode .opcode 0b00101001 = .ok (.framePing false 2) ∧
      decode .opcode 0b11001010 = .ok (.framePong true 4) ∧ decode .opcode 0b10001011 = .ok (.frameOpaqueB true 0) ∧
      decode .opcode 0b00001100 = .ok (.frameOpaqueC false 0) ∧ decode .opcode 0b10111101 = .ok (.frameOpaqueD true 3) ∧
      decode .opcode 0b01011110 = .ok (.frameOpaqueE false 5) ∧ decode .opcode 0b01111111 = .ok (.frameOpaqueF false 7) :=
  ⟨rfl, rfl, rfl, rfl, rfl, rfl, rfl, rfl, rfl, rfl, rfl, rfl, rfl, rfl, rfl, rfl⟩

/-- Byte 1 is M lllllll. -/
theorem test_decode_lengths :
    decode .length 0b00000000 = .ok (.len7 false 0) ∧ decode .length 0b11111101 = .ok (.len7 true 125) ∧
      decode .length 0b11111110 = .ok (.len16 true) ∧ decode .length 0b01111111 = .ok (.len64 false) ∧
      decode .maskBit 0b10000000 = .ok .keyPresent ∧ decode .maskBit 0b01111111 = .ok .keyAbsent :=
  ⟨rfl, rfl, rfl, rfl, rfl, rfl⟩

/-- The encodings the other way: the same words. -/
theorem test_encode_words :
    encode .close = (.command, 0b0110) ∧ encode (.unassigned 0b101) = (.command, 0b1101) ∧
      encode (.framePing true 0) = (.opcode, 0b10001001) ∧ encode (.len7 true 5) = (.length, 0b10000101) ∧
      encode (.len64 false) = (.length, 0b01111111) ∧ encode .keyPresent = (.maskBit, 0b10000000) :=
  ⟨rfl, rfl, rfl, rfl, rfl, rfl⟩

/-- Table words (R83): byte 0 is bits 15..8; log 9 for the words of the byte-1 rows. -/
theorem test_table_words :
    decodeTableWord 8 0x6 = some .close ∧ decodeTableWord 8 0xC = some (.unassigned 4) ∧
      decodeTableWord 16 0x8900 = some (.framePing true 0) ∧ decodeTableWord 16 0x0F80 = some (.frameOpaqueF false 0) ∧
      decodeTableWord 16 0x0005 = some (.len7 false 5) ∧ decodeTableWord 16 0x007E = some (.len16 false) ∧
      decodeTableWord 16 0x00FF = some (.len64 true) ∧ decodeTableWord 16 0x0080 = some .keyPresent ∧
      decodeTableWord 16 0x0000 = some (.frameContinuation false 0) ∧ decodeTableWord 8 0x10 = none :=
  ⟨rfl, rfl, rfl, rfl, rfl, rfl, rfl, rfl, rfl, rfl⟩

/-! ### The host's probe: the placed word is the first to run after reset (log 10) -/

theorem test_fetch_close :
    sees 1 (State.reset.withFetchWord 8 0x6) (fun t => (t.cmd, t.busy)) = some (0x6, true) := by decide
theorem test_fetch_ping :
    sees 1 (State.reset.withFetchWord 16 0x8900) (fun t => (t.rxop, t.rxfin, t.dphase)) = some (0x9, true, .hdr1) := by
  decide
theorem test_fetch_len16 :
    sees 1 (State.reset.withFetchWord 16 0x007E) (fun t => (t.rxlen7, t.dphase)) = some (126, .extlen) := by decide
theorem test_fetch_key :
    sees 1 (State.reset.withFetchWord 16 0x0080) (fun t => (t.rxmask, t.dphase)) = some (true, .key) := by decide

/-! ### Commands (vectors V-E and V-C of `spec/95_test_vectors.md`) -/

/-- V-C5. -/
theorem test_nop : after .nop 1 (conn .closed) (fun t => (t.status, t.cstate, t.busy)) = some (.ok, .closed, false) := by
  decide
/-- V-C6. -/
theorem test_unassigned :
    after (.unassigned 0b100) 1 (conn .established) (fun t => (t.status, t.cmd)) = some (.illegalCommand, 0xC) := by decide
/-- V-E1. -/
theorem test_send_text :
    after .sendText 5 (loaded .established [0x48, 0x69]) (fun t => (t.transport.sent, t.txcnt, t.status)) =
      some ([0x81, 0x02, 0x48, 0x69], 4, .ok) := by decide
/-- V-E3. -/
theorem test_send_binary :
    after .sendBinary 6 (loaded .established [1, 2, 3]) (fun t => t.transport.sent) = some [0x82, 0x03, 1, 2, 3] := by
  decide
/-- V-E4. -/
theorem test_send_ping :
    after .sendPing 5 (loaded .closing [0x61, 0x62]) (fun t => (t.transport.sent, t.cstate)) =
      some ([0x89, 0x02, 0x61, 0x62], .closing) := by decide
/-- V-E5 with code 4000. -/
theorem test_send_close :
    after .sendClose 5 { conn .established with txcode := 4000 } (fun t => (t.transport.sent, t.cstate)) =
      some ([0x88, 0x02, 0x0F, 0xA0], .established) := by decide
/-- V-E6. -/
theorem test_send_frame_masked :
    after .sendFrame 12
      { loaded .established [0x48, 0x65, 0x6C, 0x6C, 0x6F] with
        txfin := true, txop := 1, txmask := true, txkey := Key.unpack 0x37FA213D }
      (fun t => t.transport.sent) =
      some [0x81, 0x85, 0x37, 0xFA, 0x21, 0x3D, 0x7F, 0x9F, 0x4D, 0x51, 0x58] := by decide
/-- V-E14. -/
theorem test_send_unwritten : refusalOf (exec .sendText { conn .established with txlen := 1 }) = some .txPayload := by
  decide
/-- V-E13: the transport fails byte 3. -/
theorem test_write_fail :
    after .sendText 4
      { loaded .established [0x48, 0x69] with
        transport := { rx := [], answers := [.ok, .ok, .ok, .fail], sent := [] } }
      (fun t => (t.transport.sent, t.txcnt, t.status, t.cstate, t.trel)) =
      some ([0x81, 0x02, 0x48], 3, .transportError, .closed, true) := by decide
/-- V-C1. -/
theorem test_close_established :
    after .close 5 (conn .established) (fun t => (t.transport.sent, t.cstate, t.trel)) =
      some ([0x88, 0x02, 0x03, 0xE8], .closing, false) := by decide
/-- V-C2. -/
theorem test_close_closing :
    after .close 1 (conn .closing) (fun t => (t.transport.sent, t.cstate, t.trel)) = some ([], .closed, true) := by decide

/-! ### READ (vectors V-D) -/

/-- V-D18: READ in Closed takes nothing. -/
theorem test_read_closed :
    after .read 1 { conn .closed with transport := wire [.byte 0x81, .byte 0] 0 }
      (fun t => (t.status, t.transport.rx.length, t.dphase)) = some (.transportError, 2, .idle) := by decide
/-- V-D2. -/
theorem test_read_masked_text :
    sees 11 (reading .established [0x81, 0x85, 0x37, 0xFA, 0x21, 0x3D, 0x7F, 0x9F, 0x4D, 0x51, 0x58])
      (fun t => (t.status, t.rxvalid, t.rxkey.pack, plainRange t 0 5)) =
      some (.ok, true, 0x37FA213D, some [0x48, 0x65, 0x6C, 0x6C, 0x6F]) := by decide
/-- V-D3, V-S2. -/
theorem test_read_len16 :
    sees 4 (reading .established [0x82, 0x7E, 0x00, 0x05]) (fun t => (t.rxplen, t.rxlen7, t.dphase, t.didx)) =
      some (5, 126, .payload, 2) := by decide
/-- V-D17: bit 63 is kept. -/
theorem test_read_len64 :
    sees 10 (reading .established [0x82, 0x7F, 0x80, 0, 0, 0, 0, 0, 0, 0]) (fun t => (t.rxplen.toNat, t.dphase)) =
      some (9223372036854775808, .payload) := by decide
/-- V-D8: RSV is ignored, the opaque opcode kept (V-D9). -/
theorem test_read_rsv : sees 2 (reading .established [0xF1, 0x00]) (fun t => (t.rxop, t.rxfin, t.status, t.busy)) =
    some (1, true, .ok, false) := by decide
theorem test_read_opaque :
    sees 3 (reading .established [0x83, 0x01, 0x00]) (fun t => (t.rxop, t.rxraw, t.status)) =
      some (3, [(0, 0)], .ok) := by decide
/-- V-D28: a Pong takes no reaction. -/
theorem test_read_pong :
    sees 3 (reading .established [0x8A, 0x01, 0x7A]) (fun t => (t.transport.sent, t.busy, t.status)) =
      some ([], false, .ok) := by decide
/-- V-D20: a masked Ping is answered unmasked. -/
theorem test_read_ping :
    sees 13 (reading .established [0x89, 0x82, 0x11, 0x22, 0x33, 0x44, 0x70, 0x40])
      (fun t => (t.transport.sent, t.status, t.busy, t.cstate)) =
      some ([0x8A, 0x02, 0x61, 0x62], .ok, false, .established) := by decide
/-- V-D21. -/
theorem test_read_close_established :
    sees 13 (reading .established [0x88, 0x02, 0x03, 0xE9]) (fun t => (t.transport.sent, t.cstate, t.trel, t.txcnt)) =
      some ([0x88, 0x02, 0x03, 0xE9, 0x88, 0x02, 0x03, 0xE8], .closing, false, 8) := by decide
/-- V-D24. -/
theorem test_read_close_closing :
    sees 2 (reading .closing [0x88, 0x00]) (fun t => (t.transport.sent, t.cstate, t.trel, t.status)) =
      some ([], .closed, true, .ok) := by decide
/-- V-D24b. -/
theorem test_read_short_close : refusalOf (run 2 (reading .established [0x88, 0x00])) = some .shortCloseBody := by decide
/-- V-D29. -/
theorem test_read_overflow :
    refusalOf (run 5
      { reading .established [0x82, 0x03, 1, 2, 3] with params := { Params.default with rxbufBytes := some 2 } }) =
      some .rxBufferOverflow := by decide
/-- V-D14: the stream ends in the key. -/
theorem test_read_cut_key :
    sees 5 { reading .established [] with
        transport := wire [.byte 0x81, .byte 0x85, .byte 0x37, .byte 0xFA, .eos] 0 }
      (fun t => (t.status, t.cstate, t.dphase, t.didx, t.rxkey.pack, t.rxvalid)) =
      some (.frameFormatError, .closed, .key, 2, 0x37FA0000, false) := by decide
/-- V-D11. -/
theorem test_read_clean_eos :
    sees 1 { reading .established [] with transport := wire [.eos] 0 } (fun t => (t.status, t.dphase)) =
      some (.transportError, .hdr0) := by decide

/-! ### Encoder and masker (V-H, V-M), byte order (R14) and key packing (R44) -/

theorem test_mask_M3 : maskBytes (Key.unpack 0x0FF000FF) [0xFF, 0xFF, 0xFF, 0xFF, 0xFF, 0xFF] =
    [0xF0, 0x0F, 0xFF, 0x00, 0xF0, 0x0F] := by decide
theorem test_header_H3 : lengthField true 125 = [0xFD] := by decide
theorem test_header_H4 : lengthField false 126 = [0x7E, 0x00, 0x7E] := by decide
theorem test_header_H6 : lengthField true 65535 = [0xFE, 0xFF, 0xFF] := by decide
theorem test_header_H7 : lengthField false 65536 = [0x7F, 0, 0, 0, 0, 0, 1, 0, 0] := by decide
theorem test_be16 : be16 0x12 0x34 = 0x1234 := by decide
theorem test_be64 : be64 1 2 3 4 5 6 7 8 = 0x0102030405060708 := by decide
theorem test_key_pack : (Key.unpack 0x37FA213D).pack = 0x37FA213D ∧ (Key.unpack 0x37FA213D).k0 = 0x37 := by decide

/-! ### The host interface -/

theorem test_read_register_key :
    readRegister { State.reset with rxkey := Key.unpack 0x01020304 } 0x0E = 0x01020304 := by decide
theorem test_reserved_register : readRegister (conn .closing) 0x17 = 0 ∧ readRegister (conn .closing) 0x03 = 1 := by decide
theorem test_write_busy :
    refusalOf (hostWriteReg 0x14 1 { State.reset with busy := true }) = some .hostWriteWhileBusy := by decide
theorem test_write_too_wide : refusalOf (hostWriteReg 0x15 65536 State.reset) = some .valueTooWide := by decide
theorem test_txbuf_capacity :
    refusalOf (hostWriteBuf 2 0 { State.reset with params := { Params.default with txbufBytes := some 2 } }) =
      some .noSuchBufferAddress := by decide
/-- R110, R112: WAIT's polls are reads of register 0x02, one a step, until it reads 0; the block's turns lie between. -/
theorem test_wait_polls :
    sees 6 { conn .closed with hostQueue := commandLine 0x0, turns := [.host, .host, .host, .block, .host, .host] }
      (fun t => (t.hostReads, t.hostQueue)) = some ([1, 1, 0], []) := by decide
/-- V-D31: a declared length beyond RXBUF_BYTES refuses nothing before a byte beyond it arrives. -/
theorem test_short_frame_in_small_buffer :
    sees 5 { reading .established [] with
        params := { Params.default with rxbufBytes := some 2 }
        transport := wire [.byte 0x82, .byte 0x7E, .byte 0x01, .byte 0x00, .eos] 0 }
      (fun t => (t.status, t.dphase, t.rxplen, t.rxcnt)) = some (.frameFormatError, .payload, 256, 0) := by decide
/-- The memory keeps its canonical form. -/
theorem test_memory_form : Memory.write [(1, 0xA), (3, 0xB)] 2 0xC = [(1, 0xA), (2, 0xC), (3, 0xB)] := by decide

/-! ### Witnesses: every statement's hypotheses can be met, clause by clause -/

/-- A host turn with `a` to do next. -/
def hostDo (a : BusAction) (s : State) : State := { s with hostQueue := [a] }

/-- A READ in phase `d` with the symbols `rx` to come. -/
def inPhase (d : DPhase) (rx : List RxSym) : State :=
  { reading .established [] with dphase := d, transport := wire rx 0 }

theorem witness_ResetEventStartsNewConnection :
    nextAgent (hostDo (.reset (wire [.eos] 3)) (conn .closed)) = .host ∧
      (hostDo (.reset (wire [.eos] 3)) (conn .closed)).hostQueue = .reset (wire [.eos] 3) :: [] := by decide

theorem witness_DecodeOfEncode : (Instr.len7 true 125).wf = true := by decide

theorem witness_EncodeOfDecode :
    decode .command 0xF = .ok (.unassigned 7) ∧ decode .maskBit 0xFF = .ok .keyPresent := ⟨rfl, rfl⟩

theorem witness_HostCommandWriteRunsDecoded :
    nextAgent (hostDo (.writeReg 0x00 15) State.reset) = .host ∧
      (hostDo (.writeReg 0x00 15) State.reset).busy = false ∧
      (hostDo (.writeReg 0x00 15) State.reset).hostQueue = .writeReg 0x00 15 :: [] ∧ (15 : Word64).toNat < 16 ∧
      decode .command ((15 : Word64).setWidth 8) = .ok (.unassigned 7) := ⟨rfl, rfl, rfl, by decide, rfl⟩

theorem witness_HeaderBytesRunDecoded :
    (nextAgent (inPhase .hdr0 [.byte 0x81]) = .block ∧ (inPhase .hdr0 [.byte 0x81]).progress = .decoding ∧
      decode .opcode 0x81 = .ok (.frameText true 0)) ∧
    (nextAgent (inPhase .hdr1 [.byte 0x7D]) = .block ∧ (inPhase .hdr1 [.byte 0x7D]).progress = .decoding ∧
      decode .length 0x7D = .ok (.len7 false 125)) := ⟨⟨rfl, rfl, rfl⟩, ⟨rfl, rfl, rfl⟩⟩

theorem witness_ZeroByteTransitionsRunRows :
    State.reset.rxplen = 0 ∧
    (let s := { inPhase .extlen [.byte 5] with rxlen7 := 126, didx := 1 };
      nextAgent s = .block ∧ s.progress = .decoding ∧ s.didx + 1 = xlen s.rxlen7) ∧
    (let s := { inPhase .key [.byte 5] with rxmask := true, didx := 3 };
      nextAgent s = .block ∧ s.progress = .decoding ∧ s.didx = 3) ∧
    (let s := { inPhase .payload [.byte 5] with rxplen := 1 };
      nextAgent s = .block ∧ s.progress = .decoding ∧ inCapacity s.params.rxbufBytes s.rxcnt.toNat = true ∧
        s.rxcnt + 1 = s.rxplen) := by decide

theorem witness_NopEndsOk : (conn .closed).busy = false ∧ (conn .closed).turns = [] := by decide

theorem witness_UnassignedEndsIllegal : (conn .closing).busy = false ∧ (conn .closing).turns = [] := by decide

theorem witness_TransportCommandsFailInClosed :
    (Instr.sendFrame, (0x7 : BitVec 4)) ∈ transportCommands ∧ (conn .closed).busy = false ∧ (conn .closed).turns = [] ∧
      (conn .closed).cstate = .closed := by decide

theorem witness_ReadStartsDecoding : (conn .closing).busy = false ∧ (conn .closing).cstate ≠ .closed := by decide

theorem witness_OpcodeRowsStoreByteZero :
    (Instr.framePong, (0xA : BitVec 4)) ∈ opcodeRows ∧ (reading .established []).dphase = .hdr0 := by
  refine ⟨?_, rfl⟩
  simp [opcodeRows]

theorem witness_LengthRowsSetTheLength : (125 : BitVec 7) ≠ 0 ∧ (0 : BitVec 7) = 0 := by decide

theorem witness_MaskRowsStartKeyOrPayload : { State.reset with rxplen := 1 }.rxplen ≠ 0 := by decide

theorem witness_ExtendedLengthIsBigEndian :
    (let s := { inPhase .extlen ([0, 0].map .byte) with rxlen7 := 126 };
      s.turns = [] ∧ s.busy = true ∧ s.progress = .decoding ∧ s.didx = 0 ∧ s.rxplen = 0 ∧
        s.transport.rx = [.byte 0, .byte 0] ++ []) ∧
    (let s := { inPhase .extlen ([255, 0, 0, 0, 0, 0, 0, 1].map .byte) with rxlen7 := 127 };
      s.turns = [] ∧ s.busy = true ∧ s.progress = .decoding ∧ s.didx = 0 ∧ s.rxplen = 0 ∧
        s.transport.rx = [255, 0, 0, 0, 0, 0, 0, 1].map .byte ++ []) := by decide

theorem witness_KeyBytesInWireOrder :
    (∀ n : Fin 2, let s := { inPhase .key ([1, 2, 3, 4].map .byte) with rxmask := true, rxplen := BitVec.ofNat 64 n };
      s.turns = [] ∧ s.busy = true ∧ s.progress = .decoding ∧ s.dphase = .key ∧ s.didx = 0 ∧
        s.transport.rx = [1, 2, 3, 4].map .byte ++ [] ∧ (n = 1 → s.rxplen ≠ 0) ∧ (n = 0 → s.rxplen = 0)) := by decide

theorem witness_PayloadByteIsStored :
    let s := { inPhase .payload [.byte 7] with rxplen := 2, params := { Params.default with rxbufBytes := some 1 } }
    nextAgent s = .block ∧ s.progress = .decoding ∧ s.dphase = .payload ∧ s.transport.rx = .byte 7 :: [] ∧
      inCapacity s.params.rxbufBytes s.rxcnt.toNat = true ∧ s.rxcnt + 1 ≠ s.rxplen := by decide

theorem witness_PayloadBeyondBufferIsRefused :
    let s := { inPhase .payload [.byte 7] with
      rxplen := 3, rxcnt := 2, rxraw := cellsFrom 0 [1, 2], params := { Params.default with rxbufBytes := some 2 } }
    nextAgent s = .block ∧ s.progress = .decoding ∧ s.dphase = .payload ∧ s.transport.rx = .byte 7 :: [] ∧
      s.params.rxbufBytes = some 2 ∧ 2 ≤ s.rxcnt.toNat := by decide

theorem witness_ReceiveErrorsAbort :
    (nextAgent (inPhase .hdr0 [.eos]) = .block ∧ (inPhase .hdr0 [.eos]).progress = .decoding ∧
      (inPhase .hdr0 [.eos]).transport.rx = .eos :: []) ∧
    (nextAgent (inPhase .hdr1 [.eos]) = .block ∧ (inPhase .hdr1 [.eos]).dphase ≠ .hdr0) ∧
    (nextAgent (inPhase .payload [.fail]) = .block ∧ (inPhase .payload [.fail]).transport.rx = .fail :: []) := by decide

theorem witness_BlockWaitsForTheTransport :
    (nextAgent (inPhase .hdr0 []) = .block ∧ (inPhase .hdr0 []).progress = .decoding ∧
      (inPhase .hdr0 []).transport.rx = []) ∧
    (let s := { inPhase .idle [] with progress := .sending [1] 0 [] (.finish .ok) };
      nextAgent s = .block ∧ 0 < [1].length ∧ s.transport.answers = []) := by decide

theorem witness_OtherFramesTakeNoReaction :
    Instr.frameOpaqueF ∈ quietRows ∧ (received .established 0xF []).dphase = .idle := by
  refine ⟨?_, rfl⟩
  simp [quietRows]

theorem witness_PingIsAnsweredByPong :
    let s := { received .closing 0x9 [0x61] with transport := { rx := [], answers := okThen 3 [.fail], sent := [] } }
    s.turns = [] ∧ s.busy = true ∧ s.dphase = .idle ∧ plainRange s 0 s.rxplen.toNat = some [0x61] ∧
      s.transport.answers = okThen (encodeFrame true 0xA false Key.zero [0x61]).length [.fail] := by decide

theorem witness_CloseInEstablishedIsEchoed :
    (∀ b : Bool, let s := { received .established 0x8 [0x03, 0xE9] with
        params := { Params.default with rxcloseTeardownSendsClose := b }
        transport := { rx := [], answers := okThen (if b then 8 else 4) [], sent := [] } };
      s.turns = [] ∧ s.busy = true ∧ s.dphase = .idle ∧ s.cstate = .established ∧ 2 ≤ s.rxplen.toNat ∧
        plainByte s 0 = some 0x03 ∧ plainByte s 1 = some 0xE9 ∧
        s.transport.answers = okThen ([0x88#8, 0x02#8, 0x03#8, 0xE9#8] ++
          (if s.params.rxcloseTeardownSendsClose then [0x88#8, 0x02#8, 0x03#8, 0xE8#8] else [])).length []) := by decide

theorem witness_CloseElsewhere :
    ((received .closing 0x8 []).dphase = .idle ∧ (received .closing 0x8 []).cstate = .closing) ∧
      ((received .closed 0x8 []).dphase = .idle ∧ (received .closed 0x8 []).cstate = .closed) ∧
      ((received .established 0x8 [1]).dphase = .idle ∧ (received .established 0x8 [1]).cstate = .established ∧
        (received .established 0x8 [1]).rxplen.toNat < 2) := by decide

theorem witness_ServerFramesAreUnmasked :
    Instr.close ≠ .sendFrame ∧ (conn .established).progress = .idle ∧
      (after .close 0 (conn .established) (·.progress)) =
        some (.sending [0x88, 0x02, 0x03, 0xE8] 0 [] (.moveTo .closing)) := by decide

theorem witness_SendCommandsTransmitTheirFrame :
    let s := { loaded .closing [0x48, 0x69] with transport := { rx := [], answers := okThen 4 [.fail], sent := [] } }
    s.turns = [] ∧ s.busy = false ∧ s.cstate ≠ .closed ∧ txPayload s = some [0x48, 0x69] ∧
      s.transport.answers = okThen (encodeFrame true 0x1 false Key.zero [0x48, 0x69]).length [.fail] := by decide

theorem witness_SendCloseTransmitsTheCode :
    let s := { conn .established with transport := { rx := [], answers := okThen 4 [], sent := [] }, txcode := 65535 }
    s.turns = [] ∧ s.busy = false ∧ s.cstate ≠ .closed ∧ s.transport.answers = okThen 4 [] := by decide

theorem witness_UnreadablePayloadIsRefused :
    (loaded .established [1]).busy = false ∧ (loaded .established [1]).cstate ≠ .closed ∧
      txPayload (loaded .established [1]) = some [1] ∧
      (∃ c, { conn .closing with txlen := 3, params := { Params.default with txbufBytes := some 2 } }.params.txbufBytes =
        some c ∧ c < 3) := ⟨by decide, by decide, by decide, 2, rfl, by decide⟩

theorem witness_WriteFailureAborts :
    let s := { conn .established with
      busy := true, progress := .sending [0x88, 0x02, 0x03, 0xE8] 0 [] (.moveTo .closing)
      transport := { rx := [], answers := okThen 3 (.fail :: []), sent := [] } }
    s.turns = [] ∧ s.busy = true ∧ 3 < [0x88, 0x02, 0x03, 0xE8].length ∧
      s.transport.answers = okThen 3 (.fail :: []) := by decide

theorem witness_CloseCommandCells :
    (let s := { conn .established with transport := { rx := [], answers := okThen 4 [], sent := [] } };
      s.turns = [] ∧ s.busy = false ∧ s.cstate = .established ∧ s.transport.answers = okThen 4 []) ∧
    ((conn .closed).turns = [] ∧ (conn .closed).busy = false ∧ (conn .closed).cstate ≠ .established) ∧
    (conn .closing).cstate ≠ .established := by decide

theorem witness_CloseTwiceReleases :
    let s := { conn .established with
      hostQueue := commandLine 0x6 ++ commandLine 0x6, transport := { rx := [], answers := okThen 4 [.fail], sent := [] } }
    s.turns = [] ∧ s.busy = false ∧ s.progress = .idle ∧ s.cstate = .established ∧ s.trel = false ∧
      s.hostQueue = commandLine 0x6 ++ commandLine 0x6 ∧ s.transport.answers = okThen 4 [.fail] := by decide

theorem witness_MaskingLaws :
    let s := { received .established 0x1 [0x7F, 0x9F] with rxmask := true, rxkey := Key.unpack 0x37FA213D }
    s.rxmask = true ∧ s.rxraw.readRange 0 2 = some [0x7F, 0x9F] := by decide

theorem witness_EncoderHeaderForms :
    (List.replicate 125 (0 : Byte)).length < 126 ∧ 126 ≤ (List.replicate 126 (0 : Byte)).length ∧
      (List.replicate 65535 (0 : Byte)).length < 65536 ∧ 65536 ≤ (List.replicate 65536 (0 : Byte)).length ∧
      (List.replicate 65536 (0 : Byte)).length < 2 ^ 64 := by
  simp only [List.length_replicate]
  omega

theorem witness_ReadComputesDecodeFrame :
    let s := reading .established [0x82, 0x02, 1, 2, 9]
    s.turns = [] ∧ s.busy = true ∧ s.progress = .decoding ∧ readStart s = s ∧
      s.transport.rx = [0x82, 0x02, 1, 2, 9].map .byte ∧
      decodeFrame ([0x82, 0x02, 1, 2, 9].map .byte) =
        .frame
          { fin := true, op := 2, mask := false, len7 := 2, plen := 2, key := Key.zero, raw := [1, 2] } [.byte 9] := by
  decide

theorem witness_ReadErrorsFollowDecodeFrame :
    (let s := { reading .established [] with
        params := { Params.default with rxbufBytes := some 1 }
        transport := wire [.byte 0x82, .byte 0x02, .byte 1, .eos] 0 };
      s.turns = [] ∧ s.busy = true ∧ s.progress = .decoding ∧ readStart s = s ∧ s.params.rxbufBytes = some 1 ∧
        decodeFrame s.transport.rx = .error .frameFormatError ∧ leadingPayload s.transport.rx = 1) ∧
    leadingPayload [.byte 0x82, .byte 0xFE, .byte 0, .fail] = 0 ∧ leadingPayload [.eos] = 0 := by decide

theorem witness_EncodedFrameReadsBack :
    let s := { reading .established [0x82, 0x81, 1, 2, 3, 4, 8] with
      params := { Params.default with rxbufBytes := some 1 } }
    s.turns = [] ∧ s.busy = true ∧ s.progress = .decoding ∧ readStart s = s ∧
      s.transport.rx = (encodeFrame true 0x2 true (Key.unpack 0x01020304) [9]).map .byte ++ [] := by decide

theorem witness_BusyRefusesHostWrites :
    (∀ a : Fin 4, let s := { conn .established with
        busy := true, turns := [.host]
        hostQueue := [BusAction.writeReg 0x16 0, .writeBuf 0 0, .readReg 0x02, .readBuf .rxraw 0].drop a };
      nextAgent s = .host ∧ s.busy = true) ∧
    (let s := { conn .established with busy := true, turns := [.host], hostQueue := [BusAction.writeReg 0x17 0] };
      nextAgent s = .host ∧ s.busy = true ∧ s.hostQueue = .writeReg 0x17 0 :: []) ∧
    (0x16 : BitVec 8).toNat ≤ 0x16 ∧ 0x17 ≤ (0x17 : BitVec 8).toNat ∧ inCapacity (capacityOf .rxraw (conn .established)) 0 = true := by decide

theorem witness_OperandWritesReadBack :
    let s := hostDo (.writeReg 0x15 65535) State.reset
    nextAgent s = .host ∧ s.busy = false ∧ s.hostQueue = .writeReg 0x15 65535 :: [] ∧ (0x15 : BitVec 8) ≠ 0 ∧
      writableWidth 0x15 = some 16 ∧ (65535 : Word64).toNat < 2 ^ 16 := by decide

theorem witness_ReadOnlyAndReservedWritesHaveNoEffect :
    (let s := hostDo (.writeReg 0x16 1) State.reset;
      nextAgent s = .host ∧ s.busy = false ∧ s.hostQueue = .writeReg 0x16 1 :: [] ∧ writableWidth 0x16 = none) ∧
    (writableWidth 0x17 = none ∧ 0x17 ≤ (0x17 : BitVec 8).toNat) := by decide

theorem witness_HostReadsHaveNoSideEffect :
    nextAgent (hostDo (.readReg 0x16) State.reset) = .host ∧
    (let s := hostDo (.readBuf .rxplain 1) (received .established 1 [5, 6]);
      s.rxraw.read (1 : Word64).toNat = some 6 ∧ inCapacity s.params.rxbufBytes (1 : Word64).toNat = true) ∧
    (let s := hostDo (.readBuf .txbuf 0) (loaded .established [5]);
      nextAgent s = .host ∧ s.txbuf.read (0 : Word64).toNat = some 5 ∧
        inCapacity s.params.txbufBytes (0 : Word64).toNat = true) := by decide

theorem witness_UnwrittenCellReadsSomeByte :
    let s := hostDo (.readBuf .rxplain 0) State.reset
    nextAgent s = .host ∧ s.hostQueue = .readBuf .rxplain 0 :: [] ∧
      inCapacity (capacityOf .rxplain s) (0 : Word64).toNat = true ∧
      bufferByte .rxplain (0 : Word64).toNat s = none := by decide

theorem witness_TxbufWriteWritesOneCell :
    ∀ a : Fin 2,
    let s := hostDo (.writeBuf (BitVec.ofNat 64 (a + 1)) 7)
      { State.reset with params := { Params.default with txbufBytes := some 2 } }
    nextAgent s = .host ∧ s.busy = false ∧
      inCapacity s.params.txbufBytes (BitVec.ofNat 64 (a + 1)).toNat = decide (a = 0) := by decide

theorem witness_SendTextLinesSendTheText :
    let s := { conn .established with
      hostQueue := sendTextLines [0x48, 0x69], transport := { rx := [], answers := okThen 4 [], sent := [] } }
    s.turns = [] ∧ s.busy = false ∧ s.progress = .idle ∧ s.cstate ≠ .closed ∧ s.params.txbufBytes = none ∧
      s.hostQueue = sendTextLines [0x48, 0x69] ∧
      s.transport.answers = okThen (encodeFrame true 0x1 false Key.zero [0x48, 0x69]).length [] := by decide

/-- A state of the invariant other than reset: a READ that waits for byte 0. -/
theorem reading_inv : (reading .established []).Inv :=
  ⟨by decide, ⟨rfl, by decide, by decide⟩, ⟨rfl, rfl, rfl⟩, fun h => (nomatch h), fun _ => Or.inl rfl, fun _ => rfl,
    ⟨rfl, by decide⟩, fun a => by simp [reading, readStart], fun _ h => (nomatch h),
    fun a h => by simp [reading, readStart, conn, State.reset] at h, rfl, rfl⟩

theorem witness_StepKeepsInvariant :
    (reading .established []).Inv ∧ step (reading .established []) = .next (reading .established []) :=
  ⟨reading_inv, rfl⟩

theorem witness_InvariantExcludesFaults : (reading .established []).Inv := reading_inv

/-- A connection in Closed meets the invariant. -/
theorem closed_inv : (conn .closed).Inv :=
  ⟨by decide, rfl, rfl, fun h => (nomatch h), fun h => absurd rfl h, fun _ => rfl, ⟨rfl, by decide⟩,
    fun a => by simp [conn, State.reset], fun _ h => (nomatch h), fun a h => by simp [conn, State.reset] at h, rfl, rfl⟩

theorem witness_ClosedIsTerminal :
    (conn .closed).Inv ∧ (conn .closed).cstate = .closed ∧ step (conn .closed) = .next (conn .closed) ∧
      ∀ u q, (conn .closed).hostQueue ≠ .reset u :: q := ⟨closed_inv, rfl, rfl, fun _ _ h => (nomatch h)⟩

theorem witness_ClosedLeavesTheTransportAlone :
    (conn .closed).Inv ∧ (conn .closed).cstate = .closed ∧ step (conn .closed) = .next (conn .closed) :=
  ⟨closed_inv, rfl, rfl⟩

theorem witness_BlockNeverWritesOperands :
    nextAgent (reading .established [0x81]) = .block ∧
      sees 1 (reading .established [0x81]) (·.rxop) = some 1 := by decide

theorem witness_SendsKeepTheReceivedFrame :
    (after .sendPing 0 (loaded .established []) (·.busy)) = some true ∧
    (let s := { inPhase .idle [] with progress := .ending (.finish .ok) };
      nextAgent s = .block ∧ s.progress ≠ .decoding ∧ sees 1 s (·.busy) = some false) := by decide

theorem witness_BusyBlockIsUndisturbed :
    let s := { hostDo (.readReg 0x02) (reading .established []) with turns := [.host] }
    nextAgent s = .host ∧ s.busy = true ∧ sees 1 s (·.hostReads) = some [1] := by decide

theorem witness_RegistersReadAtTheirNumbers :
    0x17 ≤ (0x17 : BitVec 8).toNat ∧ readRegister { State.reset with status := .transportError } 0x01 = 2 ∧
      readRegister { State.reset with dphase := .payload } 0x06 = 5 := by decide

theorem witness_BufferReadsBeyondCapacityAreRefused :
    ∀ space ∈ [BufSpace.rxraw, .rxplain, .txbuf],
    let s := hostDo (.readBuf space 2)
      { State.reset with params := { Params.default with rxbufBytes := some 2, txbufBytes := some 2 } }
    nextAgent s = .host ∧ 2 ≤ (2 : Word64).toNat ∧ s.params.rxbufBytes = some 2 ∧ s.params.txbufBytes = some 2 ∧
      s.hostQueue = .readBuf space 2 :: [] := by decide

theorem witness_WaitPollsBusy :
    ∀ b : Bool, let s := { hostDo .wait State.reset with busy := b, turns := [.host] };
      nextAgent s = .host ∧ s.hostQueue = .wait :: [] ∧ s.busy = b := by decide

/-- A state that meets the hypotheses of the statements about host lines. -/
def linesReady (q : List BusAction) (n : Nat) : State :=
  { conn .established with
    hostQueue := q, params := { Params.default with txbufBytes := some 2 }
    transport := { rx := [], answers := okThen n [.fail], sent := [] } }

theorem witness_BinaryAndPingLinesSendThePayload :
    (sendPingLines, 0x9#4) ∈ [(sendBinLines, 0x2#4), (sendPingLines, 0x9#4)] ∧
    (let s := linesReady (sendPingLines [1, 2]) 4;
      s.turns = [] ∧ s.busy = false ∧ s.progress = .idle ∧ s.cstate ≠ .closed ∧ s.params.txbufBytes = some 2 ∧
        s.hostQueue = sendPingLines [1, 2] ∧
        s.transport.answers = okThen (encodeFrame true 0x9 false Key.zero [1, 2]).length [.fail]) :=
  ⟨by simp, by decide⟩

theorem witness_SendCloseLinesSendTheCode :
    let s := linesReady (sendCloseLines 1001) 4
    s.turns = [] ∧ s.busy = false ∧ s.progress = .idle ∧ s.cstate ≠ .closed ∧ s.hostQueue = sendCloseLines 1001 ∧
      s.transport.answers = okThen 4 [.fail] := by decide

theorem witness_FrameLinesSendTheFrame :
    let s := linesReady (frameLines false 0x2 true 0x01020304 [9, 8]) 8
    s.turns = [] ∧ s.busy = false ∧ s.progress = .idle ∧ s.cstate ≠ .closed ∧ s.params.txbufBytes = some 2 ∧
      s.hostQueue = frameLines false 0x2 true 0x01020304 [9, 8] ∧
      s.transport.answers =
        okThen (encodeFrame false 0x2 true { k0 := 1, k1 := 2, k2 := 3, k3 := 4 } [9, 8]).length [.fail] := by decide

end Sys2Proof.Tests
end

section
/-! Proofs of the statements of `spec/00_scope.md`: what a command does from its acceptance to its end, step by step. -/

namespace Sys2Proof.Machine

/-! ### The completing step, in the words of the statements (R18, R200, R245) -/

/-- The completing step empties the in-progress state, whatever it was. -/
theorem complete_progress (last : Ending) (p : Progress) (s : State) :
    complete last { s with progress := p } = complete last s := by
  cases last with
  | finish st => rfl
  | moveTo c => cases c <;> rfl
  | abort st => rfl

theorem complete_finish (st : Status) (s : State) : complete (.finish st) s = ended st s := rfl

theorem complete_abort (st : Status) (s : State) : complete (.abort st) s = aborted st s := rfl

theorem complete_moveTo_closing (s : State) :
    complete (.moveTo .closing) s = ended .ok { s with cstate := .closing } := rfl

theorem complete_moveTo_closed (s : State) :
    complete (.moveTo .closed) s = ended .ok { s with cstate := .closed, trel := true } := rfl

/-! ### Commands that end in the step after their acceptance (R10, R96) -/

/-- A command whose remaining pseudocode is its end alone ends in the next step. -/
theorem exec_then_ending {i : Instr} {code : BitVec 4} {last : Ending} {s : State}
    (hx : exec i s = accept code (.ending last) s) (hb : s.busy = false) (ht : s.turns = []) :
    ∃ t, exec i s = .next t ∧ t = { accepted code s with progress := .ending last } ∧
      step t = .next (complete last (accepted code s)) := by
  refine ⟨_, hx.trans (accept_next code _ hb), rfl, ?_⟩
  rw [← complete_progress last (.ending last) (accepted code s)]
  exact step_ending ht rfl rfl

/-- Settles O9: NOP has nothing to do but `finish(OK)`. -/
theorem nopEndsOk : Obligations.NopEndsOk := by
  intro s hb ht
  simpa only [complete_finish] using exec_then_ending (i := .nop) (last := .finish .ok) rfl hb ht

/-- The code of an unassigned command is 8 plus its low bits (R98). -/
theorem unassignedCode_eq (c : BitVec 3) : 0b1#1 ++ c = BitVec.ofNat 4 (8 + c.toNat) := by
  revert c; decide

/-- UNASSIGNED has nothing to do but `finish(ILLEGAL_COMMAND)` (R98). -/
theorem exec_unassigned (c : BitVec 3) (s : State) :
    exec (.unassigned c) s = accept (BitVec.ofNat 4 (8 + c.toNat)) (.ending (.finish .illegalCommand)) s := by
  rw [← unassignedCode_eq]
  rfl

/-- Settles O10: an unassigned code has nothing to do but `finish(ILLEGAL_COMMAND)`. -/
theorem unassignedEndsIllegal : Obligations.UnassignedEndsIllegal := by
  intro c s hb ht
  simpa only [complete_finish] using exec_then_ending (exec_unassigned c s) hb ht

/-! ### Closed (R121, R168) -/

theorem sendProgress_closed {s : State} (hc : s.cstate = .closed) (frame : List Byte) :
    sendProgress frame s = .ending (.abort .transportError) := by
  simp [sendProgress, hc]

/-- In Closed a send command does not read TXBUF (R168, R244). -/
theorem sendPayload_closed {s : State} (hc : s.cstate = .closed) (code : BitVec 4) (frameOf : List Byte → List Byte) :
    sendPayload code frameOf s = accept code (.ending (.abort .transportError)) s := by
  simp [sendPayload, hc, sendProgress_closed]

theorem execRead_closed {s : State} (hc : s.cstate = .closed) :
    execRead s = accept 0x1 (.ending (.abort .transportError)) s := by
  simp [execRead, hc]

theorem execSendClose_closed {s : State} (hc : s.cstate = .closed) :
    execSendClose s = accept 0x5 (.ending (.abort .transportError)) s := by
  simp [execSendClose, sendProgress_closed hc]

/-- In Closed, every command that needs the transport has nothing to do but abort. -/
theorem exec_transportCommand_closed {i : Instr} {code : BitVec 4} (hi : (i, code) ∈ transportCommands) {s : State}
    (hc : s.cstate = .closed) : exec i s = accept code (.ending (.abort .transportError)) s := by
  simp only [transportCommands, List.mem_cons, List.not_mem_nil, or_false, Prod.mk.injEq] at hi
  obtain ⟨rfl, rfl⟩ | ⟨rfl, rfl⟩ | ⟨rfl, rfl⟩ | ⟨rfl, rfl⟩ | ⟨rfl, rfl⟩ | ⟨rfl, rfl⟩ := hi
  · exact execRead_closed hc
  · exact sendPayload_closed hc _ _
  · exact sendPayload_closed hc _ _
  · exact sendPayload_closed hc _ _
  · exact execSendClose_closed hc
  · exact sendPayload_closed hc _ _

/-- Settles O11: in Closed each of the six commands has nothing to do but abort. -/
theorem transportCommandsFailInClosed : Obligations.TransportCommandsFailInClosed := by
  intro i code hi s hb ht hc
  simpa only [complete_abort] using exec_then_ending (exec_transportCommand_closed hi hc) hb ht

/-! ### Waiting (R285) -/

theorem blockStep_no_symbol {s : State} (hp : s.progress = .decoding) (hr : s.transport.rx = []) :
    blockStep s = .next s := by
  simp [blockStep, hp, hr]

/-- No answer is ready: the byte stays on offer. -/
theorem offerByte_no_answer {s : State} {frame : List Byte} {k : Nat} (hk : k < frame.length)
    (ha : s.transport.answers = []) (later : List (List Byte)) (last : Ending) :
    offerByte frame k later last s = s := by
  simp [offerByte, hk, ha]

theorem blockStep_no_answer {s : State} {frame : List Byte} {k : Nat} {later : List (List Byte)} {last : Ending}
    (hp : s.progress = .sending frame k later last) (hk : k < frame.length) (ha : s.transport.answers = []) :
    blockStep s = .next s := by
  simp only [blockStep, hp, offerByte_no_answer hk ha]

/-- Settles O21: with no symbol or no answer ready the block's step is the used turn alone. -/
theorem blockWaitsForTheTransport : Obligations.BlockWaitsForTheTransport := by
  intro s hn
  constructor
  · intro hp hr
    rw [step_of_block hn]
    exact blockStep_no_symbol (s := takeTurn s) hp hr
  · intro f k later last hp hk ha
    rw [step_of_block hn]
    exact blockStep_no_answer (s := takeTurn s) hp hk ha

/-! ### The extended length (R126, R127) -/

/-- Settles O16: the bytes pushed one by one onto 0 are the big-endian number. -/
theorem extendedLengthIsBigEndian : Obligations.ExtendedLengthIsBigEndian := by
  intro s rest ht hb hp hd hi hl
  constructor
  · intro e0 e1 h7 hr
    have hx : xlen s.rxlen7 = 2 := by rw [h7]; rfl
    have hrun := run_extLen [e0, e1] ht hb hp hd (by simp) (by rw [hi, hx]; rfl) hr
    have hlen : [e0, e1].foldl pushByte 0 = (e0 ++ e1).setWidth 64 := pushByte_be16 e0 e1
    rwa [hl, hlen, hx] at hrun
  · intro e0 e1 e2 e3 e4 e5 e6 e7 h7 hr
    have hx : xlen s.rxlen7 = 8 := by rw [h7]; rfl
    have hrun := run_extLen [e0, e1, e2, e3, e4, e5, e6, e7] ht hb hp hd (by simp) (by rw [hi, hx]; rfl) hr
    have hlen : [e0, e1, e2, e3, e4, e5, e6, e7].foldl pushByte 0 = e0 ++ e1 ++ e2 ++ e3 ++ e4 ++ e5 ++ e6 ++ e7 :=
      pushByte_be64 e0 e1 e2 e3 e4 e5 e6 e7
    rwa [hl, hlen, hx] at hrun

/-! ### All the frames of a command, and its end (R166, R10) -/

/-- All the frames a command has still to send, and its end, by induction on the frames after the first. -/
theorem run_frames (later : List (List Byte)) {s : State} {frame : List Byte} {last : Ending} {rest : List TxAnswer}
    (ht : s.turns = []) (hb : s.busy = true) (hne : ∀ f ∈ frame :: later, f ≠ [])
    (hp : s.progress = .sending frame 0 later last)
    (ha : s.transport.answers = okThen (frame :: later).flatten.length rest) :
    run ((frame :: later).flatten.length + 1) s =
      .next (complete last (afterSend s (frame :: later).flatten rest)) := by
  induction later generalizing s frame with
  | nil =>
    rw [List.flatten_singleton] at ha ⊢
    rw [run_last_frame ht hb (hne frame (by simp)) hp ha, complete_progress]
  | cons g gs ih =>
    have hsplit : (frame :: g :: gs).flatten = frame ++ (g :: gs).flatten := List.flatten_cons
    rw [hsplit, List.length_append] at ha ⊢
    rw [okThen_add] at ha
    have hfirst := run_frame ht hb (hne frame (by simp)) hp ha
    rw [advance_next] at hfirst
    obtain ⟨u, hu⟩ : ∃ u, u = { afterSend s frame (okThen (g :: gs).flatten.length rest) with
        progress := .sending g 0 gs last } := ⟨_, rfl⟩
    have hlater := ih (s := u) (by rw [hu]; exact ht) (by rw [hu]; exact hb)
      (fun f hf => hne f (List.mem_cons_of_mem _ hf)) (by rw [hu]) (by rw [hu]; rfl)
    have hsent : afterSend u (g :: gs).flatten rest =
        { afterSend s (frame ++ (g :: gs).flatten) rest with progress := .sending g 0 gs last } := by
      rw [hu, ← afterSend_append]
      rfl
    rw [Nat.add_assoc, run_add _ _ hfirst, ← hu, hlater, hsent, complete_progress]

/-- The same for a state just made to send: how it was made shows only in the progress, which the end clears. -/
theorem run_sending {s : State} {frame : List Byte} {later : List (List Byte)} {last : Ending} {rest : List TxAnswer}
    (ht : s.turns = []) (hb : s.busy = true) (hne : ∀ f ∈ frame :: later, f ≠ [])
    (ha : s.transport.answers = okThen (frame :: later).flatten.length rest) :
    run ((frame :: later).flatten.length + 1) { s with progress := .sending frame 0 later last } =
      .next (complete last (afterSend s (frame :: later).flatten rest)) := by
  rw [run_frames later (s := { s with progress := .sending frame 0 later last }) ht hb hne rfl ha,
    ← complete_progress last (.sending frame 0 later last) (afterSend s _ rest)]
  rfl

/-- The same for one frame. -/
theorem run_sending_one {s : State} {frame : List Byte} {last : Ending} {rest : List TxAnswer} (ht : s.turns = [])
    (hb : s.busy = true) (hne : frame ≠ []) (ha : s.transport.answers = okThen frame.length rest) :
    run (frame.length + 1) { s with progress := .sending frame 0 [] last } =
      .next (complete last (afterSend s frame rest)) := by
  have hflat : [frame].flatten = frame := List.flatten_singleton
  have hrun := run_sending (s := s) (frame := frame) (later := []) (last := last) (rest := rest) ht hb
    (by simpa using hne) (by rwa [hflat])
  rwa [hflat] at hrun

/-! ### The Pong reply (R220) -/

theorem exec_framePing_idle {s : State} {p : List Byte} (hd : s.dphase = .idle)
    (hp : plainRange s 0 s.rxplen.toNat = some p) (fin : Bool) (rsv : BitVec 3) :
    exec (.framePing fin rsv) s = .next { s with progress := .sending (serverFrame 0xA p) 0 [] (.finish .ok) } := by
  have hrow : exec (.framePing fin rsv) s = pongReply s := frameRow_idle hd fin 0x9 pongReply
  simp [hrow, pongReply, hp]

/-- Settles O23: the reply is one frame, sent as a whole, then `finish(OK)`. -/
theorem pingIsAnsweredByPong : Obligations.PingIsAnsweredByPong := by
  intro fin rsv s p rest ht hb hd hp ha
  refine ⟨_, exec_framePing_idle hd hp fin rsv, ?_⟩
  rw [← complete_finish]
  exact run_sending_one ht hb (encodeFrame_ne_nil true 0xA false Key.zero p) ha

/-! ### The Close echo (R205, R212, R213, R215) -/

/-- The echo of a Close with the status bytes `b0`, `b1` is those bytes again (R205, R213). -/
theorem closeFrame_be16 (b0 b1 : Byte) : closeFrame (be16 b0 b1) = [0x88#8, 0x02#8, b0, b1] := by
  have hbytes := be16Bytes_be16 b0 b1
  rw [be16Bytes] at hbytes
  rw [closeFrame_eq, hbytes]

/-- Close 1000 (R202). -/
theorem closeFrame_normalClosure : closeFrame normalClosure = [0x88#8, 0x02#8, 0x03#8, 0xE8#8] :=
  closeFrame_eq normalClosure

theorem exec_frameClose_established {s : State} {b0 b1 : Byte} (hd : s.dphase = .idle) (hc : s.cstate = .established)
    (hl : 2 ≤ s.rxplen.toNat) (h0 : plainByte s 0 = some b0) (h1 : plainByte s 1 = some b1) (fin : Bool)
    (rsv : BitVec 3) :
    exec (.frameClose fin rsv) s =
      .next { s with progress := .sending (closeFrame (be16 b0 b1)) 0 (teardownFrames s) (.moveTo .closing) } := by
  have hrow : exec (.frameClose fin rsv) s = rxClose s := frameRow_idle hd fin 0x8 rxClose
  simp [hrow, rxClose, hc, Nat.not_lt.2 hl, rxCloseCode, h0, h1]

/-- The bytes of the frames after the echo (R215). -/
theorem teardownFrames_flatten (s : State) :
    (teardownFrames s).flatten =
      if s.params.rxcloseTeardownSendsClose then [0x88#8, 0x02#8, 0x03#8, 0xE8#8] else [] := by
  unfold teardownFrames
  split
  · rw [List.flatten_singleton, closeFrame_normalClosure]
  · rfl

theorem closeFrame_ne_nil (c : BitVec 16) : closeFrame c ≠ [] := encodeFrame_ne_nil _ _ _ _ _

theorem teardownFrames_ne_nil {s : State} {f : List Byte} (hf : f ∈ teardownFrames s) : f ≠ [] := by
  unfold teardownFrames at hf
  split at hf
  · rw [List.mem_singleton.1 hf]
    exact closeFrame_ne_nil normalClosure
  · exact absurd hf List.not_mem_nil

/-- Settles O24: the echo and the optional Close 1000 are sent one after the other, then READ ends in Closing. -/
theorem closeInEstablishedIsEchoed : Obligations.CloseInEstablishedIsEchoed := by
  intro fin rsv s b0 b1 rest ht hb hd hc hl h0 h1 frames ha
  have hframes : frames = (closeFrame (be16 b0 b1) :: teardownFrames s).flatten := by
    rw [List.flatten_cons, closeFrame_be16, teardownFrames_flatten]
  refine ⟨_, exec_frameClose_established hd hc hl h0 h1 fin rsv, ?_⟩
  rw [hframes] at ha ⊢
  have hne : ∀ f ∈ closeFrame (be16 b0 b1) :: teardownFrames s, f ≠ [] := by
    intro f hf
    rcases List.mem_cons.1 hf with rfl | hf
    · exact closeFrame_ne_nil _
    · exact teardownFrames_ne_nil hf
  rw [run_sending ht hb hne ha, complete_moveTo_closing]

/-! ### CLOSE (R202 to R204, R210) -/

/-- CLOSE in Established is accepted and leaves one Close 1000 to send (R202). -/
theorem exec_close_established {s : State} (hb : s.busy = false) (hc : s.cstate = .established) :
    exec .close s =
      .next { accepted 0x6 s with progress := .sending (closeFrame normalClosure) 0 [] (.moveTo .closing) } := by
  have hx : exec .close s = accept 0x6 (closeCall s.cstate) s := rfl
  rw [hx, hc]
  exact accept_next _ _ hb

/-- CLOSE in Closing and in Closed has nothing to do but move to Closed (R203, R204). -/
theorem exec_close_not_established {s : State} (hc : s.cstate ≠ .established) :
    exec .close s = accept 0x6 (.ending (.moveTo .closed)) s := by
  have hx : exec .close s = accept 0x6 (closeCall s.cstate) s := rfl
  rw [hx]
  cases h : s.cstate with
  | established => exact absurd h hc
  | closing => rfl
  | closed => rfl

/-- Settles O31: from Established one Close frame and the move to Closing; otherwise the move to Closed alone. -/
theorem closeCommandCells : Obligations.CloseCommandCells := by
  intro s rest ht hb
  constructor
  · intro hc ha
    refine ⟨_, exec_close_established hb hc, ?_⟩
    have hrun := run_sending_one (s := accepted 0x6 s) (frame := [0x88#8, 0x02#8, 0x03#8, 0xE8#8])
      (last := .moveTo .closing) (rest := rest) ht rfl (by simp) ha
    rw [closeFrame_normalClosure, ← complete_moveTo_closing]
    exact hrun
  · intro hc
    obtain ⟨t, hx, -, hs⟩ := exec_then_ending (exec_close_not_established hc) hb ht
    exact ⟨t, hx, by rw [run_one, hs, complete_moveTo_closed]⟩

/-! ### CLOSE as a host's line (R110, R230) -/

/-- The host's write of a command code runs that command (R24, R96, R110). -/
theorem step_commandWrite {s : State} {code : BitVec 4} {q : List BusAction} (ht : s.turns = []) (hb : s.busy = false)
    (hq : s.hostQueue = .writeReg 0x00 (code.setWidth 64) :: q) :
    step s = exec (decodeCommand code) { s with hostQueue := q } := by
  have hcode : ((code.setWidth 64).setWidth 4 : BitVec 4) = code := by
    rw [BitVec.setWidth_setWidth_of_le _ (by decide), BitVec.setWidth_eq]
  have hfits : (code.setWidth 64).toNat < 2 ^ 4 := by
    rw [BitVec.toNat_setWidth_of_le (by decide)]
    exact code.isLt
  rw [step_action_free ht hb hq, busAction,
    hostWriteReg_fits (s := { s with hostQueue := q }) (n := 0x00) (w := 4) hb rfl hfits, if_pos rfl, hcode]

/-- The CMD write of CLOSE in Established and the command's steps (R202). -/
theorem run_closeWrite_established {s : State} {q : List BusAction} {rest : List TxAnswer} (ht : s.turns = [])
    (hb : s.busy = false) (hc : s.cstate = .established) (hq : s.hostQueue = .writeReg 0x00 ((0x6#4).setWidth 64) :: q)
    (ha : s.transport.answers = okThen 4 rest) :
    run 6 s = .next (ended .ok
      { afterSend (accepted 0x6 { s with hostQueue := q }) [0x88#8, 0x02#8, 0x03#8, 0xE8#8] rest with
        cstate := .closing }) := by
  obtain ⟨t, hx, hr⟩ := (closeCommandCells { s with hostQueue := q } rest ht hb).1 hc ha
  rw [run_succ 5 ((step_commandWrite ht hb hq).trans hx), hr]

/-- The CMD write of CLOSE in Closing or Closed and the command's one step (R203, R204). -/
theorem run_closeWrite_not_established {s : State} {q : List BusAction} (ht : s.turns = []) (hb : s.busy = false)
    (hc : s.cstate ≠ .established) (hq : s.hostQueue = .writeReg 0x00 ((0x6#4).setWidth 64) :: q) :
    run 2 s = .next (ended .ok { accepted 0x6 { s with hostQueue := q } with cstate := .closed, trel := true }) := by
  obtain ⟨t, hx, hr⟩ := (closeCommandCells { s with hostQueue := q } s.transport.answers ht hb).2 hc
  rw [run_succ 1 ((step_commandWrite ht hb hq).trans hx), hr]

/-- Settles O32: the first CLOSE runs the cell of Established; after one poll of WAIT the second runs that of Closing. -/
theorem closeTwiceReleases : Obligations.CloseTwiceReleases := by
  intro s rest ht hb _ hc htrel hq ha
  have hfirst := run_closeWrite_established (q := .wait :: commandLine 0x6) ht hb hc hq ha
  refine ⟨⟨_, hfirst, rfl, rfl, rfl, htrel, rfl, rfl⟩, ?_⟩
  obtain ⟨u, hu⟩ : ∃ u, u = ended .ok
      { afterSend (accepted 0x6 { s with hostQueue := .wait :: commandLine 0x6 })
          [0x88#8, 0x02#8, 0x03#8, 0xE8#8] rest with cstate := .closing } := ⟨_, rfl⟩
  rw [← hu] at hfirst
  have hut : u.turns = [] := by rw [hu]; exact ht
  have hub : u.busy = false := by rw [hu]; rfl
  have huc : u.cstate ≠ .established := by rw [hu]; exact fun h => nomatch h
  have huq : u.hostQueue = .wait :: commandLine 0x6 := by rw [hu]; rfl
  have hsent : u.transport.sent = s.transport.sent ++ [0x88#8, 0x02#8, 0x03#8, 0xE8#8] := by rw [hu]; rfl
  have hwait := step_wait hut hub huq
  have hsecond := run_closeWrite_not_established (q := [.wait])
    (s := { u with hostQueue := commandLine 0x6, hostReads := u.hostReads ++ [0] }) hut hub huc rfl
  have hboth := (run_add 6 3 hfirst).trans ((run_succ 2 hwait).trans hsecond)
  exact ⟨_, hboth, rfl, rfl, rfl, rfl, rfl, hsent⟩

end Sys2Proof.Machine
end

section
/-! Proofs of the statements about the state: the invariant at reset and over every step of the machine. -/

namespace Sys2Proof.Machine

/-! ### Results that keep the invariant -/

/-- A step's result is safe: a state it answers meets the invariant, and it is no fault (log 8). -/
def KeepsInv (r : Result) : Prop := (∀ t, r = .next t → t.Inv) ∧ ∀ e, r ≠ .fault e

theorem keepsInv_next {t : State} (h : t.Inv) : KeepsInv (.next t) :=
  ⟨fun u hu => by cases hu; exact h, fun _ he => nomatch he⟩

theorem keepsInv_refused (r : Refusal) : KeepsInv (.refused r) :=
  ⟨fun _ ht => (nomatch ht), fun _ he => nomatch he⟩

/-! ### Reset (R46, R270) -/

/-- The reset event meets the invariant, whatever state it finds. -/
theorem hostReset_inv (t : Transport) (s : State) : (hostReset t s).Inv where
  released := ⟨fun h => (nomatch h), fun h => nomatch h⟩
  progress := rfl
  decoder := rfl
  valid := fun h => nomatch h
  cut := fun h => absurd rfl h
  noKey := fun _ => rfl
  noAnomaly := ⟨rfl, fun h => nomatch h⟩
  rxCells := fun a => ⟨fun h => (nomatch h), fun h => absurd h (Nat.not_lt_zero a)⟩
  rxRoom := fun c _ => Nat.zero_le c
  txRoom := fun _ h => nomatch h
  rxForm := rfl
  txForm := rfl

/-- Settles O45: reset is the reset event of the reset state itself. -/
theorem invariantAtReset : Obligations.InvariantAtReset :=
  hostReset_inv State.reset.transport State.reset

/-! ### The in-progress command, case by case (R45) -/

theorem progressInv_sending {s : State} {frame : List Byte} {k : Nat} {later : List (List Byte)} {last : Ending}
    (hp : s.progress = .sending frame k later last) :
    progressInv s ↔
      s.busy = true ∧ s.cstate ≠ .closed ∧ k < frame.length ∧ (∀ f ∈ later, f ≠ []) ∧ endingInv last s := by
  rw [progressInv, hp]

theorem progressInv_ending {s : State} {last : Ending} (hp : s.progress = .ending last) :
    progressInv s ↔ s.busy = true ∧ endingInv last s := by
  rw [progressInv, hp]

/-! ### Acceptance (R96) -/

theorem accept_ne_fault (code : BitVec 4) (p : Progress) (s : State) (e : Fault) : accept code p s ≠ .fault e := by
  unfold accept
  split <;> exact fun h => nomatch h

theorem State.Inv.keepsInv_accept {s : State} (h : s.Inv) {code : BitVec 4} {p : Progress}
    (hp : progressInv { s with busy := true, progress := p }) : KeepsInv (Sys2Proof.Machine.accept code p s) :=
  ⟨fun _ ht => h.accept ht hp, accept_ne_fault code p s⟩

theorem sendPayload_ne_fault (code : BitVec 4) (f : List Byte → List Byte) (s : State) (e : Fault) :
    sendPayload code f s ≠ .fault e := by
  unfold Sys2Proof.Machine.sendPayload
  split
  · exact accept_ne_fault _ _ _ _
  · exact accept_ne_fault _ _ _ _
  · split <;> exact fun h => nomatch h

theorem State.Inv.keepsInv_sendPayload {s : State} (h : s.Inv) {code : BitVec 4} {f : List Byte → List Byte}
    (hf : ∀ p, f p ≠ []) : KeepsInv (Sys2Proof.Machine.sendPayload code f s) :=
  ⟨fun _ ht => h.sendPayload hf ht, sendPayload_ne_fault code f s⟩

/-- `ReadStart()` of an accepted READ (R122). -/
theorem State.Inv.readStart {s : State} (h : s.Inv) (hc : s.cstate ≠ .closed) :
    (readStart { s with cmd := 0x1, busy := true, txcnt := 0, progress := .decoding }).Inv := by
  have hheld : s.trel = false := Bool.eq_false_iff.2 fun ht => hc (h.released.1 ht)
  exact Decoding.inv
    { busy := rfl, decoding := rfl, live := hc, held := hheld, noKey := fun _ => rfl, noAnomaly := h.noAnomaly
      rxCells := fun a => ⟨fun h => (nomatch h), fun h => absurd h (Nat.not_lt_zero a)⟩
      rxRoom := fun c _ => Nat.zero_le c, txRoom := h.txRoom, rxForm := rfl, txForm := h.txForm }
    (fun hd => nomatch hd) rfl ⟨rfl, rfl, rfl⟩

/-- READ outside Closed (R120, R122). -/
theorem execRead_open {s : State} (hb : s.busy = false) (hc : s.cstate ≠ .closed) :
    execRead s =
      .next (readStart { s with cmd := 0x1, busy := true, txcnt := 0, progress := .decoding }) := by
  unfold execRead
  split
  · exact absurd ‹_› hc
  · rw [accept_next _ _ hb]

/-- A command whose remaining pseudocode is its end alone (R96). -/
theorem State.Inv.keepsInv_accept_ending {s : State} (h : s.Inv) {code : BitVec 4} {last : Ending}
    (hl : endingInv last s) : KeepsInv (Sys2Proof.Machine.accept code (.ending last) s) :=
  h.keepsInv_accept ((progressInv_ending rfl).2 ⟨rfl, hl⟩)

/-- READ (R120, R121). -/
theorem State.Inv.keepsInv_read {s : State} (h : s.Inv) (hb : s.busy = false) : KeepsInv (execRead s) := by
  by_cases hc : s.cstate = .closed
  · rw [execRead_closed hc]
    exact h.keepsInv_accept_ending ⟨rfl, hc⟩
  · rw [execRead_open hb hc]
    exact keepsInv_next (h.readStart hc)

/-- What CLOSE leaves to do is legal in every CSTATE (R200, R210). -/
theorem progressInv_closeCall {s : State} (hb : s.busy = true) (hp : s.progress = closeCall s.cstate) :
    progressInv s := by
  cases hc : s.cstate with
  | established =>
    rw [hc] at hp
    exact (progressInv_sending hp).2
      ⟨hb, by simp [hc], List.length_pos_iff.2 (closeFrame_ne_nil _), by simp, hc⟩
  | closing =>
    rw [hc] at hp
    exact (progressInv_ending hp).2 ⟨hb, by simp [endingInv, hc]⟩
  | closed =>
    rw [hc] at hp
    exact (progressInv_ending hp).2 ⟨hb, by simp [endingInv, hc]⟩

/-- SEND_CLOSE (R174). -/
theorem State.Inv.keepsInv_sendClose {s : State} (h : s.Inv) : KeepsInv (execSendClose s) := by
  refine h.keepsInv_accept ?_
  exact progressInv_send (s := { s with busy := true, progress := sendProgress (closeFrame s.txcode) s })
    (closeFrame_ne_nil _) rfl rfl

/-- Every command the host can start keeps the invariant (R95, R96). -/
theorem State.Inv.keepsInv_command {s : State} (h : s.Inv) (hb : s.busy = false) (c : BitVec 4) :
    KeepsInv (exec (decodeCommand c) s) := by
  unfold decodeCommand
  split
  · exact h.keepsInv_accept_ending (Or.inl rfl)
  · exact h.keepsInv_read hb
  · exact h.keepsInv_sendPayload fun p => encodeFrame_ne_nil _ _ _ _ p
  · exact h.keepsInv_sendPayload fun p => encodeFrame_ne_nil _ _ _ _ p
  · exact h.keepsInv_sendPayload fun p => encodeFrame_ne_nil _ _ _ _ p
  · exact h.keepsInv_sendClose
  · exact h.keepsInv_accept (progressInv_closeCall rfl rfl)
  · exact h.keepsInv_sendPayload fun p => encodeFrame_ne_nil _ _ _ _ p
  · exact h.keepsInv_accept_ending (Or.inr rfl)

/-! ### The block's steps (R10) -/

theorem blockStep_idle {s : State} (hp : s.progress = .idle) : blockStep s = .next s := by
  simp only [blockStep, hp]

theorem blockStep_sending {s : State} {frame : List Byte} {k : Nat} {later : List (List Byte)} {last : Ending}
    (hp : s.progress = .sending frame k later last) :
    blockStep s = .next (offerByte frame k later last s) := by
  simp only [blockStep, hp]

theorem blockStep_ending {s : State} {last : Ending} (hp : s.progress = .ending last) :
    blockStep s = .next (complete last s) := by
  simp only [blockStep, hp]

/-- The completing step (R10): the ending is legal, so it leaves a legal state (R208). -/
theorem State.Inv.complete {s : State} (h : s.Inv) {last : Ending} (hp : s.progress = .ending last) :
    (complete last s).Inv := by
  obtain ⟨-, hl⟩ := (progressInv_ending hp).1 h.progress
  have hidle : s.dphase = .idle ∨ s.cstate = .closed := by
    by_cases hd : s.dphase = .idle
    · exact Or.inl hd
    · exact Or.inr ((h.cut hd).resolve_left (by rw [hp]; exact fun h => nomatch h))
  cases last with
  | finish st =>
    refine h.finish ?_ hidle
    rcases hl with rfl | rfl <;> exact fun h => nomatch h
  | abort st =>
    refine h.abort ?_
    rw [hl.1]
    exact fun h => nomatch h
  | moveTo c =>
    cases c with
    | established => exact hl.elim
    | closing =>
      have hc : s.cstate = .established := hl
      have hd : s.dphase = .idle := hidle.resolve_right fun h => nomatch hc.symm.trans h
      exact ⟨⟨fun ht => (nomatch hc.symm.trans (h.released.1 ht)), fun h => nomatch h⟩, rfl, h.decoder, h.valid,
        fun hne => absurd hd hne, h.noKey, ⟨h.noAnomaly.1, fun h => nomatch h⟩, h.rxCells, h.rxRoom, h.txRoom,
        h.rxForm, h.txForm⟩
    | closed => exact h.abort fun h => nomatch h

/-- Where `TxFrame` stands after a byte is legal again (R166). -/
theorem progressInv_advance {s : State} {frame : List Byte} {k : Nat} {later : List (List Byte)} {last : Ending}
    (hb : s.busy = true) (hc : s.cstate ≠ .closed) (hl : ∀ f ∈ later, f ≠ []) (he : endingInv last s)
    (hp : s.progress = advance frame k later last) : progressInv s := by
  unfold advance at hp
  split at hp
  · exact (progressInv_sending hp).2 ⟨hb, hc, ‹_›, hl, he⟩
  · cases later with
    | nil => exact (progressInv_ending hp).2 ⟨hb, he⟩
    | cons f fs =>
      exact (progressInv_sending hp).2
        ⟨hb, hc, List.length_pos_iff.2 (hl f (by simp)), fun g hg => hl g (List.mem_cons_of_mem _ hg), he⟩

/-- The step that offers a byte (R166, R176, R285). -/
theorem State.Inv.offerByte {s : State} (h : s.Inv) {frame : List Byte} {k : Nat} {later : List (List Byte)}
    {last : Ending} (hp : s.progress = .sending frame k later last) : (offerByte frame k later last s).Inv := by
  obtain ⟨hb, hc, hk, hl, he⟩ := (progressInv_sending hp).1 h.progress
  have hget : frame[k]? = some frame[k] := List.getElem?_eq_getElem hk
  have hidle : s.dphase = .idle := by
    by_contra hd
    rcases h.cut hd with hdec | hcl
    · rw [hp] at hdec
      cases hdec
    · exact hc hcl
  cases ha : s.transport.answers with
  | nil => rwa [offerByte_no_answer hk ha]
  | cons a rest =>
    cases a with
    | ok =>
      rw [offerByte_ok hget ha]
      exact ⟨h.released, progressInv_advance hb hc hl he rfl, h.decoder, h.valid, fun hd => absurd hidle hd, h.noKey,
        h.noAnomaly, h.rxCells, h.rxRoom, h.txRoom, h.rxForm, h.txForm⟩
    | fail =>
      rw [offerByte_fail hget ha]
      exact (h.env _ _ _ _ _ _ _ _ _ _ _ _ _).abort fun h => nomatch h

/-- An end of stream (R131). -/
theorem State.Inv.takeEos {s : State} (h : s.Inv) : (takeEos s).Inv := by
  unfold Sys2Proof.Machine.takeEos
  split <;> exact h.abort fun h => nomatch h

theorem State.Inv.withRx {s : State} (h : s.Inv) (rest : List RxSym) : (withRx s rest).Inv :=
  h.env _ _ _ _ _ _ _ _ _ _ _ _ _

/-- One symbol of the stream (R120, R131, R132). -/
theorem State.Inv.keepsInv_symbol {s : State} (h : s.Inv) (hp : s.progress = .decoding) (sym : RxSym) :
    KeepsInv (takeSymbol sym s) := by
  cases sym with
  | byte b => exact takeByte_inv h hp b
  | eos => exact keepsInv_next h.takeEos
  | fail => exact keepsInv_next (h.abort fun h => nomatch h)

/-- Every step of the block keeps the invariant, and none faults (R10). -/
theorem State.Inv.keepsInv_block {s : State} (h : s.Inv) : KeepsInv (blockStep s) := by
  cases hp : s.progress with
  | idle =>
    rw [blockStep_idle hp]
    exact keepsInv_next h
  | decoding =>
    cases hr : s.transport.rx with
    | nil =>
      rw [blockStep_no_symbol hp hr]
      exact keepsInv_next h
    | cons sym rest =>
      rw [blockStep_symbol hp hr]
      exact (h.withRx rest).keepsInv_symbol hp sym
  | sending frame k later last =>
    rw [blockStep_sending hp]
    exact keepsInv_next (h.offerByte hp)
  | ending last =>
    rw [blockStep_ending hp]
    exact keepsInv_next (h.complete hp)

/-! ### The host's steps (R112) -/

theorem State.Inv.writeOperand {s : State} (h : s.Inv) (n : BitVec 8) (v : Word64) : (writeOperand s n v).Inv := by
  unfold Sys2Proof.Machine.writeOperand
  split <;> exact h.env _ _ _ _ _ _ _ _ _ _ _ _ _

theorem State.Inv.hostReturn {s : State} (h : s.Inv) (v : Word64) : (hostReturn v s).Inv :=
  h.env _ _ _ _ _ _ _ _ _ _ _ _ _

/-- A host register write (R22, R96, R280). -/
theorem State.Inv.keepsInv_writeReg {s : State} (h : s.Inv) (n : BitVec 8) (v : Word64) :
    KeepsInv (hostWriteReg n v s) := by
  unfold hostWriteReg
  split
  · exact keepsInv_next h
  · split
    · exact keepsInv_refused _
    · rename_i hb
      split
      · exact keepsInv_next h
      · split
        · split
          · exact h.keepsInv_command (Bool.eq_false_iff.2 hb) _
          · exact keepsInv_next (h.writeOperand n v)
        · exact keepsInv_refused _

/-- A host write of a TXBUF byte (R63, R66). -/
theorem State.Inv.keepsInv_writeBuf {s : State} (h : s.Inv) (a : Word64) (b : Byte) :
    KeepsInv (hostWriteBuf a b s) := by
  unfold hostWriteBuf
  split
  · exact keepsInv_refused _
  · split
    · rename_i hcap
      refine keepsInv_next ⟨h.released, h.progress, h.decoder, h.valid, h.cut, h.noKey, h.noAnomaly, h.rxCells,
        h.rxRoom, fun x hx => ?_, h.rxForm, Memory.wf_write h.txForm _ _⟩
      rw [Memory.read_write] at hx
      split at hx
      · rwa [← ‹a.toNat = x›]
      · exact h.txRoom x hx
    · exact keepsInv_refused _

/-- A host read of a buffer byte (R65, R66). -/
theorem State.Inv.keepsInv_readBuf {s : State} (h : s.Inv) (space : BufSpace) (a : Word64) :
    KeepsInv (hostReadBuf space a s) := by
  unfold hostReadBuf
  split
  · split
    · exact keepsInv_next (h.hostReturn _)
    · exact keepsInv_next (h.env _ _ _ _ _ _ _ _ _ _ _ _ _)
  · exact keepsInv_refused _

/-- A poll of WAIT (R110). -/
theorem State.Inv.hostPoll {s : State} (h : s.Inv) : (hostPoll s).Inv := by
  rw [hostPoll_frame]
  exact h.env _ _ _ _ _ _ _ _ _ _ _ _ _

/-- Every bus action keeps the invariant, and none faults (R112). -/
theorem State.Inv.keepsInv_action {s : State} (h : s.Inv) (a : BusAction) : KeepsInv (busAction a s) := by
  cases a with
  | writeReg n v => exact h.keepsInv_writeReg n v
  | readReg n => exact keepsInv_next (h.hostReturn _)
  | writeBuf a b => exact h.keepsInv_writeBuf a b
  | readBuf space a => exact h.keepsInv_readBuf space a
  | wait => exact keepsInv_next h.hostPoll
  | reset t => exact keepsInv_next (hostReset_inv t s)

theorem State.Inv.keepsInv_host {s : State} (h : s.Inv) : KeepsInv (hostStep s) := by
  unfold hostStep
  split
  · exact keepsInv_next h
  · exact State.Inv.keepsInv_action (h.env _ _ _ _ _ _ _ _ _ _ _ _ _) _

/-! ### The machine (R72) -/

/-- Every step from the invariant keeps it, and none faults. -/
theorem State.Inv.keepsInv_step {s : State} (h : s.Inv) : KeepsInv (step s) := by
  have ht : (takeTurn s).Inv := h.env _ _ _ _ _ _ _ _ _ _ _ _ _
  cases hn : nextAgent s with
  | host =>
    rw [step_of_host hn]
    exact ht.keepsInv_host
  | block =>
    rw [step_of_block hn]
    exact ht.keepsInv_block

/-- Settles O46: each of the block's steps and each bus action keeps it. -/
theorem stepKeepsInvariant : Obligations.StepKeepsInvariant :=
  fun _ t h ht => h.keepsInv_step.1 t ht

/-- Settles O47: no step faults and each leaves a state of the invariant, by induction on the number of steps. -/
theorem invariantExcludesFaults : Obligations.InvariantExcludesFaults := by
  intro n
  induction n with
  | zero => exact fun s _ e he => nomatch he
  | succ n ih =>
    intro s h e
    obtain ⟨hinv, hfault⟩ := h.keepsInv_step
    rw [run_step]
    cases hs : step s with
    | next t => exact ih t (hinv t hs) e
    | fault r => exact absurd hs (hfault r)
    | refused r => exact fun he => nomatch he

end Sys2Proof.Machine
end

section
/-! Proofs of the statements about the state: a failed write, and what the block leaves alone. -/

namespace Sys2Proof.Machine

/-! ### A write failure (R176, R245) -/

/-- Settles O30: the bytes before the failing one are taken one a step, and the step that offers it aborts. -/
theorem writeFailureAborts : Obligations.WriteFailureAborts := by
  intro s frame later last j rest ht hb hp hj ha
  have hp0 : s.progress = advance frame 0 later last := by rw [hp, advance_lt (by omega)]
  have htaken := run_bytes j ht hb hp0 (by omega) ha
  rw [List.drop_zero, Nat.zero_add, advance_lt hj] at htaken
  obtain ⟨u, hu⟩ : ∃ u, u = { afterSend s (frame.take j) (.fail :: rest) with
      progress := .sending frame j later last } := ⟨_, rfl⟩
  rw [← hu] at htaken
  have hfail : step u = .next (offerByte frame j later last u) := by
    rw [step_busy (by rw [hu]; exact ht) (by rw [hu]; exact hb), blockStep_sending (by rw [hu])]
  rw [run_add j 1 htaken, run_one, hfail,
    offerByte_fail (List.getElem?_eq_getElem hj) (rest := rest) (by rw [hu]; rfl), hu]
  rfl

/-! ### What the block never writes (R24, R40 to R42, R63) -/

/-- The part of the state the block only reads: the operand registers, TXBUF, CMD, the host's side, the parameters and
the model's counter (R24, R40 to R42, R63). -/
structure HostSide where
  cmd : BitVec 4
  txfin : Bool
  txop : BitVec 4
  txmask : Bool
  txkey : Key
  txlen : Word64
  txcode : BitVec 16
  txbuf : Memory
  hostQueue : List BusAction
  hostReads : List Word64
  params : Params
  freeCount : Nat

/-- The part of `s` that the block only reads. -/
def hostSide (s : State) : HostSide :=
  { cmd := s.cmd, txfin := s.txfin, txop := s.txop, txmask := s.txmask, txkey := s.txkey, txlen := s.txlen
    txcode := s.txcode, txbuf := s.txbuf, hostQueue := s.hostQueue, hostReads := s.hostReads, params := s.params
    freeCount := s.freeCount }

/-- A result whose next state, if it answers one, holds the host side `v`. -/
def HasHostSide (v : HostSide) (r : Result) : Prop := ∀ t, r = .next t → hostSide t = v

theorem hasHostSide_next {v : HostSide} {t : State} (h : hostSide t = v) : HasHostSide v (.next t) := by
  intro u hu
  cases hu
  exact h

theorem hasHostSide_fault (v : HostSide) (e : Fault) : HasHostSide v (.fault e) := fun _ ht => nomatch ht

theorem hasHostSide_refused (v : HostSide) (e : Refusal) : HasHostSide v (.refused e) := fun _ ht => nomatch ht

theorem hostSide_moveTo (c : CState) (s : State) : hostSide (moveTo c s) = hostSide s := by
  cases c <;> rfl

theorem hostSide_complete (last : Ending) (s : State) : hostSide (complete last s) = hostSide s := by
  cases last with
  | finish st => rfl
  | moveTo c => exact hostSide_moveTo c s
  | abort st => rfl

theorem hostSide_offerByte (frame : List Byte) (k : Nat) (later : List (List Byte)) (last : Ending) (s : State) :
    hostSide (offerByte frame k later last s) = hostSide s := by
  unfold offerByte
  split
  · rfl
  · split <;> rfl

theorem hostSide_takeEos (s : State) : hostSide (takeEos s) = hostSide s := by
  unfold takeEos
  split <;> rfl

/-- A frame's reaction (R211). -/
theorem hasHostSide_reaction (op : BitVec 4) (s : State) : HasHostSide (hostSide s) (reactionOf op s) := by
  unfold reactionOf
  split
  · unfold rxClose
    split
    · split
      · exact hasHostSide_refused _ _
      · split
        · exact hasHostSide_fault _ _
        · exact hasHostSide_next rfl
    · exact hasHostSide_next rfl
    · exact hasHostSide_next rfl
  · split
    · unfold pongReply
      split
      · exact hasHostSide_fault _ _
      · exact hasHostSide_next rfl
    · exact hasHostSide_next rfl

/-- `Complete()` (R138). -/
theorem hasHostSide_completeFrame (s : State) : HasHostSide (hostSide s) (completeFrame s) := by
  rw [completeFrame_eq, show rxRow s = rxRow (frameDone s) from rfl, exec_rxRow (s := frameDone s) rfl]
  exact hasHostSide_reaction _ (frameDone s)

/-- `StartPayload()` (R130). -/
theorem hasHostSide_startPayload (s : State) : HasHostSide (hostSide s) (startPayload s) := by
  unfold startPayload
  split
  · exact hasHostSide_completeFrame s
  · exact hasHostSide_next rfl

/-- `AfterLength()` (R130). -/
theorem hasHostSide_afterLength (s : State) : HasHostSide (hostSide s) (afterLength s) := by
  unfold afterLength
  split
  · exact hasHostSide_next rfl
  · exact hasHostSide_startPayload s

/-- The mask row (R130). -/
theorem hasHostSide_maskRow (s : State) : HasHostSide (hostSide s) (exec (maskRow s.rxmask) s) := by
  rw [← afterLength_eq]
  exact hasHostSide_afterLength s

/-- Byte 1 (R124). -/
theorem hasHostSide_decodeLength (b : Byte) (s : State) : HasHostSide (hostSide s) (exec (decodeLength b) s) := by
  rw [exec_decodeLength]
  split
  · exact hasHostSide_next rfl
  · exact hasHostSide_afterLength { hdr1 (maskOf b) (lenOf b) s with rxplen := (lenOf b).setWidth 64 }

/-- An extended-length byte (R126, R127). -/
theorem hasHostSide_takeExtLen (b : Byte) (s : State) : HasHostSide (hostSide s) (takeExtLen b s) := by
  by_cases hl : s.didx + 1 = xlen s.rxlen7
  · rw [takeExtLen_last b hl]
    exact hasHostSide_maskRow { s with rxplen := pushByte s.rxplen b, didx := xlen s.rxlen7 }
  · rw [takeExtLen_more b hl]
    exact hasHostSide_next rfl

/-- A key byte (R128). -/
theorem hasHostSide_takeKey (b : Byte) (s : State) : HasHostSide (hostSide s) (takeKey b s) := by
  by_cases hl : s.didx + 1 = 4
  · rw [takeKey_last b hl]
    exact hasHostSide_startPayload { s with rxkey := s.rxkey.set s.didx b, didx := 4 }
  · rw [takeKey_more b hl]
    exact hasHostSide_next rfl

/-- A payload byte (R129). -/
theorem hasHostSide_takePayload (b : Byte) (s : State) : HasHostSide (hostSide s) (takePayload b s) := by
  by_cases hc : inCapacity s.params.rxbufBytes s.rxcnt.toNat = true
  · by_cases hl : s.rxcnt + 1 = s.rxplen
    · rw [takePayload_last b hc hl]
      exact hasHostSide_completeFrame { s with rxraw := s.rxraw.write s.rxcnt.toNat b, rxcnt := s.rxcnt + 1 }
    · rw [takePayload_more b hc hl]
      exact hasHostSide_next rfl
  · rw [takePayload, if_neg hc]
    exact hasHostSide_refused _ _

/-- One byte of the stream (R120, R123 to R129). -/
theorem hasHostSide_takeByte (b : Byte) (s : State) : HasHostSide (hostSide s) (takeByte b s) := by
  unfold takeByte
  split
  · exact hasHostSide_fault _ _
  · rename_i hd
    rw [exec_decodeOpcode_header b (by rw [hd]; exact fun h => nomatch h)]
    exact hasHostSide_next rfl
  · exact hasHostSide_decodeLength b s
  · exact hasHostSide_takeExtLen b s
  · exact hasHostSide_takeKey b s
  · exact hasHostSide_takePayload b s

/-- One symbol of the stream (R120, R131, R132). -/
theorem hasHostSide_takeSymbol (sym : RxSym) (s : State) : HasHostSide (hostSide s) (takeSymbol sym s) := by
  cases sym with
  | byte b => exact hasHostSide_takeByte b s
  | eos => exact hasHostSide_next (hostSide_takeEos s)
  | fail => exact hasHostSide_next rfl

/-- No step of the block writes the host's side (R10). -/
theorem hasHostSide_blockStep (s : State) : HasHostSide (hostSide s) (blockStep s) := by
  cases hp : s.progress with
  | idle =>
    rw [blockStep_idle hp]
    exact hasHostSide_next rfl
  | decoding =>
    cases hr : s.transport.rx with
    | nil =>
      rw [blockStep_no_symbol hp hr]
      exact hasHostSide_next rfl
    | cons sym rest =>
      rw [blockStep_symbol hp hr]
      exact hasHostSide_takeSymbol sym (withRx s rest)
  | sending frame k later last =>
    rw [blockStep_sending hp]
    exact hasHostSide_next (hostSide_offerByte frame k later last s)
  | ending last =>
    rw [blockStep_ending hp]
    exact hasHostSide_next (hostSide_complete last s)

/-- Settles O50: each of the block's operations keeps the host's side. -/
theorem blockNeverWritesOperands : Obligations.BlockNeverWritesOperands := by
  intro s t hn hs
  rw [step_of_block hn] at hs
  have hside : hostSide t = hostSide (takeTurn s) := hasHostSide_blockStep (takeTurn s) t hs
  injection hside with hcmd hfin hop hmask hkey hlen hcode hbuf hqueue hreads hparams hfree
  exact ⟨hfin, hop, hmask, hkey, hlen, hcode, hbuf, hcmd, hqueue, hreads, hparams, hfree⟩

end Sys2Proof.Machine
end

section
/-! Proofs of the statements about the state: the register map and the host's writes. -/

namespace Sys2Proof.Machine

/-! ### The register map (R22, R23, R46) -/

/-- Settles O1: every field of the reset state is the one the specification names. -/
theorem resetRegisterValues : Obligations.ResetRegisterValues :=
  ⟨rfl, rfl, rfl, rfl, rfl, rfl, rfl, rfl, rfl, rfl, rfl, rfl, rfl, rfl, rfl, rfl, rfl, rfl, rfl, rfl, rfl, rfl, rfl,
    rfl, Memory.read_nil, Memory.read_nil⟩

/-- A number above the map reads 0 (R23). -/
theorem readRegister_reserved (s : State) {n : BitVec 8} (hn : 0x17 ≤ n.toNat) : readRegister s n = 0 := by
  unfold readRegister
  split
  case h_24 => rfl
  all_goals omega

/-- The key as a number: the first key byte is the most significant (R44). -/
theorem pack_toNat (k : Key) :
    k.pack.toNat = k.k0.toNat * 2 ^ 24 + k.k1.toNat * 2 ^ 16 + k.k2.toNat * 2 ^ 8 + k.k3.toNat := by
  unfold Key.pack
  simp only [append_toNat]
  omega

/-- Settles O53: each number of the map by its own row. -/
theorem registersReadAtTheirNumbers : Obligations.RegistersReadAtTheirNumbers := by
  intro s
  have hext : ∀ {w : Nat} (v : BitVec w), w ≤ 64 → (v.setWidth 64).toNat = v.toNat := fun v hw =>
    BitVec.toNat_setWidth_of_le hw
  have hkey : ∀ k : Key, (k.pack.setWidth 64).toNat =
      k.k0.toNat * 2 ^ 24 + k.k1.toNat * 2 ^ 16 + k.k2.toNat * 2 ^ 8 + k.k3.toNat := fun k =>
    (hext k.pack (by decide)).trans (pack_toNat k)
  refine ⟨hext s.cmd (by decide), ?_, rfl, ?_, rfl, rfl, ?_, hext s.didx (by decide), rfl, rfl,
    hext s.rxop (by decide), rfl, hext s.rxlen7 (by decide), rfl, hkey s.rxkey, rfl, rfl, hext s.txop (by decide), rfl,
    hkey s.txkey, rfl, hext s.txcode (by decide), rfl, fun n hn => readRegister_reserved s hn⟩
  · show s.status.code.setWidth 64 = _
    cases s.status <;> rfl
  · show s.cstate.code.setWidth 64 = _
    cases s.cstate <;> rfl
  · show s.dphase.code.setWidth 64 = _
    cases s.dphase <;> rfl

/-! ### A host register write (R22, R24, R96, R280) -/

/-- The command place decodes the low four bits (R95). -/
theorem decode_command {v : Word64} (hv : v.toNat < 16) :
    decode .command (v.setWidth 8) = .ok (decodeCommand (v.setWidth 4)) := by
  have hfits : (v.setWidth 8).toNat < 16 := by
    rw [BitVec.toNat_setWidth, Nat.mod_eq_of_lt (by omega)]
    exact hv
  rw [decode, if_pos hfits, BitVec.setWidth_setWidth_of_le _ (by decide)]

/-- Settles O6: the write fits CMD and CMD is free. -/
theorem hostCommandWriteRunsDecoded : Obligations.HostCommandWriteRunsDecoded := by
  intro s v q i hn hb hq hv hi
  rw [decode_command hv] at hi
  cases hi
  rw [step_action hn hq, busAction,
    hostWriteReg_fits (s := { s with hostQueue := q, turns := s.turns.tail }) (w := 4) hb rfl hv, if_pos rfl]

/-- A write to a reserved number has no effect, whatever BUSY is (R23; log 6). -/
theorem hostWriteReg_reserved (s : State) {n : BitVec 8} (hn : isReserved n = true) (v : Word64) :
    hostWriteReg n v s = .next s := by
  rw [hostWriteReg, if_pos hn]

/-- A write to a register is refused while BUSY = 1 (R280). -/
theorem hostWriteReg_busy {s : State} {n : BitVec 8} (hn : isReserved n = false) (hb : s.busy = true) (v : Word64) :
    hostWriteReg n v s = .refused .hostWriteWhileBusy := by
  rw [hostWriteReg, if_neg (by simp [hn]), if_pos hb]

/-- A write to a register the host may not write has no effect (R22). -/
theorem hostWriteReg_readOnly {s : State} {n : BitVec 8} (hb : s.busy = false) (hn : writableWidth n = none)
    (v : Word64) : hostWriteReg n v s = .next s := by
  cases hr : isReserved n with
  | true => exact hostWriteReg_reserved s hr v
  | false => simp [hostWriteReg, hr, hb, hn]

theorem isReserved_iff (n : BitVec 8) : isReserved n = true ↔ 0x17 ≤ n.toNat := decide_eq_true_iff

/-- Settles O40: the write changes nothing, and a reserved number reads 0. -/
theorem readOnlyAndReservedWritesHaveNoEffect : Obligations.ReadOnlyAndReservedWritesHaveNoEffect := by
  intro s n v q hn hb hq hw
  refine ⟨?_, readRegister_reserved s⟩
  rw [step_action hn hq]
  exact hostWriteReg_readOnly (s := { s with hostQueue := q, turns := s.turns.tail }) hb hw v

/-- A host read of a buffer address that exists is answered, written or not (R61, R65; log 5). -/
theorem hostReadBuf_answers {s : State} {space : BufSpace} {a : Word64}
    (hc : inCapacity (capacityOf space s) a.toNat = true) :
    ∃ t v, hostReadBuf space a s = .next t ∧ t.hostReads = s.hostReads ++ [v] := by
  rw [hostReadBuf, if_pos hc]
  cases bufferByte space a.toNat s with
  | none => exact ⟨_, _, rfl, rfl⟩
  | some b => exact ⟨_, _, rfl, rfl⟩

/-- Settles O38: each kind of bus action by what it does while BUSY = 1. -/
theorem busyRefusesHostWrites : Obligations.BusyRefusesHostWrites := by
  intro s q hn hb
  obtain ⟨u, hu⟩ : ∃ u, u = { s with hostQueue := q, turns := s.turns.tail } := ⟨_, rfl⟩
  have hub : u.busy = true := by rw [hu]; exact hb
  have hstep : ∀ a : BusAction, s.hostQueue = a :: q → step s = busAction a u := fun a hq => by
    rw [step_action hn hq, hu]
  refine ⟨fun n v hle hq => ?_, fun n v hge hq => ?_, fun a b hq => ?_, fun n hq => ?_, fun space a hq hc => ?_⟩
  · have hr : isReserved n = false := Bool.eq_false_iff.2 fun h => by
      have := (isReserved_iff n).1 h
      omega
    exact (hstep _ hq).trans (hostWriteReg_busy hr hub v)
  · rw [← hu]
    exact (hstep _ hq).trans (hostWriteReg_reserved u ((isReserved_iff n).2 hge) v)
  · exact (hstep _ hq).trans (by simp [busAction, hostWriteBuf, hub])
  · exact ⟨_, hstep _ hq, by rw [hu]; rfl⟩
  · obtain ⟨t, v, ht, hv⟩ := hostReadBuf_answers (s := u) (space := space) (a := a) (by rw [hu]; exact hc)
    exact ⟨t, v, (hstep _ hq).trans ht, by rw [hv, hu]⟩

/-! ### Operand writes (R40 to R42, R44) -/

/-- The operand registers and their widths: the writable registers but CMD (R23). -/
theorem writableWidth_operand {n : BitVec 8} {w : Nat} (hw : writableWidth n = some w) (hn : n ≠ 0) :
    (n = 0x10 ∧ w = 1) ∨ (n = 0x11 ∧ w = 4) ∨ (n = 0x12 ∧ w = 1) ∨ (n = 0x13 ∧ w = 32) ∨ (n = 0x14 ∧ w = 64) ∨
      (n = 0x15 ∧ w = 16) := by
  have hcase : ∀ k : BitVec 8, n.toNat = k.toNat → n = k := fun k h => BitVec.eq_of_toNat_eq h
  unfold writableWidth at hw
  split at hw <;> rename_i h <;> cases hw
  · exact absurd (hcase 0x00 h) hn
  · simp [hcase 0x10 h]
  · simp [hcase 0x11 h]
  · simp [hcase 0x12 h]
  · simp [hcase 0x13 h]
  · simp [hcase 0x14 h]
  · simp [hcase 0x15 h]

/-- A one-bit value is the bit a read of its register returns. -/
theorem bitReg_getLsbD {v : Word64} (hv : v.toNat < 2 ^ 1) : bitReg (v.getLsbD 0) = v := by
  have h : v = 0 ∨ v = 1 := by
    rcases Nat.lt_or_ge v.toNat 1 with h0 | h1
    · exact Or.inl (BitVec.eq_of_toNat_eq (by simp; omega))
    · exact Or.inr (BitVec.eq_of_toNat_eq (by simp; omega))
  rcases h with rfl | rfl <;> rfl

/-- A value that fits a register of `w` bits is read back whole from it. -/
theorem setWidth_setWidth_of_fits {v : Word64} {w : Nat} (hv : v.toNat < 2 ^ w) : (v.setWidth w).setWidth 64 = v := by
  apply BitVec.eq_of_toNat_eq
  rw [BitVec.toNat_setWidth, BitVec.toNat_setWidth, Nat.mod_eq_of_lt hv, Nat.mod_eq_of_lt v.isLt]

/-- An operand register reads the value written to it, where that fits (R22, R44). -/
theorem readRegister_writeOperand_same (s : State) {n : BitVec 8} {v : Word64} {w : Nat} (hn : n ≠ 0)
    (hw : writableWidth n = some w) (hv : v.toNat < 2 ^ w) : readRegister (writeOperand s n v) n = v := by
  obtain ⟨rfl, rfl⟩ | ⟨rfl, rfl⟩ | ⟨rfl, rfl⟩ | ⟨rfl, rfl⟩ | ⟨rfl, rfl⟩ | ⟨rfl, rfl⟩ := writableWidth_operand hw hn
  · exact bitReg_getLsbD hv
  · exact setWidth_setWidth_of_fits hv
  · exact bitReg_getLsbD hv
  · show (Key.unpack (v.setWidth 32)).pack.setWidth 64 = v
    rw [Key.pack_unpack, setWidth_setWidth_of_fits hv]
  · rfl
  · exact setWidth_setWidth_of_fits hv

/-- No other register reads differently (R22). -/
theorem readRegister_writeOperand_other (s : State) {n m : BitVec 8} (hm : m ≠ n) (v : Word64) :
    readRegister (writeOperand s n v) m = readRegister s m := by
  have hne : m.toNat ≠ n.toNat := fun h => hm (BitVec.eq_of_toNat_eq h)
  unfold writeOperand
  split <;> unfold readRegister <;> split <;> first | rfl | omega

/-- An operand write changes the operand registers alone (R40 to R42). -/
theorem writeOperand_operands (s : State) (n : BitVec 8) (v : Word64) :
    writeOperand s n v =
      { s with
        txfin := (writeOperand s n v).txfin, txop := (writeOperand s n v).txop, txmask := (writeOperand s n v).txmask
        txkey := (writeOperand s n v).txkey, txlen := (writeOperand s n v).txlen
        txcode := (writeOperand s n v).txcode } := by
  unfold writeOperand
  split <;> rfl

/-- Settles O39: the value fits, so the write is `writeOperand`. -/
theorem operandWritesReadBack : Obligations.OperandWritesReadBack := by
  intro s n v w q hn hb hq h0 hw hv
  obtain ⟨u, hu⟩ : ∃ u, u = { s with hostQueue := q, turns := s.turns.tail } := ⟨_, rfl⟩
  have hstep : step s = .next (writeOperand u n v) := by
    rw [step_action hn hq, busAction, ← hu, hostWriteReg_fits (by rw [hu]; exact hb) hw hv, if_neg h0]
  refine ⟨_, hstep, readRegister_writeOperand_same u h0 hw hv, fun m hm => ?_, ?_⟩
  · rw [readRegister_writeOperand_other u hm, hu]
    rfl
  · rw [writeOperand_operands u n v, hu]

end Sys2Proof.Machine
end

section
/-! Proofs of the statements about the state: the host lines of FRAME. -/

namespace Sys2Proof.Machine

/-! ### A payload send from the host's lines (R110, R167) -/

/-- A send command's line with a payload the block can read, from its CMD write to the end of its WAIT (R110, R166). -/
theorem run_sendLine {s : State} {code : BitVec 4} {frameOf : List Byte → List Byte} {p : List Byte}
    {rest : List TxAnswer} (ht : s.turns = []) (hb : s.busy = false) (hc : s.cstate ≠ .closed)
    (hp : txPayload s = some p) (hq : s.hostQueue = commandLine code) (hne : frameOf p ≠ [])
    (hx : exec (decodeCommand code) { s with hostQueue := [.wait] } =
      sendPayload code frameOf { s with hostQueue := [.wait] })
    (ha : s.transport.answers = okThen (frameOf p).length rest) :
    run (1 + ((frameOf p).length + 1 + 1)) s =
      .next { ended .ok (afterSend (accepted code s) (frameOf p) rest) with
        hostQueue := [], hostReads := s.hostReads ++ [0] } :=
  run_commandLine ht hb hq hne (hx.trans (sendPayload_open code frameOf hb hc hp)) ha

/-- The operand writes of a FRAME line (R111). -/
def frameOperandWrites (fin : Bool) (op : BitVec 4) (mask : Bool) (k : BitVec 32) (n : Nat) :
    List (BitVec 8 × Word64) :=
  [(0x10, bitReg fin), (0x11, op.setWidth 64), (0x12, bitReg mask), (0x13, k.setWidth 64), (0x14, BitVec.ofNat 64 n)]

/-- FRAME as the payload bytes, the operand writes and the command line (R111). -/
theorem frameLines_eq (fin : Bool) (op : BitVec 4) (mask : Bool) (k : BitVec 32) (p : List Byte) :
    frameLines fin op mask k p =
      writeBytes 0 p ++ ((frameOperandWrites fin op mask k p.length).map (fun x => .writeReg x.1 x.2) ++
        commandLine 0x7) := by
  rw [frameLines, List.append_assoc]
  rfl

theorem bitReg_lt (b : Bool) : (bitReg b).toNat < 2 ^ 1 := by
  cases b <;> decide

@[simp] theorem getLsbD_bitReg (b : Bool) : (bitReg b).getLsbD 0 = b := by
  cases b <;> rfl

/-- Each operand of FRAME fits its register (R22). -/
theorem frameOperandWrites_fit (fin : Bool) (op : BitVec 4) (mask : Bool) (k : BitVec 32) (n : Nat) :
    ∀ x ∈ frameOperandWrites fin op mask k n, x.1 ≠ 0x00 ∧ ∃ w, writableWidth x.1 = some w ∧ x.2.toNat < 2 ^ w := by
  have hop : (op.setWidth 64).toNat < 2 ^ 4 := by
    rw [BitVec.toNat_setWidth_of_le (by decide)]
    exact op.isLt
  have hk : (k.setWidth 64).toNat < 2 ^ 32 := by
    rw [BitVec.toNat_setWidth_of_le (by decide)]
    exact k.isLt
  simp only [frameOperandWrites, List.forall_mem_cons]
  exact ⟨⟨by decide, 1, rfl, bitReg_lt fin⟩, ⟨by decide, 4, rfl, hop⟩, ⟨by decide, 1, rfl, bitReg_lt mask⟩,
    ⟨by decide, 32, rfl, hk⟩, ⟨by decide, 64, rfl, (BitVec.ofNat 64 n).isLt⟩, by simp⟩

/-- The operand registers hold what FRAME names (R44). -/
theorem foldl_frameOperandWrites (fin : Bool) (op : BitVec 4) (mask : Bool) (k : BitVec 32) (n : Nat) (s : State) :
    (frameOperandWrites fin op mask k n).foldl (fun t x => writeOperand t x.1 x.2) s =
      { s with
        txfin := fin, txop := op, txmask := mask, txkey := Key.unpack k, txlen := BitVec.ofNat 64 n } := by
  have hop : ((op.setWidth 64).setWidth 4 : BitVec 4) = op := by
    rw [BitVec.setWidth_setWidth_of_le _ (by decide), BitVec.setWidth_eq]
  have hk : ((k.setWidth 64).setWidth 32 : BitVec 32) = k := by
    rw [BitVec.setWidth_setWidth_of_le _ (by decide), BitVec.setWidth_eq]
  simp only [frameOperandWrites, List.foldl_cons, List.foldl_nil, writeOperand_txfin, writeOperand_txop,
    writeOperand_txmask, writeOperand_txkey, writeOperand_txlen, getLsbD_bitReg, hop, hk]

/-- The state after FRAME's writes, its command line still to come. -/
def frameLoaded (fin : Bool) (op : BitVec 4) (mask : Bool) (k : BitVec 32) (p : List Byte) (s : State) : State :=
  { s with
    hostQueue := commandLine 0x7, txbuf := writeCells s.txbuf 0 p
    txfin := fin, txop := op, txmask := mask, txkey := Key.unpack k, txlen := BitVec.ofNat 64 p.length }

/-- FRAME's writes, one bus action a step (R110). -/
theorem run_frameWrites {s : State} {fin : Bool} {op : BitVec 4} {mask : Bool} {k : BitVec 32} {p : List Byte}
    (ht : s.turns = []) (hb : s.busy = false) (hl : p.length < 2 ^ 64)
    (hc : ∀ c, s.params.txbufBytes = some c → p.length ≤ c) (hq : s.hostQueue = frameLines fin op mask k p) :
    run (p.length + 5) s = .next (frameLoaded fin op mask k p s) := by
  rw [frameLines_eq] at hq
  have hbytes := run_writeBytes p ht hb hq (by omega) (by simpa using hc)
  rw [run_add _ _ hbytes]
  have hoperands := run_writeOperands (frameOperandWrites fin op mask k p.length) (q := commandLine 0x7)
    (s := { s with
      hostQueue := (frameOperandWrites fin op mask k p.length).map (fun x => .writeReg x.1 x.2) ++ commandLine 0x7
      txbuf := writeCells s.txbuf 0 p }) ht hb (frameOperandWrites_fit fin op mask k p.length) rfl
  rw [foldl_frameOperandWrites] at hoperands
  exact hoperands

/-- Settles O58: the writes load TXBUF and the operands, and SEND_FRAME sends the frame they describe. -/
theorem frameLinesSendTheFrame : Obligations.FrameLinesSendTheFrame := by
  intro s fin op mask v p rest ht hb _ hcs hl hcap hq k ha
  have hload := run_frameWrites ht hb hl hcap hq
  obtain ⟨u, hu⟩ : ∃ u, u = frameLoaded fin op mask v p s := ⟨_, rfl⟩
  have hlen : u.txlen.toNat = p.length := by
    rw [hu]
    exact Nat.mod_eq_of_lt hl
  have hpay : txPayload u = some p :=
    txPayload_writeCells (m := s.txbuf) (by rw [hu]; rfl) hlen (by rw [hu]; exact hcap)
  have hsend := run_sendLine (s := u) (code := 0x7) (p := p) (rest := rest)
    (frameOf := encodeFrame u.txfin u.txop u.txmask u.txkey) (by rw [hu]; exact ht) (by rw [hu]; exact hb)
    (by rw [hu]; exact hcs) hpay (by rw [hu]; rfl) (encodeFrame_ne_nil _ _ _ _ _) rfl (by rw [hu]; exact ha)
  have hcells : ∀ a, (writeCells s.txbuf 0 p).read a = if a < p.length then p[a]? else s.txbuf.read a := fun a => by
    simpa using read_writeCells p s.txbuf 0 a
  rw [← hu] at hload
  refine ⟨_, _, (run_add _ _ hload).trans hsend, rfl, rfl, rfl, ?_⟩
  rw [hu]
  exact ⟨rfl, rfl, rfl, rfl, rfl, Nat.mod_eq_of_lt hl, rfl, rfl, hcells⟩

end Sys2Proof.Machine
end

section
/-! Proofs of the statements about the buffers: a payload byte taken into RXRAW, the host's TXBUF writes and buffer
reads, and what the host leaves alone while BUSY = 1. -/

namespace Sys2Proof.Machine

/-! ### A payload byte taken into RXRAW (R61, R66, R129) -/

/-- An address at or beyond a buffer's capacity does not exist (R66). -/
theorem inCapacity_eq_false {c a : Nat} (h : c ≤ a) : inCapacity (some c) a = false :=
  decide_eq_false (Nat.not_lt.2 h)

/-- A payload byte for which RXRAW has no room is refused (R129). -/
theorem takePayload_overflow {s : State} (b : Byte) (hc : inCapacity s.params.rxbufBytes s.rxcnt.toNat = false) :
    takePayload b s = .refused .rxBufferOverflow := by
  rw [takePayload, if_neg (Bool.eq_false_iff.1 hc)]

/-- The block's step with a payload byte ready (R120, R129). -/
theorem step_payloadByte {s : State} {b : Byte} {rest : List RxSym} (ha : nextAgent s = .block)
    (hp : s.progress = .decoding) (hd : s.dphase = .payload) (hr : s.transport.rx = .byte b :: rest) :
    step s = takePayload b { withRx s rest with turns := s.turns.tail } := by
  rw [step_symbol ha hp hr]
  exact takeByte_payload (s := { withRx s rest with turns := s.turns.tail }) hd b

/-- Settles O18: the step is `takePayload`, which writes the one cell RXCNT of RXRAW. -/
theorem payloadByteIsStored : Obligations.PayloadByteIsStored := by
  intro s b rest ha hp hd hr hc hl
  have hstep := (step_payloadByte ha hp hd hr).trans
    (takePayload_more (s := { withRx s rest with turns := s.turns.tail }) b hc hl)
  exact ⟨_, hstep, rfl, Memory.read_write_same s.rxraw _ b, fun a h => Memory.read_write_other s.rxraw b h, rfl⟩

/-- Settles O19: at RXCNT = RXBUF_BYTES or above, the address RXCNT does not exist. -/
theorem payloadBeyondBufferIsRefused : Obligations.PayloadBeyondBufferIsRefused := by
  intro s b rest c ha hp hd hr hbuf hle
  have hroom : inCapacity s.params.rxbufBytes s.rxcnt.toNat = false := by rw [hbuf, inCapacity_eq_false hle]
  rw [step_payloadByte ha hp hd hr]
  exact takePayload_overflow (s := { withRx s rest with turns := s.turns.tail }) b hroom

/-! ### The state in which a bus action runs (R72, R112) -/

/-- `s` when the host has taken its first bus action, before it runs; `q` is the queue left. -/
def actionTaken (s : State) (q : List BusAction) : State := { s with hostQueue := q, turns := s.turns.tail }

/-- The host's step, as its bus action run from `actionTaken`. -/
theorem step_actionTaken {s : State} {a : BusAction} {q : List BusAction} (hn : nextAgent s = .host)
    (hq : s.hostQueue = a :: q) : step s = busAction a (actionTaken s q) :=
  step_action hn hq

/-! ### A host write of a TXBUF byte (R63, R66, R280) -/

theorem hostWriteBuf_busy {s : State} (hb : s.busy = true) (a : Word64) (b : Byte) :
    hostWriteBuf a b s = .refused .hostWriteWhileBusy := by
  rw [hostWriteBuf, if_pos hb]

theorem hostWriteBuf_written {s : State} {a : Word64} (hb : s.busy = false)
    (hc : inCapacity s.params.txbufBytes a.toNat = true) (b : Byte) :
    hostWriteBuf a b s = .next { s with txbuf := s.txbuf.write a.toNat b } := by
  rw [hostWriteBuf, if_neg (Bool.eq_false_iff.1 hb), if_pos hc]

theorem hostWriteBuf_noAddress {s : State} {a : Word64} (hb : s.busy = false)
    (hc : inCapacity s.params.txbufBytes a.toNat = false) (b : Byte) :
    hostWriteBuf a b s = .refused .noSuchBufferAddress := by
  rw [hostWriteBuf, if_neg (Bool.eq_false_iff.1 hb), if_neg (Bool.eq_false_iff.1 hc)]

/-- Settles O43: the two sides of the capacity; an existing cell is written by `Memory.write`. -/
theorem txbufWriteWritesOneCell : Obligations.TxbufWriteWritesOneCell := by
  intro s a b q hn hb hq
  have hstep : step s = hostWriteBuf a b (actionTaken s q) := step_actionTaken hn hq
  refine ⟨fun hc => ?_, fun hc => hstep.trans (hostWriteBuf_noAddress (s := actionTaken s q) hb hc b)⟩
  exact ⟨_, hstep.trans (hostWriteBuf_written (s := actionTaken s q) hb hc b), Memory.read_write_same s.txbuf _ b,
    fun x h => Memory.read_write_other s.txbuf b h, fun hwf => Memory.wf_write hwf _ b, rfl⟩

/-! ### A host read of a buffer byte (R61 to R66, R69) -/

theorem hostReadBuf_written {s : State} {space : BufSpace} {a : Word64} {b : Byte}
    (hc : inCapacity (capacityOf space s) a.toNat = true) (hr : bufferByte space a.toNat s = some b) :
    hostReadBuf space a s = .next (hostReturn (b.setWidth 64) s) := by
  simp only [hostReadBuf, if_pos hc, hr]

/-- An unwritten cell answers the next free value (R65; log 5). -/
theorem hostReadBuf_unwritten {s : State} {space : BufSpace} {a : Word64}
    (hc : inCapacity (capacityOf space s) a.toNat = true) (hr : bufferByte space a.toNat s = none) :
    hostReadBuf space a s =
      .next (hostReturn ((Config.unwrittenByte s.freeCount).setWidth 64) { s with freeCount := s.freeCount + 1 }) := by
  simp only [hostReadBuf, if_pos hc, hr]

theorem hostReadBuf_noAddress {s : State} {space : BufSpace} {a : Word64}
    (hc : inCapacity (capacityOf space s) a.toNat = false) :
    hostReadBuf space a s = .refused .noSuchBufferAddress := by
  rw [hostReadBuf, if_neg (Bool.eq_false_iff.1 hc)]

/-- The host's step with a buffer read first in its queue. -/
theorem step_readBuf {s : State} {space : BufSpace} {a : Word64} {q : List BusAction} (hn : nextAgent s = .host)
    (hq : s.hostQueue = .readBuf space a :: q) : step s = hostReadBuf space a (actionTaken s q) :=
  step_actionTaken hn hq

/-- The unmask view of a written cell, by the entry of RXKEY that masks it (R62, R140). -/
theorem plainByte_written {s : State} {a : Nat} {b : Byte} (h : s.rxraw.read a = some b) :
    plainByte s a =
      some (b ^^^ if s.rxmask then [s.rxkey.k0, s.rxkey.k1, s.rxkey.k2, s.rxkey.k3].getD (a % 4) 0 else 0) := by
  simp only [plainByte, h, rxKeyByte, Key.at_eq_getD]

/-- Settles O41: a register is read by `readRegister`, a written cell by `bufferByte` in each of the three spaces. -/
theorem hostReadsHaveNoSideEffect : Obligations.HostReadsHaveNoSideEffect := by
  intro s q hn
  refine ⟨fun n hq => step_action hn hq, fun a b hb hc => ⟨fun hq => ?_, fun hq => ?_⟩, fun a b hb hc hq => ?_⟩
  · exact (step_readBuf hn hq).trans (hostReadBuf_written (s := actionTaken s q) hc hb)
  · exact (step_readBuf hn hq).trans (hostReadBuf_written (s := actionTaken s q) hc (plainByte_written hb))
  · exact (step_readBuf hn hq).trans (hostReadBuf_written (s := actionTaken s q) hc hb)

/-- Settles O42: the byte is the model's free value for this read. -/
theorem unwrittenCellReadsSomeByte : Obligations.UnwrittenCellReadsSomeByte := by
  intro s space a q hn hq hc hr
  have hcap : inCapacity (capacityOf space (actionTaken s q)) a.toNat = true := by
    cases space <;> exact hc
  have hcell : bufferByte space a.toNat (actionTaken s q) = none := by
    cases space <;> exact hr
  exact ⟨Config.unwrittenByte s.freeCount, (step_readBuf hn hq).trans (hostReadBuf_unwritten hcap hcell)⟩

/-- Settles O54: an address at or beyond the capacity of its space does not exist, in each of the three spaces. -/
theorem bufferReadsBeyondCapacityAreRefused : Obligations.BufferReadsBeyondCapacityAreRefused := by
  intro s a q c hn hle
  have hout : ∀ cap, cap = some c → inCapacity cap a.toNat = false := fun cap h => by
    rw [h, inCapacity_eq_false hle]
  exact ⟨fun hc hq => (step_readBuf hn hq).trans (hostReadBuf_noAddress (s := actionTaken s q) (hout _ hc)),
    fun hc hq => (step_readBuf hn hq).trans (hostReadBuf_noAddress (s := actionTaken s q) (hout _ hc)),
    fun hc hq => (step_readBuf hn hq).trans (hostReadBuf_noAddress (s := actionTaken s q) (hout _ hc))⟩

/-! ### The host while BUSY = 1 (R72, R280) -/

/-- `t` is `s` but for the host's own queue and reads, the turn list and the model's counter. -/
def SameBlock (s t : State) : Prop :=
  t = { s with hostQueue := t.hostQueue, hostReads := t.hostReads, turns := t.turns, freeCount := t.freeCount }

theorem sameBlock_hostPoll (s : State) : SameBlock s (hostPoll s) := by
  rw [hostPoll_frame]
  rfl

/-- No register write has an effect while BUSY = 1: a reserved number ignores it, any other refuses it (R23, R280). -/
theorem sameBlock_hostWriteReg {s t : State} (hb : s.busy = true) {n : BitVec 8} {v : Word64}
    (ht : hostWriteReg n v s = .next t) : SameBlock s t := by
  cases hr : isReserved n with
  | true =>
    rw [hostWriteReg_reserved s hr] at ht
    cases ht
    rfl
  | false =>
    rw [hostWriteReg_busy hr hb] at ht
    cases ht

theorem sameBlock_hostReadBuf {s t : State} {space : BufSpace} {a : Word64} (ht : hostReadBuf space a s = .next t) :
    SameBlock s t := by
  cases hc : inCapacity (capacityOf space s) a.toNat with
  | false =>
    rw [hostReadBuf_noAddress hc] at ht
    cases ht
  | true =>
    cases hr : bufferByte space a.toNat s with
    | none =>
      rw [hostReadBuf_unwritten hc hr] at ht
      cases ht
      rfl
    | some b =>
      rw [hostReadBuf_written hc hr] at ht
      cases ht
      rfl

/-- Every bus action but the reset event leaves the block alone while BUSY = 1 (R72, R280). -/
theorem sameBlock_busAction {s t : State} (hb : s.busy = true) {a : BusAction} (hreset : ∀ u, a ≠ .reset u)
    (ht : busAction a s = .next t) : SameBlock s t := by
  cases a with
  | writeReg n v => exact sameBlock_hostWriteReg hb ht
  | readReg n =>
    cases ht
    rfl
  | writeBuf a b =>
    rw [busAction, hostWriteBuf_busy hb] at ht
    cases ht
  | readBuf space a => exact sameBlock_hostReadBuf ht
  | wait =>
    cases ht
    exact sameBlock_hostPoll s
  | reset u => exact absurd rfl (hreset u)

/-- The host has no action left, so its step changes nothing (R112). -/
theorem hostStep_nil {s : State} (hq : s.hostQueue = []) : hostStep s = .next s := by
  simp only [hostStep, hq]

/-- Settles O52: the host's step is one bus action, or none where its queue is empty. -/
theorem busyBlockIsUndisturbed : Obligations.BusyBlockIsUndisturbed := by
  intro s t hn hb ht hreset
  cases hq : s.hostQueue with
  | nil =>
    rw [step_of_host hn, hostStep_nil (s := takeTurn s) hq] at ht
    cases ht
    rfl
  | cons a q =>
    rw [step_actionTaken hn hq] at ht
    exact sameBlock_busAction (s := actionTaken s q) hb (fun u h => hreset u q (by rw [hq, h])) ht

end Sys2Proof.Machine
end

section
/-! Proofs of the statements about the encodings: the decoder and the encoder of instructions at their four places. -/

namespace Sys2Proof

/-! ### Commands (R95, R98) -/

/-- A 4-bit code decodes to a well-formed command, which encodes back to that code (R95). -/
theorem encode_decodeCommand (c : BitVec 4) :
    (decodeCommand c).wf = true ∧ encode (decodeCommand c) = (.command, c.setWidth 8) := by
  revert c; decide

/-- A byte that decodes at the command place is a 4-bit code, extended by zeros (R24, R95). -/
theorem decode_command_ok {b : Byte} {i : Instr} (h : decode .command b = .ok i) :
    i = decodeCommand (b.setWidth 4) ∧ (b.setWidth 4).setWidth 8 = b := by
  rw [decode] at h
  split at h
  · rename_i hb
    cases h
    refine ⟨rfl, BitVec.eq_of_toNat_eq ?_⟩
    rw [BitVec.toNat_setWidth_of_le (by decide), BitVec.toNat_setWidth, Nat.mod_eq_of_lt hb]
  · cases h

/-- The three low bits of an unassigned code come back (R98). -/
theorem decode_unassigned (c : BitVec 3) : decode .command (0b00001#5 ++ c) = .ok (.unassigned c) := by
  revert c; decide

/-! ### Byte 0 (R81, R85, R86) -/

/-- The opcode row of a byte is well formed and encodes back to the three fields of the byte (R81). -/
theorem encode_decodeOpcode (b : Byte) :
    (decodeOpcode b).wf = true ∧
      encode (decodeOpcode b) = (.opcode, byte0 (finOf b) (rsvOf b) (opcodeOf b)) := by
  unfold decodeOpcode
  rcases Machine.opcode_cases (opcodeOf b) with
    h | h | h | h | h | h | h | h | h | h | h | h | h | h | h | h <;> rw [h] <;> exact ⟨rfl, rfl⟩

/-! ### Byte 1 (R82, R88, R90) -/

/-- The length row of a byte, by the value of its length field (R88). -/
theorem decodeLength_cases (b : Byte) :
    (lenOf b = 126 ∧ decodeLength b = .len16 (maskOf b)) ∨ (lenOf b = 127 ∧ decodeLength b = .len64 (maskOf b)) ∨
      ((lenOf b).toNat ≤ 125 ∧ decodeLength b = .len7 (maskOf b) (lenOf b)) := by
  unfold decodeLength
  split
  · rename_i h
    exact .inl ⟨BitVec.eq_of_toNat_eq h, rfl⟩
  · rename_i h
    exact .inr (.inl ⟨BitVec.eq_of_toNat_eq h, rfl⟩)
  · rename_i h126 h127
    have hne126 : (lenOf b).toNat ≠ 126 := h126
    have hne127 : (lenOf b).toNat ≠ 127 := h127
    have hlt := (lenOf b).isLt
    exact .inr (.inr ⟨by omega, rfl⟩)

/-- The length row of a byte is well formed and encodes back to the two fields of the byte (R82, R88). -/
theorem encode_decodeLength (b : Byte) :
    (decodeLength b).wf = true ∧ encode (decodeLength b) = (.length, byte1 (maskOf b) (lenOf b)) := by
  obtain ⟨hl, hd⟩ | ⟨hl, hd⟩ | ⟨hl, hd⟩ := decodeLength_cases b
  · rw [hd, hl]
    exact ⟨rfl, rfl⟩
  · rw [hd, hl]
    exact ⟨rfl, rfl⟩
  · rw [hd]
    exact ⟨decide_eq_true hl, rfl⟩

/-- An inline length of at most 125 comes back (R88). -/
theorem decodeLength_byte1_inline (mask : Bool) {l : BitVec 7} (h : l.toNat ≤ 125) :
    decodeLength (byte1 mask l) = .len7 mask l := by
  obtain ⟨hl, hd⟩ | ⟨hl, hd⟩ | ⟨hl, hd⟩ := decodeLength_cases (byte1 mask l) <;> rw [lenOf_byte1] at hl
  · rw [hl] at h
    exact absurd h (by decide)
  · rw [hl] at h
    exact absurd h (by decide)
  · rw [hd, maskOf_byte1, lenOf_byte1]

/-- The mask row of a byte is well formed and encodes to a byte with the same bit 7 (R90). -/
theorem encode_decodeMaskBit (b : Byte) :
    (decodeMaskBit b).wf = true ∧ encode (decodeMaskBit b) = (.maskBit, byte1 (maskOf b) 0) := by
  unfold decodeMaskBit
  cases maskOf b <;> exact ⟨rfl, rfl⟩

/-! ### All four places -/

/-- Settles O4: each kind of row by its fields, which the byte they are put into gives back. -/
theorem decodeOfEncode : Obligations.DecodeOfEncode := by
  intro i hwf
  cases i with
  | nop | read | sendText | sendBinary | sendPing | sendClose | close | sendFrame => rfl
  | unassigned c => exact decode_unassigned c
  | frameContinuation fin rsv | frameText fin rsv | frameBinary fin rsv | frameClose fin rsv | framePing fin rsv
  | framePong fin rsv | frameOpaque3 fin rsv | frameOpaque4 fin rsv | frameOpaque5 fin rsv | frameOpaque6 fin rsv
  | frameOpaque7 fin rsv | frameOpaqueB fin rsv | frameOpaqueC fin rsv | frameOpaqueD fin rsv | frameOpaqueE fin rsv
  | frameOpaqueF fin rsv => simp [encode, decode, decodeOpcode]
  | len7 mask l =>
    exact congrArg Except.ok (decodeLength_byte1_inline mask (of_decide_eq_true hwf))
  | len16 mask | len64 mask => simp [encode, decode, decodeLength]
  | keyPresent | keyAbsent => rfl

/-- An instruction encoded as a byte at a place other than the MASK bit's meets what O5 asks there. -/
theorem encodesBack_of_eq {slot : Slot} {b : Byte} {i : Instr} (hs : slot ≠ .maskBit)
    (h : i.wf = true ∧ encode i = (slot, b)) :
    i.wf = true ∧ (encode i).1 = slot ∧ (slot ≠ .maskBit → (encode i).2 = b) ∧
      (slot = .maskBit → maskOf (encode i).2 = maskOf b) := by
  obtain ⟨hwf, he⟩ := h
  rw [he]
  exact ⟨hwf, rfl, fun _ => rfl, fun hm => absurd hm hs⟩

/-- Settles O5: at each place the decoded row encodes to the fields of the byte, which make up the byte at every place but
the MASK bit's. -/
theorem encodeOfDecode : Obligations.EncodeOfDecode := by
  intro slot b i h
  cases slot with
  | command =>
    obtain ⟨rfl, hb⟩ := decode_command_ok h
    have he := encode_decodeCommand (b.setWidth 4)
    rw [hb] at he
    exact encodesBack_of_eq (by decide) he
  | opcode =>
    cases h
    have he := encode_decodeOpcode b
    rw [byte0_fields] at he
    exact encodesBack_of_eq (by decide) he
  | length =>
    cases h
    have he := encode_decodeLength b
    rw [byte1_fields] at he
    exact encodesBack_of_eq (by decide) he
  | maskBit =>
    cases h
    obtain ⟨hwf, he⟩ := encode_decodeMaskBit b
    rw [he]
    exact ⟨hwf, rfl, fun hs => absurd rfl hs, fun _ => maskOf_byte1 _ _⟩

/-- Settles O3: each word by evaluation of the decoder. -/
theorem sampleWordsDecode : Obligations.SampleWordsDecode :=
  ⟨rfl, rfl, rfl, rfl, rfl, rfl, rfl, rfl, rfl, rfl, rfl, rfl, rfl, rfl, rfl⟩

end Sys2Proof
end

section
/-! Proofs of the statements about the frame encoding: the key bytes, and READ against `decodeFrame`. -/

namespace Sys2Proof.Machine

/-! ### The masking key (R90, R128, R130) -/

theorem startPayload_empty {s : State} (h : s.rxplen = 0) : startPayload s = exec (rxRow s) (frameDone s) := by
  rw [startPayload, if_pos h, completeFrame_eq]

theorem startPayload_nonempty {s : State} (h : s.rxplen ≠ 0) : startPayload s = .next { s with dphase := .payload } := by
  rw [startPayload, if_neg h]

/-- Settles O17: the fourth key byte's step is `StartPayload()`. -/
theorem keyBytesInWireOrder : Obligations.KeyBytesInWireOrder := by
  intro s a b c d rest ht hb hp hd hi hr t
  have hrun : run 4 s = startPayload t := run_key ht hb hp hd hi hr
  exact ⟨fun hl => hrun.trans (startPayload_nonempty (s := t) hl), fun hl => hrun.trans (startPayload_empty (s := t) hl)⟩

/-! ### A frame that `decodeFrame` finds (R80, R88, R90, R142) -/

/-- The frame that the header bytes `b0`, `b1`, the extended length `ext`, the key bytes `ks` and the payload `raw` spell. -/
def spelledFrame (b0 b1 : Byte) (ext ks raw : List Byte) : WireFrame :=
  { fin := finOf b0, op := opcodeOf b0, mask := maskOf b1, len7 := lenOf b1
    plen := payloadLength (lenOf b1) ext, key := keyOf ks, raw := raw }

/-- Behind bytes 0 and 1 of a frame stand its extended length, its key and its payload, each of the length the bytes before
it give. -/
theorem decodeRest_frame {b0 b1 : Byte} {syms rest : List RxSym} {f : WireFrame}
    (h : decodeRest b0 b1 syms = .frame f rest) :
    ∃ ext ks raw, syms = ext.map .byte ++ (ks.map .byte ++ (raw.map .byte ++ rest)) ∧
      ext.length = extCount (lenOf b1) ∧ ks.length = (if maskOf b1 then 4 else 0) ∧
      (payloadLength (lenOf b1) ext).toNat = raw.length ∧ f = spelledFrame b0 b1 ext ks raw := by
  obtain ⟨ext, r, hext, afterExt⟩ := Taken.andThen_frame h
  obtain ⟨ks, r', hks, afterKey⟩ := Taken.andThen_frame afterExt
  obtain ⟨raw, r'', hraw, afterRaw⟩ := Taken.andThen_frame afterKey
  obtain ⟨next, rfl⟩ := takeBytes_bytes hext
  obtain ⟨nks, rfl⟩ := takeBytes_bytes hks
  obtain ⟨nraw, rfl⟩ := takeBytes_bytes hraw
  cases afterRaw
  exact ⟨ext, ks, raw, rfl, next, nks, nraw.symm, rfl⟩

/-- A frame begins with its two header bytes (R81, R82). -/
theorem decodeFrame_frame {syms rest : List RxSym} {f : WireFrame} (h : decodeFrame syms = .frame f rest) :
    ∃ b0 b1 r, syms = .byte b0 :: .byte b1 :: r ∧ decodeRest b0 b1 r = .frame f rest := by
  unfold decodeFrame at h
  split at h
  · cases h
  · cases h
  · cases h
  · rename_i b0 syms
    obtain ⟨bs, r, hbs, afterHeader⟩ := Taken.andThen_frame h
    obtain ⟨hlen, rfl⟩ := takeBytes_bytes hbs
    obtain ⟨b1, rfl⟩ := List.length_eq_one_iff.1 hlen
    exact ⟨b0, b1, r, rfl, afterHeader⟩

/-! ### READ from `ReadStart` (R120 to R124, R142) -/

/-- Bytes 0 and 1, and `n` steps more (R123, R124). -/
theorem run_header {s : State} {b0 b1 : Byte} {r : List RxSym} (ht : s.turns = []) (hb : s.busy = true)
    (hp : s.progress = .decoding) (hd : s.dphase = .hdr0) (hr : s.transport.rx = .byte b0 :: .byte b1 :: r) (n : Nat) :
    run (n + 1 + 1) s = thenRun n (exec (decodeLength b1) (hdr0 (finOf b0) (opcodeOf b0) (withRx s r))) := by
  have hbyte1 := step_byte1 (s := hdr0 (finOf b0) (opcodeOf b0) (withRx s (.byte b1 :: r))) ht hb hp rfl rfl
  rw [run_succ _ (step_byte0 ht hb hp hd hr), Nat.add_comm n 1, run_split, run_one, hbyte1]
  rfl

/-- Settles O35: the symbols are the bytes of the frame's fields, which READ takes one field after the other. -/
theorem readComputesDecodeFrame : Obligations.ReadComputesDecodeFrame := by
  intro s syms rest f ht hb hp hs hr hf hcap
  obtain ⟨b0, b1, r, rfl, hrest⟩ := decodeFrame_frame hf
  obtain ⟨ext, ks, raw, rfl, hext, hks, hlen, rfl⟩ := decodeRest_frame hrest
  have hstart : ∀ {α : Type} (g : State → α), g s = g (readStart s) := fun g => congrArg g hs.symm
  obtain ⟨body, hbody⟩ : ∃ body, body = ext.map RxSym.byte ++ (ks.map .byte ++ (raw.map .byte ++ rest)) := ⟨_, rfl⟩
  rw [← hbody] at hr ⊢
  have hcount : (RxSym.byte b0 :: .byte b1 :: body).length - rest.length =
      ext.length + (ks.length + raw.length) + 1 + 1 := by
    simp only [hbody, List.length_cons, List.length_append, List.length_map]
    omega
  calc run ((RxSym.byte b0 :: .byte b1 :: body).length - rest.length) s
    _ = thenRun (ext.length + (ks.length + raw.length))
          (exec (decodeLength b1) (hdr0 (finOf b0) (opcodeOf b0) (withRx s body))) := by
        rw [hcount, run_header ht hb hp (hstart State.dphase) hr]
    _ = completeFrame { withFrame s (spelledFrame b0 b1 ext ks raw) rest with rxvalid := s.rxvalid } :=
        byte1_run b1 ext ks raw ht hb hp (hstart State.rxraw) (hstart State.rxcnt) (hstart State.rxkey)
          (hstart State.rxplen) (hstart State.didx) hext hks hlen hcap hbody
    _ = exec (rxRow (withFrame s (spelledFrame b0 b1 ext ks raw) rest))
          (withFrame s (spelledFrame b0 b1 ext ks raw) rest) := completeFrame_eq _

end Sys2Proof.Machine
end

section
/-! Proofs of the statements about the host's lines: WAIT, SENDTEXT, SENDBIN, SENDPING and SENDCLOSE. -/

namespace Sys2Proof.Machine

/-! ### WAIT (R110, R112) -/

/-- Settles O55: a poll by the BUSY it reads. -/
theorem waitPollsBusy : Obligations.WaitPollsBusy := by
  intro s q hn hq
  have hstep : step s = .next (hostPoll (actionTaken s q)) := step_actionTaken hn hq
  refine ⟨fun hb => ?_, fun hb => ?_⟩
  · rw [hstep, hostPoll_busy (s := actionTaken s q) hb]
    simp [actionTaken, ← hq]
  · rw [hstep, hostPoll_free (s := actionTaken s q) hb]
    rfl

/-! ### Lines that send a payload (R110, R111, R167) -/

/-- The state after the writes of a payload line, its command line still to come. -/
def payloadLoaded (code : BitVec 4) (p : List Byte) (s : State) : State :=
  { s with
    hostQueue := commandLine code, txbuf := writeCells s.txbuf 0 p, txlen := BitVec.ofNat 64 p.length }

/-- The payload bytes and TXLEN, one bus action a step (R110). -/
theorem run_payloadLines {s : State} {code : BitVec 4} {p : List Byte} (ht : s.turns = []) (hb : s.busy = false)
    (hl : p.length < 2 ^ 64) (hc : ∀ c, s.params.txbufBytes = some c → p.length ≤ c)
    (hq : s.hostQueue = payloadLines p ++ commandLine code) :
    run (p.length + 1) s = .next (payloadLoaded code p s) := by
  rw [payloadLines, List.append_assoc] at hq
  have hbytes := run_writeBytes p ht hb hq (by omega) (by simpa using hc)
  rw [run_add _ _ hbytes, run_one]
  exact step_writeOperand (n := 0x14) (w := 64) ht hb rfl (by decide) rfl (BitVec.isLt _)

/-- A line that loads a payload and sends it by command `code`, run to its end: the unmasked frame is sent, TXBUF and TXLEN
hold the payload (R110, R111, R166, R177). -/
theorem payloadLines_send {code op : BitVec 4}
    (hx : ∀ u, exec (decodeCommand code) u = sendPayload code (serverFrame op) u) {s : State} {p : List Byte}
    {rest : List TxAnswer} (ht : s.turns = []) (hb : s.busy = false) (hcs : s.cstate ≠ .closed)
    (hl : p.length < 2 ^ 64) (hcap : ∀ c, s.params.txbufBytes = some c → p.length ≤ c)
    (hq : s.hostQueue = payloadLines p ++ commandLine code)
    (ha : s.transport.answers = okThen (encodeFrame true op false Key.zero p).length rest) :
    ∃ t n, run n s = .next t ∧ t.hostQueue = [] ∧ t.busy = false ∧ t.status = .ok ∧ t.cstate = s.cstate ∧
      t.txlen.toNat = p.length ∧ t.transport.sent = s.transport.sent ++ encodeFrame true op false Key.zero p ∧
      t.transport.answers = rest ∧ ∀ a, t.txbuf.read a = if a < p.length then p[a]? else s.txbuf.read a := by
  have hload := run_payloadLines ht hb hl hcap hq
  have hlen : (payloadLoaded code p s).txlen.toNat = p.length := Nat.mod_eq_of_lt hl
  have hpay : txPayload (payloadLoaded code p s) = some p := txPayload_writeCells (m := s.txbuf) rfl hlen hcap
  have hsend := run_sendLine (s := payloadLoaded code p s) ht hb hcs hpay rfl
    (encodeFrame_ne_nil true op false Key.zero p) (hx _) ha
  have hcells : ∀ a, (writeCells s.txbuf 0 p).read a = if a < p.length then p[a]? else s.txbuf.read a := fun a => by
    simpa using read_writeCells p s.txbuf 0 a
  exact ⟨_, _, (run_add _ _ hload).trans hsend, rfl, rfl, rfl, rfl, hlen, rfl, rfl, hcells⟩

/-- Settles O44: SENDTEXT's command is SEND_TEXT, which transmits TXBUF in a Text frame. -/
theorem sendTextLinesSendTheText : Obligations.SendTextLinesSendTheText := by
  intro s p rest ht hb _ hcs hl hcap hq ha
  obtain ⟨t, n, hrun, hqueue, hbusy, hst, hc, -, hsent, hans, hcells⟩ :=
    payloadLines_send (code := 0x2) (op := 0x1) (fun _ => rfl) ht hb hcs hl hcap hq ha
  exact ⟨t, n, hrun, hqueue, hbusy, hst, hc, hsent, hans, hcells⟩

/-- Settles O56: the commands of SENDBIN and SENDPING are SEND_BINARY and SEND_PING. -/
theorem binaryAndPingLinesSendThePayload : Obligations.BinaryAndPingLinesSendThePayload := by
  intro lines op hlines s p rest ht hb _ hcs hl hcap hq ha
  simp only [List.mem_cons, List.not_mem_nil, or_false, Prod.mk.injEq] at hlines
  obtain ⟨rfl, rfl⟩ | ⟨rfl, rfl⟩ := hlines
  · exact payloadLines_send (code := 0x3) (fun _ => rfl) ht hb hcs hl hcap hq ha
  · exact payloadLines_send (code := 0x4) (fun _ => rfl) ht hb hcs hl hcap hq ha

/-! ### SENDCLOSE (R110, R111, R174) -/

/-- SEND_CLOSE outside Closed is accepted and leaves one Close frame with TXCODE to send (R174). -/
theorem exec_sendClose_open {s : State} (hb : s.busy = false) (hc : s.cstate ≠ .closed) :
    exec .sendClose s =
      .next { accepted 0x5 s with progress := .sending (closeFrame s.txcode) 0 [] (.finish .ok) } := by
  have hx : exec .sendClose s = accept 0x5 (sendProgress (closeFrame s.txcode) s) s := rfl
  have hp : sendProgress (closeFrame s.txcode) s = .sending (closeFrame s.txcode) 0 [] (.finish .ok) := by
    unfold sendProgress
    split
    · rename_i h
      exact absurd h hc
    · rfl
  rw [hx, hp]
  exact accept_next _ _ hb

/-- Settles O57: TXCODE holds the code whole, and SEND_CLOSE transmits it. -/
theorem sendCloseLinesSendTheCode : Obligations.SendCloseLinesSendTheCode := by
  intro s c rest ht hb _ hcs hq ha
  have hfits : (c.setWidth 64).toNat < 2 ^ 16 := by
    rw [BitVec.toNat_setWidth_of_le (by decide)]
    exact c.isLt
  have hcode : ((c.setWidth 64).setWidth 16 : BitVec 16) = c := by
    rw [BitVec.setWidth_setWidth_of_le _ (by decide), BitVec.setWidth_eq]
  have hwrite : step s = .next { s with hostQueue := commandLine 0x5, txcode := c } := by
    rw [step_writeOperand ht hb hq (by decide) rfl hfits, writeOperand_txcode, hcode]
  have hsend := run_commandLine (s := { s with hostQueue := commandLine 0x5, txcode := c }) ht hb rfl
    (closeFrame_ne_nil c) (exec_sendClose_open hb hcs) (by rw [closeFrame_eq]; exact ha)
  rw [closeFrame_eq] at hsend
  exact ⟨_, _, (run_succ _ hwrite).trans hsend, rfl, rfl, rfl, rfl, rfl, rfl, rfl, rfl⟩

end Sys2Proof.Machine
end

section
/-! Proofs of the statements about the decode path: the rows of a header, the steps that take a symbol and the zero-byte
transitions, and the receive errors. -/

namespace Sys2Proof.Machine

/-! ### Opcode rows (R85, R86, R123) -/

/-- The opcode row of a byte 0, by the opcode in its low four bits; FIN and RSV come back as they are (R81, R85). -/
theorem decodeOpcode_byte0 {mk : Bool → BitVec 3 → Instr} {op : BitVec 4} (h : (mk, op) ∈ opcodeRows) (fin : Bool)
    (rsv : BitVec 3) : decodeOpcode (byte0 fin rsv op) = mk fin rsv := by
  simp only [opcodeRows, List.mem_cons, List.not_mem_nil, or_false, Prod.mk.injEq] at h
  obtain ⟨rfl, rfl⟩ | ⟨rfl, rfl⟩ | ⟨rfl, rfl⟩ | ⟨rfl, rfl⟩ | ⟨rfl, rfl⟩ | ⟨rfl, rfl⟩ | ⟨rfl, rfl⟩ | ⟨rfl, rfl⟩ |
    ⟨rfl, rfl⟩ | ⟨rfl, rfl⟩ | ⟨rfl, rfl⟩ | ⟨rfl, rfl⟩ | ⟨rfl, rfl⟩ | ⟨rfl, rfl⟩ | ⟨rfl, rfl⟩ | ⟨rfl, rfl⟩ := h <;>
    simp [decodeOpcode]

/-- Settles O13: the row is the one its own byte 0 decodes to, and every such row runs `Hdr0` outside DPHASE IDLE. -/
theorem opcodeRowsStoreByteZero : Obligations.OpcodeRowsStoreByteZero := by
  intro mk op h fin rsv s hd
  have hrow := decodeOpcode_byte0 h fin rsv
  have hexec := exec_decodeOpcode_header (byte0 fin rsv op) (s := s) (by rw [hd]; exact fun h => nomatch h)
  rw [hrow, finOf_byte0, opcodeOf_byte0] at hexec
  exact ⟨hrow, hexec⟩

/-! ### Mask rows and length rows (R88, R124 to R130) -/

theorem exec_keyPresent (s : State) : exec .keyPresent s = .next { s with dphase := .key, didx := 0 } := rfl

theorem exec_keyAbsent (s : State) : exec .keyAbsent s = startPayload s := rfl

/-- LEN7 runs the mask row of its MASK bit in its own step (R124, R125, R127). -/
theorem exec_len7 (mask : Bool) (l : BitVec 7) (s : State) :
    exec (.len7 mask l) s =
      exec (maskRow mask) { s with rxmask := mask, rxlen7 := l, rxplen := l.setWidth 64 } :=
  afterLength_eq { hdr1 mask l s with rxplen := l.setWidth 64 }

/-- Settles O15: KEY_ABSENT is `StartPayload()`. -/
theorem maskRowsStartKeyOrPayload : Obligations.MaskRowsStartKeyOrPayload :=
  fun s => ⟨exec_keyPresent s, startPayload_nonempty⟩

/-- An inline length extended to the width of RXPLEN is 0 where the length is (R125). -/
theorem inlineLength_eq_zero_iff (l : BitVec 7) : l.setWidth 64 = 0 ↔ l = 0 := by
  revert l; decide

/-- Settles O14: LEN7 is its mask row, which for MASK = 0 starts the payload. -/
theorem lengthRowsSetTheLength : Obligations.LengthRowsSetTheLength := by
  intro mask l s t
  refine ⟨fun hm => ?_, fun hm hl => ?_, fun hm hl => ?_, rfl, rfl⟩
  · rw [exec_len7, show maskRow mask = .keyPresent by rw [hm]; rfl]
    exact exec_keyPresent t
  · rw [exec_len7, show maskRow mask = .keyAbsent by rw [hm]; rfl]
    exact startPayload_nonempty (s := t) fun h => hl ((inlineLength_eq_zero_iff l).1 h)
  · rw [exec_len7, show maskRow mask = .keyAbsent by rw [hm]; rfl]
    exact startPayload_empty (s := t) ((inlineLength_eq_zero_iff l).2 hl)

/-! ### READ's start (R120, R122) -/

/-- Settles O12: outside Closed, READ is its acceptance and `ReadStart()`. -/
theorem readStartsDecoding : Obligations.ReadStartsDecoding :=
  fun _ hb hc => ⟨_, execRead_open hb hc, rfl, Memory.read_nil⟩

/-! ### Steps that take a symbol (R120, R127, R131, R132) -/

/-- `s` when the block has used its turn to take a symbol, before it acts on it; `rest` is still to be received. -/
def symbolTaken (s : State) (rest : List RxSym) : State := { withRx s rest with turns := s.turns.tail }

/-- The block's step on a symbol, run from `symbolTaken`. -/
theorem step_symbolTaken {s : State} {sym : RxSym} {rest : List RxSym} (ha : nextAgent s = .block)
    (hp : s.progress = .decoding) (hr : s.transport.rx = sym :: rest) :
    step s = takeSymbol sym (symbolTaken s rest) :=
  step_symbol ha hp hr

/-- Settles O7: in the phases HDR0 and HDR1 the byte taken is decoded at its own place. -/
theorem headerBytesRunDecoded : Obligations.HeaderBytesRunDecoded := by
  intro s b rest i ha hp hr
  have hstep : step s = takeByte b (symbolTaken s rest) := step_symbolTaken ha hp hr
  refine ⟨fun hd hi => ?_, fun hd hi => ?_⟩
  · cases hi
    exact hstep.trans (takeByte_hdr0 (s := symbolTaken s rest) hd b)
  · cases hi
    exact hstep.trans (takeByte_hdr1 (s := symbolTaken s rest) hd b)

/-- Settles O8: the last byte of each field is the one whose step goes on to the row. -/
theorem zeroByteTransitionsRunRows : Obligations.ZeroByteTransitionsRunRows := by
  refine ⟨fun s mask l => exec_len7 mask l s, fun s hl => startPayload_empty hl, fun s b rest ha hp hr => ?_⟩
  have hstep : step s = takeByte b (symbolTaken s rest) := step_symbolTaken ha hp hr
  refine ⟨fun hd hi => ?_, fun hd hi => ?_, fun hd hc hl => ?_⟩
  · rw [hstep, takeByte_extlen (s := symbolTaken s rest) hd, takeExtLen_last (s := symbolTaken s rest) b hi, hi]
    rfl
  · have hlast : s.didx + 1 = 4 := by rw [hi]; rfl
    rw [hstep, takeByte_key (s := symbolTaken s rest) hd, takeKey_last (s := symbolTaken s rest) b hlast,
      exec_keyAbsent]
    simp only [symbolTaken, withRx, hi]
    rfl
  · rw [hstep, takeByte_payload (s := symbolTaken s rest) hd, takePayload_last (s := symbolTaken s rest) b hc hl,
      completeFrame_eq]
    rfl

theorem takeEos_hdr0 {s : State} (hd : s.dphase = .hdr0) : takeEos s = aborted .transportError s := by
  rw [takeEos, hd]
  rfl

theorem takeEos_later {s : State} (hd : s.dphase ≠ .hdr0) : takeEos s = aborted .frameFormatError s := by
  unfold takeEos
  split
  · exact absurd ‹_› hd
  · rfl

/-- Settles O20: each error symbol is one abort, with the STATUS of its phase. -/
theorem receiveErrorsAbort : Obligations.ReceiveErrorsAbort := by
  intro s rest ha hp u
  refine ⟨fun hr hd => ?_, fun hr hd => ?_, fun hr => step_symbol ha hp hr⟩
  · rw [step_symbol ha hp hr]
    exact congrArg Host.Outcome.next (takeEos_hdr0 (s := u) hd)
  · rw [step_symbol ha hp hr]
    exact congrArg Host.Outcome.next (takeEos_later (s := u) hd)

end Sys2Proof.Machine
end

section
/-! Proofs of the statements about the decode path: the masker and the unmask view. -/

namespace Sys2Proof.Machine

/-! ### The masker (R90, R140, R141, R161) -/

/-- Settles O33: the laws of `maskFrom` from position 0 on, and the unmask view as `maskFrom`. -/
theorem maskingLaws : Obligations.MaskingLaws := by
  refine ⟨fun k p => ⟨maskFrom_length k 0 p, maskFrom_maskFrom k 0 p, maskFrom_zero 0 p, fun i => ?_⟩,
    fun s n raw hm hraw => ?_⟩
  · rw [maskBytes, maskFrom_getElem?, Nat.zero_add, Key.at_eq_getD]
  · rw [plainRange_eq n hraw, if_pos hm, maskBytes]

end Sys2Proof.Machine
end

section
/-! Proofs of the statements about the decode path: the transport is left alone once CSTATE is Closed. -/

namespace Sys2Proof.Machine

/-! ### The transport, once Closed (R121, R168, R277) -/

/-- A result whose next state, if it answers one, has the transport `tr`. -/
def HasTransport (tr : Transport) (r : Result) : Prop := ∀ t, r = .next t → t.transport = tr

theorem hasTransport_next {tr : Transport} {t : State} (h : t.transport = tr) : HasTransport tr (.next t) := by
  intro u hu
  cases hu
  exact h

theorem hasTransport_refused (tr : Transport) (e : Refusal) : HasTransport tr (.refused e) := fun _ ht => nomatch ht

theorem hasTransport_accept (code : BitVec 4) (p : Progress) (s : State) :
    HasTransport s.transport (accept code p s) := by
  intro t ht
  obtain ⟨-, rfl⟩ := accept_cases ht
  rfl

theorem hasTransport_sendPayload (code : BitVec 4) (f : List Byte → List Byte) (s : State) :
    HasTransport s.transport (sendPayload code f s) := by
  unfold sendPayload
  split
  · exact hasTransport_accept _ _ _
  · exact hasTransport_accept _ _ _
  · split <;> exact hasTransport_refused _ _

theorem hasTransport_read {s : State} (hb : s.busy = false) : HasTransport s.transport (execRead s) := by
  by_cases hc : s.cstate = .closed
  · rw [execRead_closed hc]
    exact hasTransport_accept _ _ _
  · rw [execRead_open hb hc]
    exact hasTransport_next rfl

/-- No command takes a symbol or offers a byte in the step that accepts it (R96). -/
theorem hasTransport_command {s : State} (hb : s.busy = false) (c : BitVec 4) :
    HasTransport s.transport (exec (decodeCommand c) s) := by
  unfold decodeCommand
  split
  · exact hasTransport_accept _ _ _
  · exact hasTransport_read hb
  · exact hasTransport_sendPayload _ _ _
  · exact hasTransport_sendPayload _ _ _
  · exact hasTransport_sendPayload _ _ _
  · exact hasTransport_accept _ _ _
  · exact hasTransport_accept _ _ _
  · exact hasTransport_sendPayload _ _ _
  · exact hasTransport_accept _ _ _

theorem writeOperand_transport (s : State) (n : BitVec 8) (v : Word64) :
    (writeOperand s n v).transport = s.transport := by
  rw [writeOperand_operands]

theorem hasTransport_writeReg (n : BitVec 8) (v : Word64) (s : State) :
    HasTransport s.transport (hostWriteReg n v s) := by
  unfold hostWriteReg
  split
  · exact hasTransport_next rfl
  · split
    · exact hasTransport_refused _ _
    · rename_i hb
      split
      · exact hasTransport_next rfl
      · split
        · split
          · exact hasTransport_command (Bool.eq_false_iff.2 hb) _
          · exact hasTransport_next (writeOperand_transport s n v)
        · exact hasTransport_refused _ _

theorem hasTransport_writeBuf (a : Word64) (b : Byte) (s : State) : HasTransport s.transport (hostWriteBuf a b s) := by
  unfold hostWriteBuf
  split
  · exact hasTransport_refused _ _
  · split
    · exact hasTransport_next rfl
    · exact hasTransport_refused _ _

theorem sameBlock_transport {s t : State} (h : SameBlock s t) : t.transport = s.transport := by
  rw [h]

/-- No bus action but the reset event touches the transport (R11, R112). -/
theorem hasTransport_busAction {a : BusAction} (hreset : ∀ u, a ≠ .reset u) (s : State) :
    HasTransport s.transport (busAction a s) := by
  cases a with
  | writeReg n v => exact hasTransport_writeReg n v s
  | readReg n => exact hasTransport_next rfl
  | writeBuf a b => exact hasTransport_writeBuf a b s
  | readBuf space a => exact fun t ht => sameBlock_transport (sameBlock_hostReadBuf ht)
  | wait => exact hasTransport_next (sameBlock_transport (sameBlock_hostPoll s))
  | reset u => exact absurd rfl (hreset u)

theorem complete_transport (last : Ending) (s : State) : (complete last s).transport = s.transport := by
  cases last with
  | finish st => rfl
  | moveTo c => exact moveTo_transport c s
  | abort st => rfl

/-- In Closed the block decodes nothing and sends nothing, so its step leaves the transport (R121, R168). -/
theorem State.Inv.hasTransport_block {s : State} (h : s.Inv) (hc : s.cstate = .closed) :
    HasTransport s.transport (blockStep s) := by
  cases hp : s.progress with
  | idle =>
    rw [blockStep_idle hp]
    exact hasTransport_next rfl
  | decoding => exact absurd hc (h.toDecoding hp).live
  | sending frame k later last =>
    obtain ⟨-, hlive, -⟩ := (progressInv_sending hp).1 h.progress
    exact absurd hc hlive
  | ending last =>
    rw [blockStep_ending hp]
    exact hasTransport_next (complete_transport last s)

/-- Settles O49: no bus action touches the transport, and in Closed no step of the block does. -/
theorem closedLeavesTheTransportAlone : Obligations.ClosedLeavesTheTransportAlone := by
  intro s t h hc ht hreset
  cases hn : nextAgent s with
  | block =>
    rw [step_of_block hn] at ht
    exact State.Inv.hasTransport_block (s := takeTurn s) (h.env _ _ _ _ _ _ _ _ _ _ _ _ _) hc t ht
  | host =>
    cases hq : s.hostQueue with
    | nil =>
      rw [step_of_host hn, hostStep_nil (s := takeTurn s) hq] at ht
      cases ht
      rfl
    | cons a q =>
      rw [step_actionTaken hn hq] at ht
      exact hasTransport_busAction (fun u ha => hreset u q hn (by rw [hq, ha])) (actionTaken s q) t ht

end Sys2Proof.Machine
end

section
/-! Proofs of the statements about the decode path: the symbols before a receive error, and a READ inside a frame. -/

namespace Sys2Proof.Machine

/-! ### The symbols before an error (R91, R131, R132) -/

/-- The STATUS that a symbol ends READ with inside a frame (R131, R132); nothing for a byte. -/
def inFrameError : RxSym → Option Status
  | .byte _ => none
  | .eos => some .frameFormatError
  | .fail => some .transportError

/-- What goes on to an error has found its bytes and the error is behind them, or has found an error symbol before them. -/
theorem takeBytes_error {n : Nat} {syms : List RxSym} {g : List Byte → List RxSym → Decoded} {st : Status}
    (h : (takeBytes syms n).andThen g = .error st) :
    (∃ (bs : List Byte) (r : List RxSym), bs.length = n ∧ syms = bs.map .byte ++ r ∧ g bs r = .error st) ∨
      ∃ (bs : List Byte) (e : RxSym) (rest : List RxSym), bs.length < n ∧ syms = bs.map .byte ++ e :: rest ∧
        inFrameError e = some st := by
  induction n generalizing syms g with
  | zero => exact .inl ⟨[], syms, rfl, rfl, by cases syms <;> exact h⟩
  | succ n ih =>
    match syms with
    | [] => cases h
    | .eos :: rest =>
      cases h
      exact .inr ⟨[], .eos, rest, n.succ_pos, rfl, rfl⟩
    | .fail :: rest =>
      cases h
      exact .inr ⟨[], .fail, rest, n.succ_pos, rfl, rfl⟩
    | .byte b :: syms =>
      have htail : (takeBytes syms n).andThen (fun bs r => g (b :: bs) r) = .error st := by
        rw [← h, takeBytes]
        cases takeBytes syms n <;> rfl
      obtain ⟨bs, r, hlen, rfl, hg⟩ | ⟨bs, e, rest, hlen, rfl, he⟩ := ih htail
      · exact .inl ⟨b :: bs, r, by rw [List.length_cons, hlen], rfl, hg⟩
      · exact .inr ⟨b :: bs, e, rest, Nat.succ_lt_succ hlen, rfl, he⟩

theorem leadingBytes_append (bs : List Byte) (syms : List RxSym) :
    leadingBytes (bs.map .byte ++ syms) = bs.length + leadingBytes syms := by
  induction bs with
  | nil => exact (Nat.zero_add _).symm
  | cons b bs ih =>
    rw [List.map_cons, List.cons_append, leadingBytes, ih, List.length_cons]
    omega

theorem leadingBytes_error {e : RxSym} {st : Status} (he : inFrameError e = some st) (rest : List RxSym) :
    leadingBytes (e :: rest) = 0 := by
  cases e with
  | byte b => cases he
  | eos | fail => rfl

/-- The bytes before an error symbol in a field of at most `n` bytes are none beyond them. -/
theorem leadingBytes_sub_eq_zero {bs : List Byte} {e : RxSym} {rest : List RxSym} {st : Status}
    (he : inFrameError e = some st) {n : Nat} (hn : bs.length ≤ n) :
    leadingBytes (bs.map .byte ++ e :: rest) - n = 0 := by
  rw [leadingBytes_append, leadingBytes_error he, Nat.add_zero, Nat.sub_eq_zero_of_le hn]

/-- The payload bytes at the head of a stream stand behind the extended length and the key (R92). -/
theorem leadingPayload_header (b0 b1 : Byte) (r : List RxSym) :
    leadingPayload (.byte b0 :: .byte b1 :: r) =
      leadingBytes r - (extCount (lenOf b1) + if maskOf b1 then 4 else 0) := by
  rw [leadingPayload, headerLength, leadingBytes, leadingBytes]
  omega

/-! ### A state inside a frame -/

/-- `u` is a READ inside a frame, in the run that started at `s`: `r` is still to be received, and of the frame's payload
`c` bytes are stored. -/
structure InFrame (s : State) (r : List RxSym) (c : Nat) (u : State) : Prop where
  turns : u.turns = []
  busy : u.busy = true
  decoding : u.progress = .decoding
  begun : u.dphase ≠ .hdr0
  cut : u.dphase ≠ .idle
  incomplete : u.rxvalid = false
  params : u.params = s.params
  transport : u.transport = { s.transport with rx := r }
  count : u.rxcnt.toNat = c

theorem InFrame.rx {s u : State} {r : List RxSym} {c : Nat} (h : InFrame s r c u) : u.transport.rx = r := by
  rw [h.transport]

/-- How many bytes the field that a READ is in still takes, the one it waits for included (R37, R39, R126, R128). -/
def fieldLeft (s : State) : Nat :=
  match s.dphase with
  | .idle => 0
  | .hdr0 => 1
  | .hdr1 => 1
  | .extlen => (xlen s.rxlen7).toNat - s.didx.toNat
  | .key => 4 - s.didx.toNat
  | .payload => s.rxplen.toNat - s.rxcnt.toNat

theorem fieldLeft_extlen {s : State} (hd : s.dphase = .extlen) :
    fieldLeft s = (xlen s.rxlen7).toNat - s.didx.toNat := by
  rw [fieldLeft, hd]

theorem fieldLeft_key {s : State} (hd : s.dphase = .key) : fieldLeft s = 4 - s.didx.toNat := by
  rw [fieldLeft, hd]

theorem fieldLeft_payload {s : State} (hd : s.dphase = .payload) :
    fieldLeft s = s.rxplen.toNat - s.rxcnt.toNat := by
  rw [fieldLeft, hd]

/-- How many of `n` bytes taken in phase `d` are payload. -/
def payloadPart (d : DPhase) (n : Nat) : Nat := if d = .payload then n else 0

theorem payloadPart_payload (n : Nat) : payloadPart .payload n = n := if_pos rfl

theorem payloadPart_header {d : DPhase} (hd : d ≠ .payload) (n : Nat) : payloadPart d n = 0 := if_neg hd

theorem payloadPart_add (d : DPhase) (m n : Nat) : payloadPart d (m + n) = payloadPart d m + payloadPart d n := by
  unfold payloadPart
  split <;> rfl

/-- The fields that only the header bytes write play no part. -/
theorem InFrame.header {s u : State} {r : List RxSym} {c : Nat} (h : InFrame s r c u) {d : DPhase} (hb : d ≠ .hdr0)
    (hc : d ≠ .idle) (i : BitVec 4) (m : Bool) (l : BitVec 7) (n : Word64) (k : Key) :
    InFrame s r c { u with dphase := d, didx := i, rxmask := m, rxlen7 := l, rxplen := n, rxkey := k } :=
  ⟨h.turns, h.busy, h.decoding, hb, hc, h.incomplete, h.params, h.transport, h.count⟩

theorem InFrame.symbolTaken {s u : State} {r q : List RxSym} {c : Nat} (h : InFrame s r c u) :
    InFrame s q c (withRx u q) :=
  ⟨h.turns, h.busy, h.decoding, h.begun, h.cut, h.incomplete, h.params, by rw [withRx, h.transport], h.count⟩

/-- KEY_PRESENT's state (R130). -/
theorem InFrame.keyPresent {s u : State} {r : List RxSym} {c : Nat} (h : InFrame s r c u) :
    InFrame s r c { u with dphase := .key, didx := 0 } :=
  h.header (d := .key) (by decide) (by decide) _ _ _ _ _

/-- The state of an extended length form (R124). -/
theorem InFrame.startExtLen {s u : State} {r : List RxSym} {c : Nat} (h : InFrame s r c u) (mask : Bool)
    (l : BitVec 7) : InFrame s r c (Sys2Proof.Machine.startExtLen mask l u) :=
  h.header (d := .extlen) (by decide) (by decide) _ _ _ _ _

/-- The state in which the first payload byte is waited for (R130). -/
theorem InFrame.payload {s u : State} {r : List RxSym} {c : Nat} (h : InFrame s r c u) :
    InFrame s r c { u with dphase := .payload } :=
  h.header (d := .payload) (by decide) (by decide) _ _ _ _ _

/-- Counting up by one stays in the width, and short of the bound, where the bound is more than one away. -/
theorem add_one_of_gap {w : Nat} {x y : BitVec w} (h : 1 < y.toNat - x.toNat) :
    (x + 1).toNat = x.toNat + 1 ∧ x + 1 ≠ y := by
  have hy := y.isLt
  have hsucc : (x + 1).toNat = x.toNat + 1 := by
    simp only [BitVec.ofNat_eq_ofNat, BitVec.toNat_add, BitVec.toNat_ofNat, Nat.add_mod_mod]
    exact Nat.mod_eq_of_lt (by omega)
  refine ⟨hsucc, fun he => ?_⟩
  rw [← he, hsucc] at h
  omega

/-- Result `x` of a byte taken in `u` is still in the field of `u`, which then takes one byte less. -/
def StaysInField (s : State) (r : List RxSym) (c : Nat) (u : State) (x : Result) : Prop :=
  ∃ v, x = .next v ∧ InFrame s r (c + payloadPart u.dphase 1) v ∧ v.dphase = u.dphase ∧ fieldLeft v + 1 = fieldLeft u

/-- An extended-length byte that is not the last (R126). -/
theorem InFrame.takeExtLen_stays {s u : State} {r : List RxSym} {c : Nat} (h : InFrame s r c u) (hd : u.dphase = .extlen)
    (hleft : 1 < fieldLeft u) (b : Byte) : StaysInField s r c u (takeExtLen b u) := by
  rw [fieldLeft_extlen hd] at hleft
  obtain ⟨hi, hmore⟩ := add_one_of_gap hleft
  refine ⟨_, takeExtLen_more b hmore, ?_, rfl, ?_⟩
  · rw [payloadPart_header (by rw [hd]; exact fun h => nomatch h)]
    exact h.header h.begun h.cut _ _ _ _ _
  · rw [fieldLeft_extlen hd, fieldLeft_extlen (by exact hd)]
    simp only [hi]
    omega

/-- A key byte that is not the last (R128). -/
theorem InFrame.takeKey_stays {s u : State} {r : List RxSym} {c : Nat} (h : InFrame s r c u) (hd : u.dphase = .key)
    (hleft : 1 < fieldLeft u) (b : Byte) : StaysInField s r c u (takeKey b u) := by
  rw [fieldLeft_key hd] at hleft
  obtain ⟨hi, hmore⟩ := add_one_of_gap (y := (4 : BitVec 4)) hleft
  refine ⟨_, takeKey_more b hmore, ?_, rfl, ?_⟩
  · rw [payloadPart_header (by rw [hd]; exact fun h => nomatch h)]
    exact h.header h.begun h.cut _ _ _ _ _
  · rw [fieldLeft_key hd, fieldLeft_key (by exact hd)]
    simp only [hi]
    omega

/-- A payload byte that is not the last, where RXRAW has room for it (R129). -/
theorem InFrame.takePayload_stays {s u : State} {r : List RxSym} {c : Nat} (h : InFrame s r c u)
    (hd : u.dphase = .payload) (hleft : 1 < fieldLeft u)
    (hroom : ∀ k, s.params.rxbufBytes = some k → c + 1 ≤ k) (b : Byte) :
    StaysInField s r c u (takePayload b u) := by
  rw [fieldLeft_payload hd] at hleft
  obtain ⟨hi, hmore⟩ := add_one_of_gap hleft
  have hcap : inCapacity u.params.rxbufBytes u.rxcnt.toNat = true := by
    rw [h.params, h.count]
    unfold inCapacity
    split
    · rfl
    · exact decide_eq_true (hroom _ ‹_›)
  refine ⟨_, takePayload_more b hcap hmore, ?_, rfl, ?_⟩
  · have hcount : (u.rxcnt + 1).toNat = c + payloadPart u.dphase 1 := by
      rw [hi, h.count, hd, payloadPart_payload]
    exact ⟨h.turns, h.busy, h.decoding, h.begun, h.cut, h.incomplete, h.params, h.transport, hcount⟩
  · rw [fieldLeft_payload hd, fieldLeft_payload (by exact hd)]
    simp only [hi]
    omega

/-- A byte that is not the last of its field leaves READ in the field (R126, R128, R129). -/
theorem InFrame.step_stays {s u : State} {b : Byte} {r : List RxSym} {c : Nat} (h : InFrame s (.byte b :: r) c u)
    (hleft : 1 < fieldLeft u) (hroom : ∀ k, s.params.rxbufBytes = some k → c + payloadPart u.dphase 1 ≤ k) :
    StaysInField s r c u (step u) := by
  have hin : InFrame s r c (withRx u r) := h.symbolTaken
  rw [step_byte h.turns h.busy h.decoding h.rx]
  cases hd : u.dphase with
  | idle => exact absurd hd h.cut
  | hdr0 => exact absurd hd h.begun
  | hdr1 => simp [fieldLeft, hd] at hleft
  | extlen =>
    rw [takeByte_extlen (s := withRx u r) hd]
    exact hin.takeExtLen_stays hd hleft b
  | key =>
    rw [takeByte_key (s := withRx u r) hd]
    exact hin.takeKey_stays hd hleft b
  | payload =>
    rw [takeByte_payload (s := withRx u r) hd]
    rw [hd] at hroom
    exact hin.takePayload_stays hd hleft hroom b

/-- Bytes that do not fill the field they stand in, taken one a step. -/
theorem InFrame.run_bytes (bs : List Byte) {s u : State} {r : List RxSym} {c : Nat}
    (h : InFrame s (bs.map .byte ++ r) c u) (hleft : bs.length < fieldLeft u)
    (hroom : ∀ k, s.params.rxbufBytes = some k → c + payloadPart u.dphase bs.length ≤ k) :
    ∃ v, run bs.length u = .next v ∧ InFrame s r (c + payloadPart u.dphase bs.length) v := by
  induction bs generalizing u c with
  | nil =>
    have hnone : payloadPart u.dphase 0 = 0 := ite_self 0
    exact ⟨u, rfl, by rw [List.length_nil, hnone]; exact h⟩
  | cons b bs ih =>
    rw [List.length_cons] at hleft hroom ⊢
    rw [payloadPart_add, Nat.add_comm (payloadPart _ bs.length), ← Nat.add_assoc] at hroom ⊢
    obtain ⟨v, hstep, hv, hphase, hfield⟩ := h.step_stays (by omega) fun k hk => by
      have := hroom k hk
      omega
    rw [← hphase] at hv hroom ⊢
    obtain ⟨w, hrun, hw⟩ := ih hv (by omega) hroom
    exact ⟨w, (run_succ _ hstep).trans hrun, hw⟩

/-- The step of an error symbol inside a frame is an abort (R131, R132, R245). -/
theorem InFrame.step_error {s u : State} {e : RxSym} {rest : List RxSym} {c : Nat} (h : InFrame s (e :: rest) c u)
    {st : Status} (he : inFrameError e = some st) :
    step u = .next (abort st (withRx u rest)) := by
  rw [step_symbol_nil h.turns h.busy h.decoding h.rx]
  cases e with
  | byte b => cases he
  | eos =>
    cases he
    exact congrArg Host.Outcome.next (takeEos_later (s := withRx u rest) h.begun)
  | fail =>
    cases he
    rfl

end Sys2Proof.Machine
end

section
/-! Proofs of the statements about the decode path: READ against `decodeFrame` where the symbols end in an error. -/

namespace Sys2Proof.Machine

/-! ### From a field to the error (R126 to R132) -/

/-- From result `x`, with the stream `syms` before it, READ takes the bytes before the first error symbol, one a step, and
then waits inside the frame for that symbol, which is an error of STATUS `st`, with `c` payload bytes stored. -/
def ReachesError (s : State) (st : Status) (syms : List RxSym) (c : Nat) (x : Result) : Prop :=
  ∃ (bs : List Byte) (e : RxSym) (rest : List RxSym) (v : State), syms = bs.map .byte ++ e :: rest ∧
    inFrameError e = some st ∧ thenRun bs.length x = .next v ∧ InFrame s (e :: rest) c v

theorem thenRun_add (m n : Nat) (x : Result) : thenRun (m + n) x = thenRun n (thenRun m x) := by
  cases x with
  | next s => exact run_split m n s
  | fault e => rfl
  | refused e => rfl

/-- The bytes of a whole field before the rest of the way to the error. -/
theorem ReachesError.prepend {s : State} {st : Status} {syms : List RxSym} {c : Nat} {x y : Result} (bs : List Byte)
    (hx : thenRun bs.length x = y) (h : ReachesError s st syms c y) :
    ReachesError s st (bs.map .byte ++ syms) c x := by
  obtain ⟨bs', e, rest, v, rfl, he, hrun, hv⟩ := h
  refine ⟨bs ++ bs', e, rest, v, ?_, he, ?_, hv⟩
  · rw [List.map_append, List.append_assoc]
  · rw [List.length_append, thenRun_add, hx, hrun]

/-- The error stands in the field that READ is in. -/
theorem InFrame.reachesError {s u : State} {st : Status} {bs : List Byte} {e : RxSym} {rest : List RxSym} {c : Nat}
    (h : InFrame s (bs.map .byte ++ e :: rest) c u) (he : inFrameError e = some st) (hleft : bs.length < fieldLeft u)
    (hroom : ∀ k, s.params.rxbufBytes = some k → c + payloadPart u.dphase bs.length ≤ k) :
    ReachesError s st (bs.map .byte ++ e :: rest) (c + payloadPart u.dphase bs.length) (.next u) := by
  obtain ⟨v, hrun, hv⟩ := h.run_bytes bs hleft hroom
  exact ⟨bs, e, rest, v, rfl, he, hrun, hv⟩

/-- The error stands in a field of the header, where no payload byte has been stored. -/
theorem InFrame.reachesError_header {s u : State} {st : Status} {bs : List Byte} {e : RxSym} {rest : List RxSym}
    (h : InFrame s (bs.map .byte ++ e :: rest) 0 u) (he : inFrameError e = some st) (hleft : bs.length < fieldLeft u)
    (hd : u.dphase ≠ .payload) : ReachesError s st (bs.map .byte ++ e :: rest) 0 (.next u) := by
  have hnone := payloadPart_header hd bs.length
  have hreach := h.reachesError he hleft fun k _ => by rw [hnone]; exact Nat.zero_le k
  rwa [hnone] at hreach

/-- The payload (R129): every byte before the error is stored. -/
theorem startPayload_reachesError {s u : State} {st : Status} {r : List RxSym} (h : InFrame s r 0 u)
    {g : List Byte → List RxSym → Decoded} (hg : ∀ bs r, g bs r ≠ .error st)
    (herr : (takeBytes r u.rxplen.toNat).andThen g = .error st)
    (hroom : ∀ k, s.params.rxbufBytes = some k → leadingBytes r ≤ k) :
    ReachesError s st r (leadingBytes r) (startPayload u) := by
  obtain ⟨bs, r, -, -, hframe⟩ | ⟨bs, e, rest, hlt, rfl, he⟩ := takeBytes_error herr
  · exact absurd hframe (hg bs r)
  · have hne : u.rxplen ≠ 0 := fun h0 => by
      rw [h0] at hlt
      exact absurd hlt (Nat.not_lt_zero _)
    rw [leadingBytes_append, leadingBytes_error he, Nat.add_zero] at hroom ⊢
    rw [startPayload_nonempty hne]
    have hleft : bs.length < fieldLeft { u with dphase := .payload } := by
      rw [fieldLeft_payload rfl]
      simpa only [h.count, Nat.sub_zero] using hlt
    have hreach := h.payload.reachesError he hleft (by simpa only [payloadPart_payload, Nat.zero_add] using hroom)
    simpa only [payloadPart_payload, Nat.zero_add] using hreach

/-- The key, if any, taken whole (R128, R130). -/
theorem InFrame.run_maskRow {s u : State} {mask : Bool} {ks : List Byte} {r : List RxSym} {c : Nat}
    (h : InFrame s (ks.map .byte ++ r) c u) (hks : ks.length = if mask then 4 else 0) :
    ∃ v, thenRun ks.length (exec (maskRow mask) u) = startPayload v ∧ InFrame s r c v ∧ v.rxplen = u.rxplen := by
  cases mask with
  | false =>
    obtain rfl := List.length_eq_zero_iff.1 hks
    exact ⟨u, thenRun_zero _, h, rfl⟩
  | true =>
    match ks, hks with
    | [k0, k1, k2, k3], _ =>
      have hin := h.keyPresent
      exact ⟨_, run_key hin.turns hin.busy hin.decoding rfl rfl hin.rx,
        hin.symbolTaken.header hin.begun hin.cut _ _ _ _ _, rfl⟩

/-- The key, if any, and the payload (R128 to R130). -/
theorem maskRow_reachesError {s u : State} {st : Status} {r : List RxSym} (mask : Bool) (h : InFrame s r 0 u)
    {g : List Byte → List Byte → List RxSym → Decoded} (hg : ∀ ks bs r, g ks bs r ≠ .error st)
    (herr : ((takeBytes r (if mask then 4 else 0)).andThen fun ks r =>
      (takeBytes r u.rxplen.toNat).andThen (g ks)) = .error st)
    (hroom : ∀ k, s.params.rxbufBytes = some k → leadingBytes r - (if mask then 4 else 0) ≤ k) :
    ReachesError s st r (leadingBytes r - if mask then 4 else 0) (exec (maskRow mask) u) := by
  obtain ⟨ks, r, hks, rfl, hpay⟩ | ⟨bs, e, rest, hlt, rfl, he⟩ := takeBytes_error herr
  · obtain ⟨v, hrun, hv, hlen⟩ := h.run_maskRow hks
    rw [leadingBytes_append, hks, Nat.add_sub_cancel_left] at hroom ⊢
    rw [← hlen] at hpay
    exact (startPayload_reachesError hv (hg ks) hpay hroom).prepend ks hrun
  · rw [leadingBytes_sub_eq_zero he hlt.le]
    cases mask with
    | false => exact absurd hlt (Nat.not_lt_zero _)
    | true => exact h.keyPresent.reachesError_header he (by rwa [fieldLeft_key rfl]) fun h => nomatch h

/-- A length form with no extended length is the inline one (R88). -/
theorem extCount_inline {l : BitVec 7} (h : ¬(l = 126 ∨ l = 127)) : extCount l = 0 := by
  rw [extCount, if_neg (fun h126 => h (.inl h126)), if_neg (fun h127 => h (.inr h127))]

theorem extCount_extended {l : BitVec 7} (h : l = 126 ∨ l = 127) : extCount l = (xlen l).toNat := by
  rcases h with rfl | rfl <;> rfl

/-- Byte 1 in an extended form waits for the extended length (R124). -/
theorem exec_decodeLength_extended {b : Byte} (h : lenOf b = 126 ∨ lenOf b = 127) (s : State) :
    exec (decodeLength b) s = .next (startExtLen (maskOf b) (lenOf b) s) := by
  rw [exec_decodeLength, if_pos h]

/-- Byte 1 and the extended length, if any, taken whole (R124 to R127). -/
theorem InFrame.run_length {s u : State} {b : Byte} {ext : List Byte} {r : List RxSym} {c : Nat}
    (h : InFrame s (ext.map .byte ++ r) c u) (hl : u.rxplen = 0) (hext : ext.length = extCount (lenOf b)) :
    ∃ v, thenRun ext.length (exec (decodeLength b) u) = exec (maskRow (maskOf b)) v ∧ InFrame s r c v ∧
      v.rxplen = payloadLength (lenOf b) ext := by
  by_cases hx : lenOf b = 126 ∨ lenOf b = 127
  · have hin := h.startExtLen (maskOf b) (lenOf b)
    have hxlen : ext.length = (xlen (lenOf b)).toNat := hext.trans (extCount_extended hx)
    have hne : ext ≠ [] := by
      rintro rfl
      rcases hx with hx | hx <;> rw [hx] at hxlen <;> cases hxlen
    have hrun := run_extLen ext hin.turns hin.busy hin.decoding rfl hne
      (by rw [hxlen]; exact Nat.zero_add _) hin.rx
    rw [exec_decodeLength_extended hx, thenRun_next]
    refine ⟨_, hrun, hin.symbolTaken.header hin.begun hin.cut _ _ _ _ _, ?_⟩
    rw [← foldl_pushByte hx hext, ← hl]
    rfl
  · obtain rfl := List.length_eq_zero_iff.1 (hext.trans (extCount_inline hx))
    refine ⟨{ hdr1 (maskOf b) (lenOf b) u with rxplen := (lenOf b).setWidth 64 }, ?_,
      h.header h.begun h.cut _ _ _ _ _, rfl⟩
    rw [exec_decodeLength, if_neg hx, afterLength_eq]
    exact thenRun_zero _

/-- Byte 1 and everything after it (R88, R90, R91). -/
theorem decodeLength_reachesError {s u : State} {b0 b1 : Byte} {st : Status} {r : List RxSym} (h : InFrame s r 0 u)
    (hl : u.rxplen = 0) (herr : decodeRest b0 b1 r = .error st)
    (hroom : ∀ k, s.params.rxbufBytes = some k → leadingPayload (.byte b0 :: .byte b1 :: r) ≤ k) :
    ReachesError s st r (leadingPayload (.byte b0 :: .byte b1 :: r)) (exec (decodeLength b1) u) := by
  rw [leadingPayload_header] at hroom ⊢
  obtain ⟨ext, r, hext, rfl, hrest⟩ | ⟨bs, e, rest, hlt, rfl, he⟩ := takeBytes_error herr
  · obtain ⟨v, hrun, hv, hlen⟩ := h.run_length hl hext
    rw [leadingBytes_append, hext, Nat.add_sub_add_left] at hroom ⊢
    rw [← hlen] at hrest
    exact (maskRow_reachesError (maskOf b1) hv (fun _ _ _ => Decoded.noConfusion) hrest hroom).prepend ext hrun
  · have hx : lenOf b1 = 126 ∨ lenOf b1 = 127 := by
      by_contra hx
      rw [extCount_inline hx] at hlt
      exact absurd hlt (Nat.not_lt_zero _)
    rw [leadingBytes_sub_eq_zero he (by omega), exec_decodeLength_extended hx]
    exact (h.startExtLen (maskOf b1) (lenOf b1)).reachesError_header he
      (by rw [fieldLeft_extlen rfl]; rwa [extCount_extended hx] at hlt) (fun h => nomatch h)

/-! ### READ from `ReadStart` (R120, R122, R142) -/

/-- Every field of a READ that has just started is as `ReadStart()` sets it (R122). -/
theorem eq_of_readStart {s : State} (hs : readStart s = s) {α : Type} (g : State → α) : g s = g (readStart s) :=
  congrArg g hs.symm

/-- Byte 0 puts READ inside the frame (R123). -/
theorem inFrame_byte0 {s : State} {b0 : Byte} {r : List RxSym} (ht : s.turns = []) (hb : s.busy = true)
    (hp : s.progress = .decoding) (hs : readStart s = s) :
    InFrame s r 0 (hdr0 (finOf b0) (opcodeOf b0) (withRx s r)) :=
  ⟨ht, hb, hp, fun h => (nomatch h), fun h => (nomatch h), eq_of_readStart hs State.rxvalid, rfl, rfl,
    eq_of_readStart hs fun s => s.rxcnt.toNat⟩

/-- A stream whose first byte is there, and whose error `decodeFrame` finds behind it. -/
theorem read_reachesError {s : State} {b0 : Byte} {syms : List RxSym} {st : Status} (ht : s.turns = [])
    (hb : s.busy = true) (hp : s.progress = .decoding) (hs : readStart s = s)
    (hr : s.transport.rx = .byte b0 :: syms) (herr : decodeFrame (.byte b0 :: syms) = .error st)
    (hroom : ∀ k, s.params.rxbufBytes = some k → leadingPayload (.byte b0 :: syms) ≤ k) :
    ReachesError s st (.byte b0 :: syms) (leadingPayload (.byte b0 :: syms)) (.next s) := by
  have hd : s.dphase = .hdr0 := eq_of_readStart hs State.dphase
  obtain ⟨bs, r, hone, rfl, hrest⟩ | ⟨bs, e, rest, hlt, rfl, he⟩ := takeBytes_error (n := 1) herr
  · obtain ⟨b1, rfl⟩ := List.length_eq_one_iff.1 hone
    have hin : InFrame s r 0 (hdr0 (finOf b0) (opcodeOf b0) (withRx s r)) := inFrame_byte0 ht hb hp hs
    have hbody := decodeLength_reachesError hin (eq_of_readStart hs State.rxplen) hrest hroom
    exact hbody.prepend [b0, b1] ((run_header ht hb hp hd hr 0).trans (thenRun_zero _))
  · obtain rfl := List.length_eq_zero_iff.1 (Nat.lt_one_iff.1 hlt)
    have hin : InFrame s (e :: rest) 0 (hdr0 (finOf b0) (opcodeOf b0) (withRx s (e :: rest))) :=
      inFrame_byte0 ht hb hp hs
    have hnone : leadingPayload (.byte b0 :: e :: rest) = 0 := by
      cases e with
      | byte b => cases he
      | eos | fail => rfl
    have hbody : ReachesError s st (e :: rest) 0 (.next (hdr0 (finOf b0) (opcodeOf b0) (withRx s (e :: rest)))) :=
      hin.reachesError_header (bs := []) he Nat.one_pos fun h => nomatch h
    have hfirst : run 1 s = .next (hdr0 (finOf b0) (opcodeOf b0) (withRx s (e :: rest))) :=
      (run_one s).trans (step_byte0 ht hb hp hd hr)
    rw [List.map_nil, List.nil_append, hnone]
    exact hbody.prepend [b0] (x := .next s) hfirst

/-- An error symbol where byte 0 should be is a TransportError (R131, R132). -/
theorem step_error_hdr0 {s : State} {e : RxSym} {rest : List RxSym} {st : Status} (ht : s.turns = [])
    (hb : s.busy = true) (hp : s.progress = .decoding) (hd : s.dphase = .hdr0) (hr : s.transport.rx = e :: rest)
    (he : inFrameError e = some st) : step s = .next (abort .transportError (withRx s rest)) := by
  rw [step_symbol_nil ht hb hp hr]
  cases e with
  | byte b => cases he
  | eos => exact congrArg Host.Outcome.next (takeEos_hdr0 (s := withRx s rest) hd)
  | fail => rfl

/-- READ takes the bytes before the error and the error symbol, and aborts (R131, R132, R245). -/
theorem ReachesError.run_abort {s : State} {st : Status} {syms : List RxSym} {c : Nat}
    (h : ReachesError s st syms c (.next s)) :
    ∃ e v, InFrame s (e :: syms.drop (leadingBytes syms + 1)) c v ∧
      run (leadingBytes syms + 1) s = .next (abort st (withRx v (syms.drop (leadingBytes syms + 1)))) := by
  obtain ⟨bs, e, rest, v, rfl, he, hrun, hv⟩ := h
  have hbytes : leadingBytes (bs.map .byte ++ e :: rest) = bs.length := by
    rw [leadingBytes_append, leadingBytes_error he, Nat.add_zero]
  have hrest : (bs.map RxSym.byte ++ e :: rest).drop (bs.length + 1) = rest := by simp [List.drop_append]
  rw [hbytes, hrest]
  exact ⟨e, v, hv, (run_add _ 1 hrun).trans ((run_one v).trans (hv.step_error he))⟩

/-- Settles O36: an error before byte 0 is one step; any other is reached inside the frame, and its step aborts. -/
theorem readErrorsFollowDecodeFrame : Obligations.ReadErrorsFollowDecodeFrame := by
  intro s syms st ht hb hp hs hr herr hroom
  match syms with
  | [] => cases herr
  | .eos :: rest | .fail :: rest =>
    cases herr
    have hstep := step_error_hdr0 ht hb hp (eq_of_readStart hs State.dphase) hr rfl
    exact ⟨_, (run_one s).trans hstep, rfl, rfl, rfl, rfl, eq_of_readStart hs State.rxvalid,
      fun hi => (nomatch (eq_of_readStart hs State.dphase).symm.trans hi),
      eq_of_readStart hs fun s => s.rxcnt.toNat, rfl⟩
  | .byte b0 :: syms =>
    obtain ⟨e, v, hv, hrun⟩ := (read_reachesError ht hb hp hs hr herr hroom).run_abort
    refine ⟨_, hrun, rfl, rfl, rfl, rfl, hv.incomplete, hv.cut, hv.count, ?_⟩
    rw [abort_transport, withRx, hv.transport]

end Sys2Proof.Machine
end

section
/-! Proofs of the statements about the frame encoding: the encoder's header in its three length forms. -/

namespace Sys2Proof

/-! ### Header bytes as the statement writes them (R81, R82, R160) -/

/-- Byte 0 without RSV is `(fin << 7) | op` (R84, R160). -/
theorem byte0_eq_or (fin : Bool) (op : BitVec 4) :
    byte0 fin 0 op = (BitVec.ofBool fin).setWidth 8 <<< 7 ||| op.setWidth 8 := by
  revert fin op; decide

/-- Byte 1 is `(mask << 7) | L` (R160). -/
theorem byte1_eq_or (mask : Bool) (l : BitVec 7) :
    byte1 mask l = (BitVec.ofBool mask).setWidth 8 <<< 7 ||| l.setWidth 8 := by
  revert mask l; decide

/-- Byte `i` of a number that has it, by division (R14). -/
theorem extractByte_ofNat {w i : Nat} (h : i + 8 ≤ w) (n : Nat) :
    (BitVec.ofNat w n).extractLsb' i 8 = BitVec.ofNat 8 (n / 2 ^ i) := by
  apply BitVec.eq_of_getLsbD_eq
  intro j hj
  have hw : i + j < w := by omega
  rw [BitVec.getLsbD_extractLsb', BitVec.getLsbD_ofNat, BitVec.getLsbD_ofNat, Nat.testBit_div_two_pow, Nat.add_comm j]
  simp [hj, hw]

/-- Byte 1 in the inline form (R160). -/
theorem lengthField_inline (mask : Bool) {n : Nat} (h : n < 126) :
    lengthField mask n = [(BitVec.ofBool mask).setWidth 8 <<< 7 ||| BitVec.ofNat 8 n] := by
  have hfit : (BitVec.ofNat 7 n).setWidth 8 = BitVec.ofNat 8 n :=
    BitVec.eq_of_toNat_eq (by simp; omega)
  rw [lengthField, if_pos h, byte1_eq_or, hfit]

/-- Byte 1 and the extended length in the 16-bit form (R160). -/
theorem lengthField_be16 (mask : Bool) {n : Nat} (h : 126 ≤ n) (h' : n < 65536) :
    lengthField mask n =
      [(BitVec.ofBool mask).setWidth 8 <<< 7 ||| 126#8, BitVec.ofNat 8 (n / 256), BitVec.ofNat 8 n] := by
  rw [lengthField, if_neg (by omega), if_pos h', byte1_eq_or, be16Bytes, extractByte_ofNat (by decide),
    extractByte_ofNat (by decide), pow_zero, Nat.div_one]
  rfl

/-- Byte 1 and the extended length in the 64-bit form (R160). -/
theorem lengthField_be64 (mask : Bool) {n : Nat} (h : 65536 ≤ n) :
    lengthField mask n =
      [(BitVec.ofBool mask).setWidth 8 <<< 7 ||| 127#8, BitVec.ofNat 8 (n / 2 ^ 56), BitVec.ofNat 8 (n / 2 ^ 48),
        BitVec.ofNat 8 (n / 2 ^ 40), BitVec.ofNat 8 (n / 2 ^ 32), BitVec.ofNat 8 (n / 2 ^ 24),
        BitVec.ofNat 8 (n / 2 ^ 16), BitVec.ofNat 8 (n / 2 ^ 8), BitVec.ofNat 8 n] := by
  have hbyte : ∀ i, i + 8 ≤ 64 → (BitVec.ofNat 64 n).extractLsb' i 8 = BitVec.ofNat 8 (n / 2 ^ i) := fun _ hi =>
    extractByte_ofNat hi n
  rw [lengthField, if_neg (by omega), if_neg (by omega), byte1_eq_or, be64Bytes]
  simp only [hbyte, Nat.reduceAdd, Nat.reduceLeDiff, pow_zero, Nat.div_one]
  rfl

/-- Settles O34: the length field in each of its three forms. -/
theorem encoderHeaderForms : Obligations.EncoderHeaderForms := by
  intro fin mask op k p n b0 m body
  have hframe : encodeFrame fin op mask k p = b0 :: (lengthField mask n ++ body) := by
    rw [encodeFrame, byte0_eq_or]
    rfl
  refine ⟨fun h => ?_, fun h h' => ?_, fun h _ => ?_⟩
  · rw [hframe, lengthField_inline mask h]
    rfl
  · rw [hframe, lengthField_be16 mask h h']
    rfl
  · rw [hframe, lengthField_be64 mask h]
    rfl

end Sys2Proof
end

section
/-! Proofs of the statements about the frame encoding: an encoded frame read back by READ. -/

namespace Sys2Proof.Machine

/-! ### An encoded frame read back (R162) -/

/-- The payload of a frame as the wire carries it (R160). -/
def wirePayload (mask : Bool) (k : Key) (p : List Byte) : List Byte := if mask then maskBytes k p else p

theorem wirePayload_length (mask : Bool) (k : Key) (p : List Byte) : (wirePayload mask k p).length = p.length := by
  cases mask
  · rfl
  · exact maskFrom_length k 0 p

/-- The unmask view of a frame as it was encoded is its payload (R140, R141, R162). -/
theorem plainRange_wirePayload {s : State} {mask : Bool} {k : Key} {p : List Byte} (hm : s.rxmask = mask)
    (hk : s.rxkey = if mask then k else Key.zero) (hraw : s.rxraw = cellsFrom 0 (wirePayload mask k p)) :
    plainRange s 0 p.length = some p := by
  have hread : s.rxraw.readRange 0 p.length = some (wirePayload mask k p) := by
    have hcells := readRange_cellsFrom 0 (wirePayload mask k p) []
    rwa [List.nil_append, wirePayload_length, ← hraw] at hcells
  rw [plainRange_eq _ hread, hm, hk]
  cases mask
  · rfl
  · exact congrArg some (maskFrom_maskFrom k 0 p)

/-- Settles O37: `decodeFrame` finds the frame that was encoded, READ computes `decodeFrame`, and unmasking undoes
masking. -/
theorem encodedFrameReadsBack : Obligations.EncodedFrameReadsBack := by
  intro s fin mask op k p rest ht hb hp hs hl hcap hr
  obtain ⟨l, hdec⟩ := decodeFrame_encodeFrame fin op mask k hl rest
  have hrun := readComputesDecodeFrame s _ rest _ ht hb hp hs hr hdec fun c hc =>
    (wirePayload_length mask k p).trans_le (hcap c hc)
  rw [List.length_append, List.length_map, Nat.add_sub_cancel] at hrun
  exact ⟨_, hrun, rfl, rfl, rfl, rfl, rfl, rfl, rfl, rfl, plainRange_wirePayload rfl rfl rfl, rfl⟩

end Sys2Proof.Machine
end

section
/-! Proofs of the statements about the send commands: which of the frames left to send are unmasked. -/

namespace Sys2Proof.Machine

/-! ### Unmasked frames (R160, R177) -/

/-- Byte 1 is there in every form of the length field, and its bit 7 is the MASK bit (R82, R160). -/
theorem maskOf_lengthField (mask : Bool) (n : Nat) : ((lengthField mask n)[0]?).map maskOf = some mask := by
  unfold lengthField
  split_ifs <;> simp

/-- An encoded frame with MASK = 0 is an unmasked frame, whatever key it was given (R160, R177). -/
theorem unmasked_encodeFrame (fin : Bool) (op : BitVec 4) (k : Key) (p : List Byte) :
    unmasked (encodeFrame fin op false k p) := by
  have hframe : encodeFrame fin op false k p = byte0 fin 0 op :: (lengthField false p.length ++ p) := rfl
  refine ⟨fin, op, p, rfl, ?_, ?_⟩
  · rw [hframe, List.getElem?_cons_succ, List.getElem?_append_left (by rw [lengthField_length]; split_ifs <;> decide)]
    exact maskOf_lengthField false p.length
  · rw [hframe, ← List.cons_append, List.length_append, Nat.add_sub_cancel, List.drop_left]

theorem unmasked_closeFrame (c : BitVec 16) : unmasked (closeFrame c) := unmasked_encodeFrame _ _ _ _

/-! ### The frames a command leaves to send (R177) -/

/-- Every frame still to be sent is unmasked. -/
def UnmaskedProgress : Progress → Prop
  | .sending frame _ later _ => ∀ f ∈ frame :: later, unmasked f
  | _ => True

theorem unmaskedProgress_one {frame : List Byte} (h : unmasked frame) (k : Nat) (last : Ending) :
    UnmaskedProgress (.sending frame k [] last) := by
  intro f hf
  rw [List.mem_singleton.1 hf]
  exact h

/-- A result whose next state, if it answers one, has only unmasked frames still to be sent. -/
def SendsUnmasked (r : Result) : Prop := ∀ t, r = .next t → UnmaskedProgress t.progress

theorem sendsUnmasked_next {t : State} (h : UnmaskedProgress t.progress) : SendsUnmasked (.next t) := by
  intro u hu
  cases hu
  exact h

theorem sendsUnmasked_fault (e : Fault) : SendsUnmasked (.fault e) := fun _ ht => nomatch ht

theorem sendsUnmasked_refused (e : Refusal) : SendsUnmasked (.refused e) := fun _ ht => nomatch ht

/-- A command leaves what it was accepted with (R96). -/
theorem sendsUnmasked_accept {p : Progress} (h : UnmaskedProgress p) (code : BitVec 4) (s : State) :
    SendsUnmasked (accept code p s) := by
  intro t ht
  obtain ⟨-, rfl⟩ := accept_cases ht
  exact h

theorem unmaskedProgress_send {frame : List Byte} (h : unmasked frame) (s : State) :
    UnmaskedProgress (sendProgress frame s) := by
  unfold sendProgress
  split
  · trivial
  · exact unmaskedProgress_one h _ _

/-- A send command whose frame is unmasked for every payload (R167, R168). -/
theorem sendsUnmasked_sendPayload {f : List Byte → List Byte} (h : ∀ p, unmasked (f p)) (code : BitVec 4) (s : State) :
    SendsUnmasked (sendPayload code f s) := by
  unfold sendPayload
  split
  · rename_i hc
    rw [sendProgress_closed hc]
    exact sendsUnmasked_accept (p := .ending _) trivial _ _
  · exact sendsUnmasked_accept (unmaskedProgress_send (h _) s) _ _
  · split <;> exact sendsUnmasked_refused _

theorem unmaskedProgress_closeCall (c : CState) : UnmaskedProgress (closeCall c) := by
  cases c with
  | established => exact unmaskedProgress_one (unmasked_closeFrame _) _ _
  | closing | closed => trivial

/-- READ outside Closed is not accepted while BUSY = 1 (R280). -/
theorem execRead_busy {s : State} (hb : s.busy = true) (hc : s.cstate ≠ .closed) :
    execRead s = .refused .hostWriteWhileBusy := by
  unfold execRead
  split
  · exact absurd ‹_› hc
  · rw [accept_busy _ _ hb]

/-- READ sends nothing in the step that accepts it (R120, R121). -/
theorem sendsUnmasked_read (s : State) : SendsUnmasked (execRead s) := by
  by_cases hc : s.cstate = .closed
  · rw [execRead_closed hc]
    exact sendsUnmasked_accept (p := .ending _) trivial _ _
  · cases hb : s.busy with
    | false =>
      rw [execRead_open hb hc]
      exact sendsUnmasked_next trivial
    | true =>
      rw [execRead_busy hb hc]
      exact sendsUnmasked_refused _

/-! ### The frames a reaction leaves to send (R177, R205, R220) -/

theorem sendsUnmasked_noReaction (s : State) : SendsUnmasked (noReaction s) := sendsUnmasked_next trivial

theorem sendsUnmasked_pongReply (s : State) : SendsUnmasked (pongReply s) := by
  unfold pongReply
  split
  · exact sendsUnmasked_fault _
  · exact sendsUnmasked_next (unmaskedProgress_one (unmasked_encodeFrame _ _ _ _) _ _)

theorem unmasked_teardownFrames {s : State} {f : List Byte} (hf : f ∈ teardownFrames s) : unmasked f := by
  unfold teardownFrames at hf
  split at hf
  · rw [List.mem_singleton.1 hf]
    exact unmasked_closeFrame _
  · exact absurd hf List.not_mem_nil

theorem sendsUnmasked_rxClose (s : State) : SendsUnmasked (rxClose s) := by
  unfold rxClose
  split
  · split
    · exact sendsUnmasked_refused _
    · split
      · exact sendsUnmasked_fault _
      · refine sendsUnmasked_next fun f hf => ?_
        rcases List.mem_cons.1 hf with rfl | hf
        · exact unmasked_closeFrame _
        · exact unmasked_teardownFrames hf
  · exact sendsUnmasked_next trivial
  · exact sendsUnmasked_next trivial

theorem sendsUnmasked_reaction (op : BitVec 4) (s : State) : SendsUnmasked (reactionOf op s) := by
  unfold reactionOf
  split
  · exact sendsUnmasked_rxClose s
  · split
    · exact sendsUnmasked_pongReply s
    · exact sendsUnmasked_noReaction s

/-- An opcode row is `Hdr0`, which sends nothing, or its reaction (R123, R211). -/
theorem sendsUnmasked_frameRow {r : State → Result} (hr : ∀ s, SendsUnmasked (r s)) {s : State}
    (h : UnmaskedProgress s.progress) (fin : Bool) (op : BitVec 4) : SendsUnmasked (frameRow fin op r s) := by
  by_cases hd : s.dphase = .idle
  · rw [frameRow_idle hd]
    exact hr s
  · rw [frameRow_header hd]
    exact sendsUnmasked_next h

/-- `StartPayload()` sends nothing, or completes the frame (R130, R138). -/
theorem sendsUnmasked_startPayload {s : State} (h : UnmaskedProgress s.progress) : SendsUnmasked (startPayload s) := by
  by_cases hl : s.rxplen = 0
  · rw [startPayload_empty hl, show rxRow s = rxRow (frameDone s) from rfl, exec_rxRow (s := frameDone s) rfl]
    exact sendsUnmasked_reaction _ _
  · rw [startPayload_nonempty hl]
    exact sendsUnmasked_next h

theorem sendsUnmasked_maskRow (mask : Bool) {s : State} (h : UnmaskedProgress s.progress) :
    SendsUnmasked (exec (maskRow mask) s) := by
  cases mask
  · exact sendsUnmasked_startPayload h
  · exact sendsUnmasked_next h

/-- Every instruction but SEND_FRAME with TXMASK = 1, from a state in which only unmasked frames are still to be sent. -/
theorem sendsUnmasked_exec {i : Instr} {s : State} (hi : i ≠ .sendFrame ∨ s.txmask = false)
    (h : UnmaskedProgress s.progress) : SendsUnmasked (exec i s) := by
  cases i with
  | nop | unassigned c => exact sendsUnmasked_accept (p := .ending _) trivial _ _
  | read => exact sendsUnmasked_read s
  | sendText | sendBinary | sendPing => exact sendsUnmasked_sendPayload (fun p => unmasked_encodeFrame _ _ _ p) _ _
  | sendClose => exact sendsUnmasked_accept (unmaskedProgress_send (unmasked_closeFrame _) s) _ _
  | close => exact sendsUnmasked_accept (unmaskedProgress_closeCall _) _ _
  | sendFrame =>
    have hm : s.txmask = false := hi.resolve_left fun h => h rfl
    refine sendsUnmasked_sendPayload (fun p => ?_) _ _
    rw [hm]
    exact unmasked_encodeFrame _ _ _ p
  | frameContinuation fin rsv | frameText fin rsv | frameBinary fin rsv | framePong fin rsv | frameOpaque3 fin rsv
  | frameOpaque4 fin rsv | frameOpaque5 fin rsv | frameOpaque6 fin rsv | frameOpaque7 fin rsv | frameOpaqueB fin rsv
  | frameOpaqueC fin rsv | frameOpaqueD fin rsv | frameOpaqueE fin rsv | frameOpaqueF fin rsv =>
    exact sendsUnmasked_frameRow sendsUnmasked_noReaction h fin _
  | frameClose fin rsv => exact sendsUnmasked_frameRow sendsUnmasked_rxClose h fin _
  | framePing fin rsv => exact sendsUnmasked_frameRow sendsUnmasked_pongReply h fin _
  | len7 mask l =>
    rw [exec_len7]
    exact sendsUnmasked_maskRow mask h
  | len16 mask | len64 mask => exact sendsUnmasked_next h
  | keyPresent => exact sendsUnmasked_maskRow true h
  | keyAbsent => exact sendsUnmasked_maskRow false h

/-- Settles O26: where nothing is being sent yet, what an instruction leaves to send is its own. -/
theorem serverFramesAreUnmasked : Obligations.ServerFramesAreUnmasked := by
  intro i s t frame k later last hi hp hx ht
  have hs : UnmaskedProgress s.progress := by
    rcases hp with hp | hp <;> rw [hp] <;> trivial
  have hsent := sendsUnmasked_exec hi hs t hx
  rwa [ht] at hsent

end Sys2Proof.Machine
end

section
/-! Proofs of the statements about the send commands: from their acceptance to their end, and their refusal. -/

namespace Sys2Proof.Machine

/-! ### The send commands that transmit TXBUF (R166 to R172, R175) -/

/-- Each of the four is `sendPayload` with its code and its frame. -/
theorem exec_payloadSend {i : Instr} {code : BitVec 4} {frameOf : State → List Byte → List Byte}
    (h : (i, code, frameOf) ∈ payloadSends) (s : State) :
    exec i s = sendPayload code (frameOf s) s ∧ ∀ p, frameOf s p ≠ [] := by
  simp only [payloadSends, List.mem_cons, List.not_mem_nil, or_false, Prod.mk.injEq] at h
  obtain ⟨rfl, rfl, rfl⟩ | ⟨rfl, rfl, rfl⟩ | ⟨rfl, rfl, rfl⟩ | ⟨rfl, rfl, rfl⟩ := h <;>
    exact ⟨rfl, fun p => encodeFrame_ne_nil _ _ _ _ p⟩

/-- Settles O27: the accepted command has one frame to send, then `finish(OK)`. -/
theorem sendCommandsTransmitTheirFrame : Obligations.SendCommandsTransmitTheirFrame := by
  intro i code frameOf hi s p rest ht hb hc hp ha
  obtain ⟨hexec, hne⟩ := exec_payloadSend hi s
  refine ⟨_, hexec.trans (sendPayload_open code (frameOf s) hb hc hp), ?_⟩
  rw [← complete_finish]
  exact run_sending_one (s := accepted code s) ht rfl (hne p) ha

/-- Settles O28: the accepted command has one Close frame with TXCODE to send, then `finish(OK)`. -/
theorem sendCloseTransmitsTheCode : Obligations.SendCloseTransmitsTheCode := by
  intro s rest ht hb hc ha
  refine ⟨_, exec_sendClose_open hb hc, ?_⟩
  rw [closeFrame_eq, ← complete_finish]
  exact run_sending_one (s := accepted 0x5 s)
    (frame := [0x88#8, 0x02#8, s.txcode.extractLsb' 8 8, s.txcode.extractLsb' 0 8]) ht rfl (by simp) ha

/-! ### The payload that cannot be read (R167) -/

/-- `MemRead` finds nothing exactly where a cell of the range is unwritten (R65). -/
theorem readRange_eq_none_iff (m : Memory) (n : Nat) :
    m.readRange 0 n = none ↔ ∃ a, a < n ∧ m.read a = none := by
  have hsome := not_congr (Memory.readRange_isSome m 0 n)
  simpa using hsome

/-- The payload is TXBUF[0 .. TXLEN-1], where TXLEN fits TXBUF (R66, R167). -/
theorem txPayload_eq (s : State) :
    txPayload s =
      if ∃ c, s.params.txbufBytes = some c ∧ c < s.txlen.toNat then none
      else s.txbuf.readRange 0 s.txlen.toNat := by
  unfold txPayload
  cases s.params.txbufBytes with
  | none => simp
  | some c => by_cases hfits : s.txlen.toNat ≤ c <;> simp [hfits]

/-- A send command outside Closed whose payload cannot be read (R167). -/
theorem sendPayload_unreadable {s : State} (code : BitVec 4) (frameOf : List Byte → List Byte) (hb : s.busy = false)
    (hc : s.cstate ≠ .closed) (hp : txPayload s = none) : sendPayload code frameOf s = .refused .txPayload := by
  unfold sendPayload
  cases h : s.cstate with
  | closed => exact absurd h hc
  | established | closing => simp [hp, hb]

/-- A send command outside Closed is refused for its payload exactly where it cannot be read (R167). -/
theorem sendPayload_refused_iff {s : State} (hb : s.busy = false) (hc : s.cstate ≠ .closed) (code : BitVec 4)
    (frameOf : List Byte → List Byte) :
    sendPayload code frameOf s = .refused .txPayload ↔ txPayload s = none := by
  cases hp : txPayload s with
  | some p => simp [sendPayload_open code frameOf hb hc hp]
  | none => simp [sendPayload_unreadable code frameOf hb hc hp]

/-- Settles O29: the command is refused where `txPayload` finds nothing, which is where TXLEN does not fit TXBUF or
`MemRead` meets an unwritten cell. -/
theorem unreadablePayloadIsRefused : Obligations.UnreadablePayloadIsRefused := by
  intro i code frameOf hi s hb hc
  rw [(exec_payloadSend hi s).1, sendPayload_refused_iff hb hc, txPayload_eq]
  split
  · rename_i hlong
    exact ⟨iff_of_true rfl (.inl hlong), fun p hp => nomatch hp⟩
  · rename_i hfits
    refine ⟨?_, fun p hp => ⟨Memory.readRange_length hp, fun a ha => ?_⟩⟩
    · rw [readRange_eq_none_iff, or_iff_right hfits]
    · rw [Memory.readRange_getElem? hp ha, Nat.zero_add]

end Sys2Proof.Machine
end

section
/-! Proofs of the statements about the close handshake: the frames without a reaction, a received Close that is not
echoed, and Closed as the last value of CSTATE. -/

namespace Sys2Proof.Machine

/-! ### Frames without a reaction (R211, R221, R222) -/

/-- The quiet rows are the opcode rows but those of Close and Ping. -/
theorem quietRows_eq :
    quietRows = (opcodeRows.filter fun row => row.2 ≠ 0x8 ∧ row.2 ≠ 0x9).map Prod.fst := rfl

/-- A row of the opcode table with its own opcode: `Hdr0`, or the reaction of that opcode (R123, R211). -/
theorem exec_opcodeRow {mk : Bool → BitVec 3 → Instr} {op : BitVec 4} (h : (mk, op) ∈ opcodeRows) (fin : Bool)
    (rsv : BitVec 3) (s : State) : exec (mk fin rsv) s = frameRow fin op (reactionOf op) s := by
  rw [← decodeOpcode_byte0 h fin rsv, exec_decodeOpcode, finOf_byte0, opcodeOf_byte0]

theorem reactionOf_quiet {op : BitVec 4} (h8 : op ≠ 0x8) (h9 : op ≠ 0x9) : reactionOf op = noReaction := by
  rw [reactionOf, if_neg h8, if_neg h9]

/-- Settles O22: the row's opcode is neither 8 nor 9, and every such opcode has the reaction `finish(OK)`. -/
theorem otherFramesTakeNoReaction : Obligations.OtherFramesTakeNoReaction := by
  intro mk hmk fin rsv s hd
  rw [quietRows_eq] at hmk
  obtain ⟨⟨mk, op⟩, hrow, rfl⟩ := List.mem_map.1 hmk
  obtain ⟨hrow, hop⟩ := List.mem_filter.1 hrow
  obtain ⟨h8, h9⟩ := of_decide_eq_true hop
  rw [exec_opcodeRow hrow, frameRow_idle hd, reactionOf_quiet h8 h9]
  rfl

/-! ### A received Close outside the echo (R206, R207, R214) -/

theorem exec_frameClose_idle {s : State} (hd : s.dphase = .idle) (fin : Bool) (rsv : BitVec 3) :
    exec (.frameClose fin rsv) s = rxClose s :=
  frameRow_idle hd fin 0x8 rxClose

theorem rxClose_closing {s : State} (hc : s.cstate = .closing) : rxClose s = .next (complete (.moveTo .closed) s) := by
  simp only [rxClose, hc, complete]

theorem rxClose_closed {s : State} (hc : s.cstate = .closed) : rxClose s = .next (recordAnomaly s) := by
  simp only [rxClose, hc]

/-- The anomaly cell, in the words of the statements (R206). -/
theorem recordAnomaly_eq (s : State) : recordAnomaly s = ended .protocolAnomaly { s with anomaly := true } := rfl

theorem rxClose_short {s : State} (hc : s.cstate = .established) (hl : s.rxplen.toNat < 2) :
    rxClose s = .refused .shortCloseBody := by
  simp only [rxClose, hc, if_pos hl]

/-- Settles O25: FRAME_CLOSE is `RxClose()`, taken cell by cell. -/
theorem closeElsewhere : Obligations.CloseElsewhere := by
  intro fin rsv s hd
  rw [exec_frameClose_idle hd, ← complete_moveTo_closed, ← recordAnomaly_eq]
  exact ⟨rxClose_closing, rxClose_closed, rxClose_short⟩

/-! ### Closed is the last value of CSTATE (R208) -/

theorem CState.code_ne_three (c : CState) : c.code ≠ 3 := by
  cases c <;> decide

/-- In Closed every command is accepted and nothing more (R96, R121, R168, R210). -/
theorem exec_decodeCommand_closed {s : State} (hc : s.cstate = .closed) (c : BitVec 4) :
    ∃ code p, exec (decodeCommand c) s = accept code p s := by
  unfold decodeCommand
  split
  · exact ⟨_, _, rfl⟩
  · exact ⟨_, _, execRead_closed hc⟩
  · exact ⟨_, _, sendPayload_closed hc _ _⟩
  · exact ⟨_, _, sendPayload_closed hc _ _⟩
  · exact ⟨_, _, sendPayload_closed hc _ _⟩
  · exact ⟨_, _, execSendClose_closed hc⟩
  · exact ⟨_, _, rfl⟩
  · exact ⟨_, _, sendPayload_closed hc _ _⟩
  · exact ⟨_, _, rfl⟩

/-- All a host register write that is not refused can do (R22, R23, R96). -/
theorem hostWriteReg_cases {s t : State} {n : BitVec 8} {v : Word64} (h : hostWriteReg n v s = .next t) :
    t = s ∨ t = writeOperand s n v ∨ exec (decodeCommand (v.setWidth 4)) s = .next t := by
  unfold hostWriteReg at h
  split at h
  · cases h
    exact .inl rfl
  · split at h
    · cases h
    · split at h
      · cases h
        exact .inl rfl
      · split at h
        · split at h
          · exact .inr (.inr h)
          · cases h
            exact .inr (.inl rfl)
        · cases h

/-- All a host TXBUF write that is not refused can do (R63). -/
theorem hostWriteBuf_cases {s t : State} {a : Word64} {b : Byte} (h : hostWriteBuf a b s = .next t) :
    t = { s with txbuf := s.txbuf.write a.toNat b } := by
  unfold hostWriteBuf at h
  split at h
  · cases h
  · split at h <;> cases h
    rfl

theorem writeOperand_cstate (s : State) (n : BitVec 8) (v : Word64) : (writeOperand s n v).cstate = s.cstate := by
  rw [writeOperand_operands]

theorem hostWriteReg_stays_closed {s t : State} {n : BitVec 8} {v : Word64} (hc : s.cstate = .closed)
    (ht : hostWriteReg n v s = .next t) : t.cstate = .closed := by
  rcases hostWriteReg_cases ht with rfl | rfl | hx
  · exact hc
  · rwa [writeOperand_cstate]
  · obtain ⟨code, p, haccept⟩ := exec_decodeCommand_closed hc (v.setWidth 4)
    obtain ⟨-, rfl⟩ := accept_cases (haccept.symm.trans hx)
    exact hc

theorem sameBlock_cstate {s t : State} (h : SameBlock s t) : t.cstate = s.cstate := by
  rw [h]

/-- No bus action but the reset event leaves Closed (R112, R208). -/
theorem busAction_stays_closed {s t : State} (hc : s.cstate = .closed) {a : BusAction} (hreset : ∀ u, a ≠ .reset u)
    (ht : busAction a s = .next t) : t.cstate = .closed := by
  cases a with
  | writeReg n v => exact hostWriteReg_stays_closed hc ht
  | readReg n =>
    cases ht
    exact hc
  | writeBuf a b =>
    rw [hostWriteBuf_cases ht]
    exact hc
  | readBuf space a => exact (sameBlock_cstate (sameBlock_hostReadBuf ht)).trans hc
  | wait =>
    cases ht
    exact (sameBlock_cstate (sameBlock_hostPoll s)).trans hc
  | reset u => exact absurd rfl (hreset u)

/-- A legal ending never leaves Closed (R208). -/
theorem complete_stays_closed {s : State} (hc : s.cstate = .closed) {last : Ending} (hl : endingInv last s) :
    (complete last s).cstate = .closed := by
  cases last with
  | finish st => exact hc
  | abort st => rfl
  | moveTo c =>
    cases c with
    | established => exact hl.elim
    | closing => exact nomatch hc.symm.trans hl
    | closed => rfl

/-- In Closed the block neither decodes nor sends: it waits or completes a command (R121, R168, R208). -/
theorem State.Inv.blockStep_stays_closed {s t : State} (h : s.Inv) (hc : s.cstate = .closed)
    (ht : blockStep s = .next t) : t.cstate = .closed := by
  cases hp : s.progress with
  | idle =>
    rw [blockStep_idle hp] at ht
    cases ht
    exact hc
  | decoding => exact absurd hc (h.toDecoding hp).live
  | sending frame k later last =>
    obtain ⟨-, hlive, -⟩ := (progressInv_sending hp).1 h.progress
    exact absurd hc hlive
  | ending last =>
    obtain ⟨-, hl⟩ := (progressInv_ending hp).1 h.progress
    rw [blockStep_ending hp] at ht
    cases ht
    exact complete_stays_closed hc hl

/-- No step but the reset event leaves Closed (R208). -/
theorem State.Inv.step_stays_closed {s t : State} (h : s.Inv) (hc : s.cstate = .closed) (ht : step s = .next t)
    (hreset : ∀ u q, nextAgent s = .host → s.hostQueue ≠ .reset u :: q) : t.cstate = .closed := by
  cases hn : nextAgent s with
  | block =>
    rw [step_of_block hn] at ht
    exact State.Inv.blockStep_stays_closed (s := takeTurn s) (h.env _ _ _ _ _ _ _ _ _ _ _ _ _) hc ht
  | host =>
    cases hq : s.hostQueue with
    | nil =>
      rw [step_of_host hn, hostStep_nil (s := takeTurn s) hq] at ht
      cases ht
      exact hc
    | cons a q =>
      rw [step_actionTaken hn hq] at ht
      exact busAction_stays_closed (s := actionTaken s q) hc (fun u ha => hreset u q hn (by rw [hq, ha])) ht

/-- Settles O48: the step stays in Closed and keeps the invariant, by which Closed has released the transport. -/
theorem closedIsTerminal : Obligations.ClosedIsTerminal := by
  refine ⟨fun s => s.cstate.code_ne_three, fun s t h hc ht hreset => ?_⟩
  have hclosed : t.cstate = .closed := h.step_stays_closed hc ht hreset
  have hinv : t.Inv := stepKeepsInvariant s t h ht
  exact ⟨hclosed, hinv.released.2 hclosed⟩

end Sys2Proof.Machine
end

section
/-! Proofs of the statements about reset, and about the received frame while the block sends. -/

namespace Sys2Proof.Machine

/-! ### The reset event (R270, R271, R276) -/

/-- Settles O2: the event is the host's next bus action, and `hostReset` is all it does. -/
theorem resetEventStartsNewConnection : Obligations.ResetEventStartsNewConnection := by
  intro s t q hn hq
  rw [step_actionTaken hn hq]
  rfl

/-! ### What the acceptance of a send command changes (R96, R281) -/

/-- A send command that transmits TXBUF and is not refused is an acceptance (R96, R167). -/
theorem sendPayload_accepts {s t : State} {code : BitVec 4} {frameOf : List Byte → List Byte}
    (h : sendPayload code frameOf s = .next t) : ∃ p, accept code p s = .next t := by
  unfold sendPayload at h
  split at h
  · exact ⟨_, h⟩
  · exact ⟨_, h⟩
  · split at h <;> cases h

/-- Each of the five send commands, where it is not refused, is an acceptance (R96). -/
theorem exec_send_accepts {i : Instr} {s t : State}
    (hi : i ∈ [Instr.sendText, .sendBinary, .sendPing, .sendClose, .sendFrame]) (h : exec i s = .next t) :
    ∃ code p, accept code p s = .next t := by
  simp only [List.mem_cons, List.not_mem_nil, or_false] at hi
  obtain rfl | rfl | rfl | rfl | rfl := hi
  · exact ⟨_, sendPayload_accepts h⟩
  · exact ⟨_, sendPayload_accepts h⟩
  · exact ⟨_, sendPayload_accepts h⟩
  · exact ⟨_, _, h⟩
  · exact ⟨_, sendPayload_accepts h⟩

/-! ### What the block keeps outside decoding (R281) -/

/-- The registers and the buffer that a READ fills: the RX registers, the decoder's position and RXRAW (R30 to R39, R61). -/
structure ReceivedPart where
  rxvalid : Bool
  rxfin : Bool
  rxop : BitVec 4
  rxmask : Bool
  rxlen7 : BitVec 7
  rxplen : Word64
  rxkey : Key
  rxcnt : Word64
  dphase : DPhase
  didx : BitVec 4
  rxraw : Memory

/-- The part of `s` that a READ fills. -/
def receivedPart (s : State) : ReceivedPart :=
  { rxvalid := s.rxvalid, rxfin := s.rxfin, rxop := s.rxop, rxmask := s.rxmask, rxlen7 := s.rxlen7
    rxplen := s.rxplen, rxkey := s.rxkey, rxcnt := s.rxcnt, dphase := s.dphase, didx := s.didx, rxraw := s.rxraw }

/-- The step that completes a command keeps the received frame, also where it moves CSTATE or aborts. -/
theorem receivedPart_complete (last : Ending) (s : State) : receivedPart (complete last s) = receivedPart s := by
  cases last with
  | finish st => rfl
  | moveTo c => cases c <;> rfl
  | abort st => rfl

/-- The step that offers a byte keeps the received frame, whatever the transport answers. -/
theorem receivedPart_offerByte (frame : List Byte) (k : Nat) (later : List (List Byte)) (last : Ending) (s : State) :
    receivedPart (offerByte frame k later last s) = receivedPart s := by
  unfold offerByte
  split
  · rfl
  · split <;> rfl

/-- Outside decoding the block idles, offers a byte or completes a command (R10); none touches the received frame. -/
theorem receivedPart_blockStep {s t : State} (hp : s.progress ≠ .decoding) (ht : blockStep s = .next t) :
    receivedPart t = receivedPart s := by
  cases h : s.progress with
  | idle =>
    rw [blockStep_idle h] at ht
    cases ht
    rfl
  | decoding => exact absurd h hp
  | sending frame k later last =>
    rw [blockStep_sending h] at ht
    cases ht
    exact receivedPart_offerByte frame k later last s
  | ending last =>
    rw [blockStep_ending h] at ht
    cases ht
    exact receivedPart_complete last s

/-- Settles O51: a send command is only accepted in its own step, and no step of the block but a decoding one touches what
a READ has filled. -/
theorem sendsKeepTheReceivedFrame : Obligations.SendsKeepTheReceivedFrame := by
  refine ⟨fun i s t hi ht => ?_, fun s t hn hp ht => ?_⟩
  · obtain ⟨code, p, haccept⟩ := exec_send_accepts hi ht
    obtain ⟨-, rfl⟩ := accept_cases haccept
    rfl
  · rw [step_of_block hn] at ht
    have hkept : receivedPart t = receivedPart (takeTurn s) := receivedPart_blockStep (s := takeTurn s) hp ht
    injection hkept with hvalid hfin hop hmask hlen7 hplen hkey hcnt hphase hidx hraw
    exact ⟨hvalid, hfin, hop, hmask, hlen7, hplen, hkey, hcnt, hphase, hidx, hraw⟩

end Sys2Proof.Machine
end
